-- ==== Sys2Proof/Word.lean ====
section
/-! DEFINITION. The machine's word types: the byte every bus access moves, the eight-bit register address, and the 17-bit bus transaction word. -/

namespace Sys2Proof

/-- A data byte of the bus (00 R6, DATA_W = 8). -/
abbrev Byte := BitVec 8

/-- A register address (00 R6, ADDR_W = 8; 20 R28). -/
abbrev Addr := BitVec 8

/-- A bus transaction word, BT17 (30 R41). -/
abbrev BusWord := BitVec 17

end Sys2Proof
end

