-- ==== Sys2Proof/Config.lean ====
section
/-! DEFINITION. What an instance of the block fixes: the open parameter RSE_SIGNED and the fixed parameter P_OVF_THRESHOLD (00 R6); and the free bits of a NaN. -/

namespace Sys2Proof

/-- RSE_SIGNED, whether the range switching error is signed (00 R6, 30 R48). The spec leaves it OPEN
(92 D8), so it has no body: whatever is proved holds of an instance of either kind. Log entry 6. -/
opaque Config.rseSigned : Bool

/-- P_OVF_THRESHOLD, the pressure branch threshold, which the spec fixes at the positive integer 2^31
(00 R6, 42 R62). -/
def Config.pOvfThreshold : Int := 2147483648

/-- The sign of a NaN result of the gas path's operators, which the spec does not give; no state of the
block reaches a NaN (93 U25). Log entry 9. -/
opaque Config.nanSign : Bool

/-- The payload below the quiet bit of a NaN result. Log entry 9. -/
opaque Config.nanPayload : BitVec 51

end Sys2Proof
end

