-- ==== Sys2Proof/Syntax.lean ====
section
/-! DEFINITION. The instructions: one constructor per row of spec/opcode_table.json. -/

namespace Sys2Proof

/-- The CCB's instructions: its two bus transactions (30 R41) and its ten commands (30 R43). -/
inductive Instr where
  /-- WR A, D: host byte write (43 R75). -/
  | wr (a : Addr) (d : Byte)
  /-- RD A: host byte read (43 R76). -/
  | rd (a : Addr)
  /-- NOP (43 R71). -/
  | nop
  /-- CAL_LOAD: parse the calibration buffer (40 R54). -/
  | calLoad
  /-- UNPACK: unpack the raw sample (41 R57). -/
  | unpack
  /-- COMP_T: compensate temperature (42 R60). -/
  | compT
  /-- COMP_P: compensate pressure (42 R63). -/
  | compP
  /-- COMP_H: compensate humidity (42 R65). -/
  | compH
  /-- COMP_G: compensate gas resistance (42 R68). -/
  | compG
  /-- COMP_ALL: the full read cycle (43 R72). -/
  | compAll
  /-- CLR_STATUS: clear the error state (43 R73). -/
  | clrStatus
  /-- SRST: soft reset (43 R74). -/
  | srst
  deriving DecidableEq, Repr

end Sys2Proof
end

