-- ==== Sys2Proof/WellFormed.lean ====
section
/-! DEFINITION. Which instruction terms are the reading of a word: every term but a WR to CMD that spells a command, which is read as the command. -/

namespace Sys2Proof

/-- The address of CMD (20 R29). -/
def cmdAddr : Addr := 0x3C

/-- The command codes that 30 R43 assigns; every other code is reserved (30 R44). -/
def isCommandCode (d : Byte) : Bool := d.toNat ≤ 0x08 || d.toNat = 0x0F

/-- A term is well formed when it is what its own word is read as. A write of an assigned command code
to CMD has the command as its reading (opcode_table.json, the commands' rows as BT17 words), so the
term `wr cmdAddr d` is left for the reserved codes. DESIGN CHOICE, safe: log entry 5. -/
def Instr.wellFormed : Instr → Bool
  | .wr a d => !(decide (a = cmdAddr) && isCommandCode d)
  | .rd _ => true
  | .nop => true
  | .calLoad => true
  | .unpack => true
  | .compT => true
  | .compP => true
  | .compH => true
  | .compG => true
  | .compAll => true
  | .clrStatus => true
  | .srst => true

end Sys2Proof
end

