-- ==== Sys2Proof/Decode.lean ====
section
/-! DEFINITION. From bus words to instructions (30 R41-R44), total and rejecting by name, and back. -/

namespace Sys2Proof

/-- Why a word spells no transaction (30 R41; 93 U18, U19). -/
inductive BadWord where
  /-- "A value of 2^17 or more is not a BT17 word." -/
  | tooWide
  /-- "A read word whose D field is not 0x00 is not a valid encoding." -/
  | readWithData
  deriving DecidableEq, Repr

/-- The W field, bit 16 (30 R41). -/
def BusWord.isWrite (b : BusWord) : Bool := b.getLsbD 16

/-- The A field, bits 15:8 (30 R41). -/
def BusWord.addr (b : BusWord) : Addr := b.extractLsb' 8 8

/-- The D field, bits 7:0 (30 R41). -/
def BusWord.data (b : BusWord) : Byte := b.extractLsb' 0 8

/-- The command map (30 R43). -/
def commandTable : List (Byte × Instr) :=
  [(0x00, .nop), (0x01, .calLoad), (0x02, .unpack), (0x03, .compT), (0x04, .compP), (0x05, .compH),
   (0x06, .compG), (0x07, .compAll), (0x08, .clrStatus), (0x0F, .srst)]

/-- The command a CMD8 byte selects, by an exact match of all eight bits; none for a reserved code
(30 R42-R44). -/
def decodeCommand (d : Byte) : Option Instr := commandTable.lookup d

/-- The transaction a 17-bit word spells: "a transaction's kind by bit 16 alone, and a command by the
whole data byte" (30 R53). -/
def decodeBusWord (b : BusWord) : Except BadWord Instr :=
  if BusWord.isWrite b then
    if BusWord.addr b = cmdAddr then
      match decodeCommand (BusWord.data b) with
      | some i => .ok i
      | none => .ok (.wr (BusWord.addr b) (BusWord.data b))
    else .ok (.wr (BusWord.addr b) (BusWord.data b))
  else if BusWord.data b = 0 then .ok (.rd (BusWord.addr b))
  else .error .readWithData

/-- The decoder, on any number the host may issue as a word (30 R41). -/
def decode (w : Nat) : Except BadWord Instr :=
  if w < 2 ^ 17 then decodeBusWord (BitVec.ofNat 17 w) else .error .tooWide

/-- The word `W:A:D` (30 R41, 00 R7). -/
def busWord (w : BitVec 1) (a : Addr) (d : Byte) : BusWord := w ++ a ++ d

/-- The word of a write of command code `op` to CMD (30 R42, R52). -/
def commandWord (op : Byte) : BusWord := busWord 1 cmdAddr op

/-- The encoder (30 R41, R43). -/
def encode : Instr → BusWord
  | .wr a d => busWord 1 a d
  | .rd a => busWord 0 a 0x00
  | .nop => commandWord 0x00
  | .calLoad => commandWord 0x01
  | .unpack => commandWord 0x02
  | .compT => commandWord 0x03
  | .compP => commandWord 0x04
  | .compH => commandWord 0x05
  | .compG => commandWord 0x06
  | .compAll => commandWord 0x07
  | .clrStatus => commandWord 0x08
  | .srst => commandWord 0x0F

/-- The number the host puts on the bus for an instruction as spec/opcode_table.json numbers its bits:
a row of at most eight bits is a CMD8 byte, the data byte of a write to CMD (30 R42); a longer row is
the BT17 word itself. Bits above `nbits` are 0. DESIGN CHOICE, safe: log entry 13. -/
def tableWord (nbits w : Nat) : Nat :=
  if nbits ≤ 8 then (commandWord (BitVec.ofNat 8 (w % 2 ^ nbits))).toNat else w % 2 ^ nbits

/-- The instruction the decoder reads from the table's numbering of an instruction's bits. -/
def decodeTableWord (nbits w : Nat) : Option Instr :=
  match decode (tableWord nbits w) with
  | .ok i => some i
  | .error _ => none

end Sys2Proof
end

