-- ==== Sys2Proof/Machine/State.lean ====
section
/-! DEFINITION. The state: the block's registers exactly as 10 R14 lists them, and the host's side of the bus; its value at reset; and the ways a step can stop. -/

namespace Sys2Proof.Machine

/-- STATUS (10 R24), read whole by software; its bits are named in Machine/Flags.lean. -/
abbrev Status := BitVec 8

/-- ERR (10 R25), read whole by software; its bits are named in Machine/Flags.lean. -/
abbrev ErrReg := BitVec 16

/-- COEF, the 23 latched coefficients, at the widths of 10 R21. Whether a field is signed is said
where it is read as a number (Machine/Operands.lean, Machine/Compensation.lean). -/
structure Coef where
  t1 : BitVec 16
  t2 : BitVec 16
  t3 : BitVec 8
  p1 : BitVec 16
  p2 : BitVec 16
  p3 : BitVec 8
  p4 : BitVec 16
  p5 : BitVec 16
  p6 : BitVec 8
  p7 : BitVec 8
  p8 : BitVec 16
  p9 : BitVec 16
  p10 : BitVec 8
  h1 : BitVec 12
  h2 : BitVec 12
  h3 : BitVec 8
  h4 : BitVec 8
  h5 : BitVec 8
  h6 : BitVec 8
  h7 : BitVec 8
  gh1 : BitVec 8
  gh2 : BitVec 16
  gh3 : BitVec 8
  deriving DecidableEq, Repr

/-- The block's own state, "the complete state of the CCB" (10 R14), in that table's order. CMD holds
nothing (10 R20), and the three live views are not stored (10 R21). -/
structure Ccb where
  calbuf : Vector Byte 41
  heatRangeRaw : Byte
  heatValRaw : Byte
  rseRaw : Byte
  /-- RSE_W: RSE_RAW was written since reset (10 R16). -/
  rseW : Bool
  /-- CAL_WMASK: bit i, CALBUF[i] was written since it was last consumed (10 R17). -/
  calWMask : BitVec 41
  /-- RAW_WMASK: bit i, RAWBUF[i] was written since it was last consumed (10 R17). -/
  rawWMask : BitVec 10
  rawbuf : Vector Byte 10
  /-- T_OFFSET, signed, in 0.01 °C (10 R19). -/
  tOffset : BitVec 16
  status : Status
  err : ErrReg
  /-- T_FINE, signed (10 R23). -/
  tFine : BitVec 32
  /-- TEMP_OUT, signed, in 0.01 °C (10 R23). -/
  tempOut : BitVec 32
  /-- PRESS_OUT, signed, in Pa (10 R23). -/
  pressOut : BitVec 32
  /-- HUM_OUT, unsigned, in 0.01 %RH (10 R23). -/
  humOut : BitVec 32
  /-- GAS_OUT, a binary64 pattern, in ohms (10 R23, 30 R50). -/
  gasOut : BitVec 64
  adcT : BitVec 20
  adcP : BitVec 20
  adcH : BitVec 16
  adcG : BitVec 10
  gasRange : BitVec 4
  coef : Coef
  deriving DecidableEq, Repr

/-- What the outside world does to the block between two steps (00 R5, 70 R92). -/
inductive Input where
  /-- The host issues a bus transaction word. Any number may be issued; not every one is a word. -/
  | word (w : Nat)
  /-- Power-on reset. Log entry 11. -/
  | powerOn
  deriving DecidableEq, Repr

/-- The machine: the block, and the two ends of the host's side of the bus. -/
structure State where
  ccb : Ccb
  /-- The model's own: what the host has still to deliver, next first. Log entry 1. -/
  pending : List Input
  /-- The model's own: the bytes that reads have returned to the host, oldest first. Log entry 2. -/
  returned : List Byte
  deriving DecidableEq, Repr

/-- A stop with a fault. There is none: what the spec calls a fault of the CCB is a next state
(60 R79, Machine/Ops.lean `faultEntry`), and no rule stops the machine. Safe. -/
inductive Fault where
  deriving DecidableEq, Repr

/-- A stop without a meaning. -/
inductive Refusal where
  /-- Raised by no arm of `exec`, since every instruction has its meaning. Safe. -/
  | notModelled (mnemonic : String)
  /-- Raised by `step` when the host's next word spells no transaction, which the spec tells a model to
  refuse (30 R41; 93 U18, U19). Safe: log entry 4. -/
  | notATransaction (why : BadWord)
  deriving DecidableEq, Repr

/-- Every coefficient 0 (70 R92). -/
def Coef.reset : Coef where
  t1 := 0
  t2 := 0
  t3 := 0
  p1 := 0
  p2 := 0
  p3 := 0
  p4 := 0
  p5 := 0
  p6 := 0
  p7 := 0
  p8 := 0
  p9 := 0
  p10 := 0
  h1 := 0
  h2 := 0
  h3 := 0
  h4 := 0
  h5 := 0
  h6 := 0
  h7 := 0
  gh1 := 0
  gh2 := 0
  gh3 := 0

/-- RESET_STATE, after power-on and after SRST alike: the reset column of 10 R14 (70 R92). -/
def Ccb.reset : Ccb where
  calbuf := Vector.replicate 41 0x00
  heatRangeRaw := 0x00
  heatValRaw := 0x00
  rseRaw := 0x00
  rseW := false
  calWMask := 0
  rawWMask := 0
  rawbuf := Vector.replicate 10 0x00
  tOffset := 0
  status := 0x00
  err := 0x0000
  tFine := 0
  tempOut := 0
  pressOut := 0
  humOut := 0
  gasOut := 0x0000000000000000
  adcT := 0
  adcP := 0
  adcH := 0
  adcG := 0
  gasRange := 0
  coef := Coef.reset

/-- The machine right after reset: the block as the spec says, and a host that has neither issued
nor received anything. Log entries 1 and 2. -/
def State.reset : State where
  ccb := Ccb.reset
  pending := []
  returned := []

end Sys2Proof.Machine
end

