-- ==== Sys2Proof/Machine/Flags.lean ====
section
/-! DEFINITION. The bits of STATUS (10 R24) and ERR (10 R25), and how they are read and written. -/

namespace Sys2Proof.Machine

/-- The STATUS bits (10 R24). -/
inductive StatusBit where
  | calValid
  | rawValid
  | tfineValid
  | tempFresh
  | pressFresh
  | humFresh
  | gasFresh
  | lastFault
  deriving DecidableEq, Repr

/-- The fault causes, each with its ERR bit (10 R25, 60 R78). -/
inductive Err where
  | illegalCmd
  | calPartial
  | notCal
  | rawPartial
  | noRaw
  | noTfine
  | pDiv0
  | pRange
  | rseUnset
  | gasDenom
  | bus
  deriving DecidableEq, Repr

/-- The bit number of a STATUS bit (10 R24). -/
def StatusBit.pos : StatusBit → Nat
  | .calValid => 0
  | .rawValid => 1
  | .tfineValid => 2
  | .tempFresh => 3
  | .pressFresh => 4
  | .humFresh => 5
  | .gasFresh => 6
  | .lastFault => 7

/-- code(E), the ERR bit number of a fault cause (60 R78). -/
def Err.code : Err → Nat
  | .illegalCmd => 0
  | .calPartial => 1
  | .notCal => 2
  | .rawPartial => 3
  | .noRaw => 4
  | .noTfine => 5
  | .pDiv0 => 6
  | .pRange => 7
  | .rseUnset => 8
  | .gasDenom => 9
  | .bus => 10

/-- Read one STATUS bit. -/
def Status.get (st : Status) (b : StatusBit) : Bool := st.getLsbD b.pos

/-- Write one STATUS bit and leave the other seven. -/
def Status.put (st : Status) (b : StatusBit) (v : Bool) : Status :=
  if v then st ||| BitVec.twoPow 8 b.pos else st &&& ~~~(BitVec.twoPow 8 b.pos)

/-- Read one ERR bit. -/
def ErrReg.get (r : ErrReg) (e : Err) : Bool := r.getLsbD e.code

/-- Set one ERR bit and leave the others: ERR bits are sticky (10 R25). -/
def ErrReg.raise (r : ErrReg) (e : Err) : ErrReg := r ||| BitVec.twoPow 16 e.code

/-- `S.STATUS.BIT` (00 R11). -/
def Ccb.flag (c : Ccb) (b : StatusBit) : Bool := Status.get c.status b

/-- What a successful CAL_LOAD writes to STATUS (40 R54). -/
def Status.afterCalLoad (st : Status) : Status :=
  let st := Status.put st .calValid true
  let st := Status.put st .tfineValid false
  let st := Status.put st .tempFresh false
  let st := Status.put st .pressFresh false
  let st := Status.put st .humFresh false
  Status.put st .lastFault false

/-- What a successful UNPACK writes to STATUS (41 R57). -/
def Status.afterUnpack (st : Status) : Status :=
  let st := Status.put st .rawValid true
  let st := Status.put st .tfineValid false
  let st := Status.put st .tempFresh false
  let st := Status.put st .pressFresh false
  let st := Status.put st .humFresh false
  let st := Status.put st .gasFresh false
  Status.put st .lastFault false

/-- What a successful COMP_T writes to STATUS (42 R60). -/
def Status.afterCompT (st : Status) : Status :=
  let st := Status.put st .tfineValid true
  let st := Status.put st .tempFresh true
  Status.put st .lastFault false

/-- What a successful COMP_P, COMP_H or COMP_G writes to STATUS: its own FRESH bit and LAST_FAULT
(42 R63, R65, R68). -/
def Status.afterComp (st : Status) (fresh : StatusBit) : Status :=
  Status.put (Status.put st fresh true) .lastFault false

end Sys2Proof.Machine
end

