-- ==== Sys2Proof/Machine/Operands.lean ====
section
/-! DEFINITION. What an address names (20 R29), what value a read-only register shows (20 R30), and the live views of the extra calibration bytes (30 R48). -/

namespace Sys2Proof.Machine

/-- The read-only registers and live views of the register space, in address order (20 R29, 10 R21). -/
inductive RoReg where
  | status
  | err
  | tFine
  | tempOut
  | pressOut
  | humOut
  | gasOut
  | adcT
  | adcP
  | adcH
  | adcG
  | gasRange
  | t1
  | t2
  | t3
  | p1
  | p2
  | p3
  | p4
  | p5
  | p6
  | p7
  | p8
  | p9
  | p10
  | h1
  | h2
  | h3
  | h4
  | h5
  | h6
  | h7
  | gh1
  | gh2
  | gh3
  | resHeatRange
  | resHeatVal
  | rangeSwErr
  deriving DecidableEq, Repr

/-- One row of the address map: a read-only register, its lowest address and its width in bytes. -/
structure RoRow where
  base : Nat
  width : Nat
  reg : RoReg
  deriving DecidableEq, Repr

/-- The control, output and raw-code rows of the map (20 R29). -/
def roOutputRows : List RoRow :=
  [⟨0x3D, 1, .status⟩, ⟨0x3E, 2, .err⟩, ⟨0x40, 4, .tFine⟩, ⟨0x44, 4, .tempOut⟩, ⟨0x48, 4, .pressOut⟩,
   ⟨0x4C, 4, .humOut⟩, ⟨0x50, 8, .gasOut⟩, ⟨0x58, 4, .adcT⟩, ⟨0x5C, 4, .adcP⟩, ⟨0x60, 2, .adcH⟩,
   ⟨0x62, 2, .adcG⟩, ⟨0x64, 1, .gasRange⟩]

/-- The coefficient readback rows, 2 bytes each (10 R21, 20 R29). -/
def roCoefRows : List RoRow :=
  [⟨0x80, 2, .t1⟩, ⟨0x82, 2, .t2⟩, ⟨0x84, 2, .t3⟩, ⟨0x86, 2, .p1⟩, ⟨0x88, 2, .p2⟩, ⟨0x8A, 2, .p3⟩,
   ⟨0x8C, 2, .p4⟩, ⟨0x8E, 2, .p5⟩, ⟨0x90, 2, .p6⟩, ⟨0x92, 2, .p7⟩, ⟨0x94, 2, .p8⟩, ⟨0x96, 2, .p9⟩,
   ⟨0x98, 2, .p10⟩, ⟨0x9A, 2, .h1⟩, ⟨0x9C, 2, .h2⟩, ⟨0x9E, 2, .h3⟩, ⟨0xA0, 2, .h4⟩, ⟨0xA2, 2, .h5⟩,
   ⟨0xA4, 2, .h6⟩, ⟨0xA6, 2, .h7⟩, ⟨0xA8, 2, .gh1⟩, ⟨0xAA, 2, .gh2⟩, ⟨0xAC, 2, .gh3⟩,
   ⟨0xAE, 2, .resHeatRange⟩, ⟨0xB0, 2, .resHeatVal⟩, ⟨0xB2, 2, .rangeSwErr⟩]

/-- The read-only part of the address map (20 R29). -/
def roRows : List RoRow := roOutputRows ++ roCoefRows

/-- Whether a row's register covers an address. -/
def RoRow.covers (r : RoRow) (a : Nat) : Bool := decide (r.base ≤ a) && decide (a < r.base + r.width)

/-- What an address names. -/
inductive Loc where
  | calbuf (i : Fin 41)
  | heatRangeRaw
  | heatValRaw
  | rseRaw
  | rawbuf (i : Fin 10)
  | tOffsetLo
  | tOffsetHi
  | cmd
  /-- Byte `k` of a read-only register, `k = 0` the byte at its lowest address. -/
  | readOnly (row : RoRow) (k : Nat)
  | reserved
  deriving DecidableEq, Repr

/-- The address map (20 R29). -/
def locate (a : Addr) : Loc :=
  if h : a.toNat < 41 then .calbuf ⟨a.toNat, h⟩
  else if a.toNat = 0x29 then .heatRangeRaw
  else if a.toNat = 0x2A then .heatValRaw
  else if a.toNat = 0x2B then .rseRaw
  else if h : 0x30 ≤ a.toNat ∧ a.toNat < 0x30 + 10 then .rawbuf ⟨a.toNat - 0x30, by omega⟩
  else if a.toNat = 0x3A then .tOffsetLo
  else if a.toNat = 0x3B then .tOffsetHi
  else if a.toNat = 0x3C then .cmd
  else
    match roRows.find? (fun r => r.covers a.toNat) with
    | some r => .readOnly r (a.toNat - r.base)
    | none => .reserved

/-- RES_HEAT_RANGE = zext_2(HEAT_RANGE_RAW[5:4]) (30 R48). -/
def resHeatRange (raw : Byte) : Int := ((raw.extractLsb' 4 2).toNat : Int)

/-- RES_HEAT_VAL = sext_8(HEAT_VAL_RAW) (30 R48). -/
def resHeatVal (raw : Byte) : Int := raw.toInt

/-- RANGE_SW_ERR: RSE_RAW[7:4], as four-bit two's complement if RSE_SIGNED, else unsigned (30 R48).
The two readings differ only where bit 7 is set, so the parameter is looked at only there
(`rangeSwErr_eq_spec` in Laws/Operands.lean shows it is the spec's case split). -/
def rangeSwErr (signed : Bool) (raw : Byte) : Int :=
  if raw.getLsbD 7 && signed then (raw.extractLsb' 4 4).toInt else ((raw.extractLsb' 4 4).toNat : Int)

/-- The value v of a read-only register (20 R30): as a signed or an unsigned number by its type in
10 R14 and R21. A live view is computed here, at the read. -/
def roValue (c : Ccb) : RoReg → Int
  | .status => (c.status.toNat : Int)
  | .err => (c.err.toNat : Int)
  | .tFine => c.tFine.toInt
  | .tempOut => c.tempOut.toInt
  | .pressOut => c.pressOut.toInt
  | .humOut => (c.humOut.toNat : Int)
  | .gasOut => (c.gasOut.toNat : Int)
  | .adcT => (c.adcT.toNat : Int)
  | .adcP => (c.adcP.toNat : Int)
  | .adcH => (c.adcH.toNat : Int)
  | .adcG => (c.adcG.toNat : Int)
  | .gasRange => (c.gasRange.toNat : Int)
  | .t1 => (c.coef.t1.toNat : Int)
  | .t2 => c.coef.t2.toInt
  | .t3 => c.coef.t3.toInt
  | .p1 => (c.coef.p1.toNat : Int)
  | .p2 => c.coef.p2.toInt
  | .p3 => c.coef.p3.toInt
  | .p4 => c.coef.p4.toInt
  | .p5 => c.coef.p5.toInt
  | .p6 => c.coef.p6.toInt
  | .p7 => c.coef.p7.toInt
  | .p8 => c.coef.p8.toInt
  | .p9 => c.coef.p9.toInt
  | .p10 => (c.coef.p10.toNat : Int)
  | .h1 => (c.coef.h1.toNat : Int)
  | .h2 => (c.coef.h2.toNat : Int)
  | .h3 => c.coef.h3.toInt
  | .h4 => c.coef.h4.toInt
  | .h5 => c.coef.h5.toInt
  | .h6 => (c.coef.h6.toNat : Int)
  | .h7 => c.coef.h7.toInt
  | .gh1 => c.coef.gh1.toInt
  | .gh2 => c.coef.gh2.toInt
  | .gh3 => c.coef.gh3.toInt
  | .resHeatRange => resHeatRange c.heatRangeRaw
  | .resHeatVal => resHeatVal c.heatValRaw
  | .rangeSwErr => rangeSwErr Config.rseSigned c.rseRaw

/-- Byte `k` of the `width`-byte two's-complement image of `v`: `(v mod 2^(8w))[8k+7:8k]` (20 R30). -/
def imageByte (width : Nat) (v : Int) (k : Nat) : Byte := (BitVec.ofInt (8 * width) v).extractLsb' (8 * k) 8

end Sys2Proof.Machine
end

