-- ==== Sys2Proof/Machine/Ops.lean ====
section
/-! DEFINITION. The shared operations: fault entry, running a command, the bus read and write, and taking the host's next input. -/

namespace Sys2Proof.Machine

/-- FaultEntry(E), the CCB's taking of an exception (60 R79): two bits are set, "nothing else changes".
There is no return from it: nothing was saved (60 R83). -/
def faultEntry (e : Err) (c : Ccb) : Ccb :=
  { c with err := ErrReg.raise c.err e, status := Status.put c.status .lastFault true }

/-- The effect of a bus error: ERR.E_BUS is set and LAST_FAULT is not touched (60 R82, 20 R33). -/
def busError (c : Ccb) : Ccb := { c with err := ErrReg.raise c.err .bus }

/-- A command's rule: its writes, or the fault it raises before any write (00 R11). -/
abbrev Command := Ccb → Except Err Ccb

/-- Do the commands in order. A `raise Fault(E)` ends the sequence there, with the fault entry for E;
the ones completed before it keep their effects (43 R72, 60 R79). A single command is a sequence of
one. -/
def runCommands : List Command → Ccb → Ccb
  | [], c => c
  | f :: rest, c =>
    match f c with
    | .ok c' => runCommands rest c'
    | .error e => faultEntry e c

/-- A CMD write as a step of the machine: the commands run to completion within it (10 R20), and the
host's side of the bus is as before. -/
def commandStep (fs : List Command) (s : State) : Host.Outcome State Fault Refusal :=
  .next { s with ccb := runCommands fs s.ccb }

/-- The byte a read finds at a location (20 R30). -/
def readLoc (c : Ccb) : Loc → Byte
  | .calbuf i => c.calbuf[i]
  | .heatRangeRaw => c.heatRangeRaw
  | .heatValRaw => c.heatValRaw
  | .rseRaw => c.rseRaw
  | .rawbuf i => c.rawbuf[i]
  | .tOffsetLo => c.tOffset.extractLsb' 0 8
  | .tOffsetHi => c.tOffset.extractLsb' 8 8
  | .cmd => 0x00
  | .readOnly row k => imageByte row.width (roValue c row.reg) k
  | .reserved => 0x00

/-- The byte `MemRead(a, 1)` returns (20 R30). -/
def readByte (a : Addr) (c : Ccb) : Byte := readLoc c (locate a)

/-- The state `MemRead(a, 1)` leaves: E_BUS is set at a reserved address, "the only read with a side
effect" (20 R30). -/
def afterRead (a : Addr) (c : Ccb) : Ccb :=
  match locate a with
  | .reserved => busError c
  | .calbuf _ => c
  | .heatRangeRaw => c
  | .heatValRaw => c
  | .rseRaw => c
  | .rawbuf _ => c
  | .tOffsetLo => c
  | .tOffsetHi => c
  | .cmd => c
  | .readOnly _ _ => c

/-- `MemWrite(a, 1, d)` (20 R33), with `execute d` the running of command `d`. -/
def memWrite (execute : Byte → Ccb → Ccb) (a : Addr) (d : Byte) (c : Ccb) : Ccb :=
  match locate a with
  | .calbuf i => { c with calbuf := c.calbuf.set i d, calWMask := c.calWMask ||| BitVec.twoPow 41 i }
  | .heatRangeRaw => { c with heatRangeRaw := d }
  | .heatValRaw => { c with heatValRaw := d }
  | .rseRaw => { c with rseRaw := d, rseW := true, status := Status.put c.status .gasFresh false }
  | .rawbuf i => { c with rawbuf := c.rawbuf.set i d, rawWMask := c.rawWMask ||| BitVec.twoPow 10 i }
  | .tOffsetLo =>
    { c with tOffset := c.tOffset.extractLsb' 8 8 ++ d, status := Status.put c.status .tempFresh false }
  | .tOffsetHi =>
    { c with tOffset := d ++ c.tOffset.extractLsb' 0 8, status := Status.put c.status .tempFresh false }
  | .cmd => execute d c
  | .readOnly _ _ => busError c
  | .reserved => busError c

/-- Take the host's next input, if there is one (20 R37: one at a time, in the order issued). -/
def takeInput (s : State) : Option (Input × State) :=
  match s.pending with
  | [] => none
  | x :: rest => some (x, { s with pending := rest })

/-- A step with nothing to do: the block holds its state until the host's next transaction. DESIGN
CHOICE, safe: log entry 3. -/
def idle (s : State) : Host.Outcome State Fault Refusal := .next s

end Sys2Proof.Machine
end

