-- ==== Sys2Proof/Machine/Calibration.lean ====
section
/-! DEFINITION. The calibration parser: the layout of CALBUF (30 R45, R46) and CAL_LOAD (40 R54). -/

namespace Sys2Proof.Machine

/-- `u16(lo, hi)`: the byte at the lower index is the least significant (00 R7). -/
def u16 (lo hi : Byte) : BitVec 16 := hi ++ lo

/-- The 23 fields of a calibration buffer (40 R54). Sign extension is the reading of the field as a
number, so the field holds the buffer's bits. -/
def parseCalibration (b : Vector Byte 41) : Coef where
  t1 := u16 b[33] b[34]
  t2 := u16 b[1] b[2]
  t3 := b[3]
  p1 := u16 b[5] b[6]
  p2 := u16 b[7] b[8]
  p3 := b[9]
  p4 := u16 b[11] b[12]
  p5 := u16 b[13] b[14]
  p6 := b[16]
  p7 := b[15]
  p8 := u16 b[19] b[20]
  p9 := u16 b[21] b[22]
  p10 := b[23]
  h1 := b[27] ++ b[26].extractLsb' 0 4
  h2 := b[25] ++ b[26].extractLsb' 4 4
  h3 := b[28]
  h4 := b[29]
  h5 := b[30]
  h6 := b[31]
  h7 := b[32]
  gh1 := b[37]
  gh2 := u16 b[35] b[36]
  gh3 := b[38]

/-- The buffer rebuilt from its fields, with 0 at the eight unused indices (40 R56, 30 R47). -/
def unparseCalibration (c : Coef) : Vector Byte 41 :=
  #v[0, c.t2.extractLsb' 0 8, c.t2.extractLsb' 8 8, c.t3, 0, c.p1.extractLsb' 0 8, c.p1.extractLsb' 8 8,
     c.p2.extractLsb' 0 8, c.p2.extractLsb' 8 8, c.p3, 0, c.p4.extractLsb' 0 8, c.p4.extractLsb' 8 8,
     c.p5.extractLsb' 0 8, c.p5.extractLsb' 8 8, c.p7, c.p6, 0, 0, c.p8.extractLsb' 0 8, c.p8.extractLsb' 8 8,
     c.p9.extractLsb' 0 8, c.p9.extractLsb' 8 8, c.p10, 0, c.h2.extractLsb' 4 8,
     c.h2.extractLsb' 0 4 ++ c.h1.extractLsb' 0 4, c.h1.extractLsb' 4 8, c.h3, c.h4, c.h5, c.h6, c.h7,
     c.t1.extractLsb' 0 8, c.t1.extractLsb' 8 8, c.gh2.extractLsb' 0 8, c.gh2.extractLsb' 8 8, c.gh1, c.gh3,
     0, 0]

/-- The indices of CALBUF that no field uses (30 R47). -/
def unusedIndex (i : Nat) : Bool :=
  i = 0 || i = 4 || i = 10 || i = 17 || i = 18 || i = 24 || i = 39 || i = 40

/-- CAL_LOAD (40 R54). -/
def calLoad : Command := fun c =>
  if c.calWMask ≠ BitVec.allOnes 41 then .error .calPartial
  else .ok { c with coef := parseCalibration c.calbuf, calWMask := 0, status := Status.afterCalLoad c.status }

/-- CAL_LOAD as a step (40 R54). -/
def execCalLoad (s : State) : Host.Outcome State Fault Refusal := commandStep [calLoad] s

end Sys2Proof.Machine
end

