-- ==== Sys2Proof/Machine/Arith.lean ====
section
/-! DEFINITION. The spec's integer operators (00 R8, R9): exact integers, floor shifts, truncating division. -/

namespace Sys2Proof.Machine

/-- `a << n` is `a * 2^n`, also for negative `a` (00 R9). -/
def shl (a : Int) (n : Nat) : Int := a * ((2 ^ n : Nat) : Int)

/-- `a >> n` is `floor(a / 2^n)` (00 R9): Lean's `/` on integers rounds down for a positive divisor. -/
def asr (a : Int) (n : Nat) : Int := a / ((2 ^ n : Nat) : Int)

/-- `tdiv(a, b)`, the quotient truncated toward zero (00 R9). No rule evaluates it at `b = 0`. -/
def tdiv (a b : Int) : Int := Int.tdiv a b

/-- `clamp(v, lo, hi)` (00 R8). -/
def clamp (v lo hi : Int) : Int := if v < lo then lo else if v > hi then hi else v

/-- The spec's range check for a signed 32-bit register (42 R61). -/
def fitsSigned32 (v : Int) : Bool := decide (-2147483648 ≤ v) && decide (v ≤ 2147483647)

end Sys2Proof.Machine
end

