-- ==== Sys2Proof/Machine/Binary64.lean ====
section
/-! DEFINITION. IEEE 754 binary64 with round to nearest, ties to even, on bit patterns: the operators of 00 R10, each rounding once. -/

namespace Sys2Proof.Machine.Binary64

/-- A binary64 datum taken apart. -/
inductive Datum where
  | nan
  | inf (neg : Bool)
  /-- The number `(-1)^neg * sig * 2^exp`; a zero has `sig = 0` and keeps its sign. -/
  | fin (neg : Bool) (sig : Nat) (exp : Int)
  deriving DecidableEq, Repr

/-- Take a bit pattern apart: bit 63 the sign, bits 62:52 the exponent, bits 51:0 the fraction (30 R50). -/
def unpack (b : BitVec 64) : Datum :=
  let neg := b.getLsbD 63
  let e := (b.extractLsb' 52 11).toNat
  let f := (b.extractLsb' 0 52).toNat
  if e = 2047 then (if f = 0 then .inf neg else .nan)
  else if e = 0 then .fin neg f (-1074)
  else .fin neg (2 ^ 52 + f) ((e : Int) - 1075)

/-- The pattern with sign `neg` and the low 63 bits `mag`. -/
def signed (neg : Bool) (mag : Nat) : BitVec 64 := BitVec.ofNat 64 (if neg then 2 ^ 63 + mag else mag)

/-- The low 63 bits of an infinity. -/
def infMag : Nat := 2047 * 2 ^ 52

/-- The pattern of a NaN result: exponent all ones and the quiet bit, the other bits free. No state of the
block reaches one (93 U25). DESIGN CHOICE, safe: log entry 9. -/
def nanPattern : BitVec 64 := BitVec.ofBool Config.nanSign ++ (0xFFF : BitVec 12) ++ Config.nanPayload

/-- `m / 2^d` rounded to the nearest integer, ties to even. -/
def roundDiv (m d : Nat) : Nat :=
  let q := m / 2 ^ d
  let r := m % 2 ^ d
  if 2 * r > 2 ^ d ∨ (2 * r = 2 ^ d ∧ q % 2 = 1) then q + 1 else q

/-- The exponent of the unit in the last place at which `m * 2^e` is rounded: 53 significant bits, but
never below the subnormal unit `2^-1074`. -/
def ulpExp (m : Nat) (e : Int) : Int := max (e + (m.log2 : Int) - 52) (-1074)

/-- The number of units in the last place that `m * 2^e` rounds to, at most `2^53`. -/
def ulps (m : Nat) (e : Int) : Nat :=
  if ulpExp m e ≤ e then m * 2 ^ (e - ulpExp m e).toNat else roundDiv m (ulpExp m e - e).toNat

/-- The binary64 nearest to `(-1)^neg * m * 2^e`, ties to even; past the largest number, an infinity.
With `n` units of `2^q`, the low 63 bits are `(q + 1074) * 2^52 + n` for a normal, a subnormal and a
carry into the next binade alike, since the exponent field of a normal is `q + 1075`. -/
def round (neg : Bool) (m : Nat) (e : Int) : BitVec 64 :=
  if m = 0 then signed neg 0
  else signed neg (min ((ulpExp m e + 1074).toNat * 2 ^ 52 + ulps m e) infMag)

/-- `f64(v)` of an integer (00 R10). -/
def ofInt (v : Int) : BitVec 64 := round (decide (v < 0)) v.natAbs 0

/-- `a ⊗ b` (00 R10). -/
def mul (a b : BitVec 64) : BitVec 64 :=
  match unpack a, unpack b with
  | .fin s m e, .fin t n f => round (s != t) (m * n) (e + f)
  | .inf s, .inf t => signed (s != t) infMag
  | .inf s, .fin t n _ => if n = 0 then nanPattern else signed (s != t) infMag
  | .fin s m _, .inf t => if m = 0 then nanPattern else signed (s != t) infMag
  | .nan, _ => nanPattern
  | _, .nan => nanPattern

/-- `(-1)^neg * sig * 2^(exp - base)` for `base ≤ exp`: a number in units of `2^base`. -/
def scaled (neg : Bool) (sig : Nat) (exp base : Int) : Int :=
  if neg then -((sig * 2 ^ (exp - base).toNat : Nat) : Int) else ((sig * 2 ^ (exp - base).toNat : Nat) : Int)

/-- `a ⊕ b` (00 R10). An exact sum of 0 is -0 if both operands are negative, else +0. -/
def add (a b : BitVec 64) : BitVec 64 :=
  match unpack a, unpack b with
  | .fin s m e, .fin t n f =>
    let base := min e f
    let v := scaled s m e base + scaled t n f base
    if v = 0 then signed (s && t) 0 else round (decide (v < 0)) v.natAbs base
  | .inf s, .inf t => if s = t then signed s infMag else nanPattern
  | .inf s, .fin _ _ _ => signed s infMag
  | .fin _ _ _, .inf t => signed t infMag
  | .nan, _ => nanPattern
  | _, .nan => nanPattern

/-- The pattern with the other sign. -/
def negate (a : BitVec 64) : BitVec 64 := a ^^^ BitVec.twoPow 64 63

/-- `a ⊖ b` (00 R10): `a ⊕ (-b)`. -/
def sub (a b : BitVec 64) : BitVec 64 := add a (negate b)

/-- How far the dividend is scaled up so that the integer quotient has at least 55 bits. -/
def divShift (n : Nat) : Nat := n.log2 + 56

/-- The integer quotient of the scaled dividend, with one more bit that says whether a remainder was
dropped: it rounds as the exact quotient does. -/
def divSig (m n : Nat) : Nat :=
  2 * (m * 2 ^ divShift n / n) + (if m * 2 ^ divShift n % n = 0 then 0 else 1)

/-- `a ⊘ b` (00 R10). -/
def div (a b : BitVec 64) : BitVec 64 :=
  match unpack a, unpack b with
  | .fin s m e, .fin t n f =>
    if n = 0 then (if m = 0 then nanPattern else signed (s != t) infMag)
    else round (s != t) (divSig m n) (e - f - (divShift n : Int) - 1)
  | .inf _, .inf _ => nanPattern
  | .inf s, .fin t _ _ => signed (s != t) infMag
  | .fin s _ _, .inf t => signed (s != t) 0
  | .nan, _ => nanPattern
  | _, .nan => nanPattern

/-- `x > 0.0`, false of a NaN (42 R67). -/
def isPositive (x : BitVec 64) : Bool :=
  match unpack x with
  | .fin neg sig _ => !neg && decide (sig ≠ 0)
  | .inf neg => !neg
  | .nan => false

end Sys2Proof.Machine.Binary64
end

