-- ==== Sys2Proof/Machine/Compensation.lean ====
section
/-! DEFINITION. The compensation engine: compT, compP, compH, compG (42 R59, R61, R64, R67) and the four commands over them (42 R60, R63, R65, R68). -/

namespace Sys2Proof.Machine

/-- `t_fine` of compT (42 R59). -/
def fineTemp (adcT t1 t2 t3 : Int) : Int :=
  let var1 := asr adcT 3 - shl t1 1
  let var2 := asr (var1 * t2) 11
  let var3 := asr (asr var1 1 * asr var1 1) 12
  let var3 := asr (var3 * shl t3 4) 14
  var2 + var3

/-- The step `((t_fine * 5) + 128) >> 8`, hundredths of a degree: `tc` of compT and `ts` of compH
(42 R59, R64). -/
def centiDegrees (tFine : Int) : Int := asr (tFine * 5 + 128) 8

/-- compT, `(t_fine, temp_out)` (42 R59). -/
def compT (adcT t1 t2 t3 tOffset : Int) : Int × Int :=
  let tFine := fineTemp adcT t1 t2 t3
  (tFine, centiDegrees tFine + tOffset)

/-- COMP_T (42 R60). -/
def compTemperature : Command := fun c =>
  if Ccb.flag c .calValid = false then .error .notCal
  else if Ccb.flag c .rawValid = false then .error .noRaw
  else
    let r := compT c.adcT.toNat c.coef.t1.toNat c.coef.t2.toInt c.coef.t3.toInt c.tOffset.toInt
    .ok { c with
      tFine := BitVec.ofInt 32 r.1
      tempOut := BitVec.ofInt 32 r.2
      status := Status.afterCompT c.status }

/-- The divisor of compP: `var1` after the line `((32768 + var1) * P1) >> 15` (42 R61). -/
def pressDivisor (tFine p1 p2 p3 : Int) : Int :=
  let var1 := asr tFine 1 - 64000
  let var1 := asr (asr (asr var1 2 * asr var1 2) 13 * shl p3 5) 3 + asr (p2 * var1) 1
  let var1 := asr var1 18
  asr ((32768 + var1) * p1) 15

/-- The dividend of compP: `pc` before the division (42 R61). -/
def pressDividend (tFine adcP p4 p5 p6 : Int) : Int :=
  let var1 := asr tFine 1 - 64000
  let var2 := asr (asr (asr var1 2 * asr var1 2) 11 * p6) 2
  let var2 := var2 + shl (var1 * p5) 1
  let var2 := asr var2 2 + shl p4 16
  let pc := 1048576 - adcP
  (pc - asr var2 12) * 3125

/-- The two-branch division of compP (42 R61, R62): branch A divides, then shifts; branch B shifts,
then divides. -/
def pressQuotient (threshold pc var1 : Int) : Int :=
  if pc ≥ threshold then shl (tdiv pc var1) 1 else tdiv (shl pc 1) var1

/-- The last five lines of compP before its range check (42 R61). -/
def pressCorrected (pc p7 p8 p9 p10 : Int) : Int :=
  let var1 := asr (p9 * asr (asr pc 3 * asr pc 3) 13) 12
  let var2 := asr (asr pc 2 * p8) 13
  let var3 := asr (asr pc 8 * asr pc 8 * asr pc 8 * p10) 17
  pc + asr (var1 + var2 + var3 + shl p7 7) 4

/-- compP (42 R61). -/
def compP (tFine adcP p1 p2 p3 p4 p5 p6 p7 p8 p9 p10 : Int) : Except Err Int :=
  let var1 := pressDivisor tFine p1 p2 p3
  let pc := pressDividend tFine adcP p4 p5 p6
  if var1 = 0 then .error .pDiv0
  else
    let pc := pressCorrected (pressQuotient Config.pOvfThreshold pc var1) p7 p8 p9 p10
    if fitsSigned32 pc then .ok pc else .error .pRange

/-- compP on the registers it reads (42 R63). -/
def pressureOf (c : Ccb) : Except Err Int :=
  compP c.tFine.toInt c.adcP.toNat c.coef.p1.toNat c.coef.p2.toInt c.coef.p3.toInt c.coef.p4.toInt
    c.coef.p5.toInt c.coef.p6.toInt c.coef.p7.toInt c.coef.p8.toInt c.coef.p9.toInt c.coef.p10.toNat

/-- COMP_P (42 R63). -/
def compPressure : Command := fun c =>
  if Ccb.flag c .calValid = false then .error .notCal
  else if Ccb.flag c .rawValid = false then .error .noRaw
  else if Ccb.flag c .tfineValid = false then .error .noTfine
  else
    match pressureOf c with
    | .error e => .error e
    | .ok p => .ok { c with pressOut := BitVec.ofInt 32 p, status := Status.afterComp c.status .pressFresh }

/-- `hq` of compH before the clamp, in 1/1024 %RH (42 R64). -/
def humidityUnclamped (tFine adcH h1 h2 h3 h4 h5 h6 h7 : Int) : Int :=
  let ts := centiDegrees tFine
  let var1 := (adcH - h1 * 16) - asr (tdiv (ts * h3) 100) 1
  let var2 := asr (h2 * (tdiv (ts * h4) 100 + tdiv (asr (ts * tdiv (ts * h5) 100) 6) 100 + 16384)) 10
  let var3 := var1 * var2
  let var4 := shl h6 7
  let var4 := asr (var4 + tdiv (ts * h7) 100) 4
  let var5 := asr (asr var3 14 * asr var3 14) 10
  let var6 := asr (var4 * var5) 1
  asr (var3 + var6) 12

/-- compH (42 R64). -/
def compH (tFine adcH h1 h2 h3 h4 h5 h6 h7 : Int) : Int :=
  let hq := clamp (humidityUnclamped tFine adcH h1 h2 h3 h4 h5 h6 h7) 0 102400
  asr (hq * 100 + 512) 10

/-- compH on the registers it reads (42 R65). -/
def humidityOf (c : Ccb) : Int :=
  compH c.tFine.toInt c.adcH.toNat c.coef.h1.toNat c.coef.h2.toNat c.coef.h3.toInt c.coef.h4.toInt
    c.coef.h5.toInt c.coef.h6.toNat c.coef.h7.toInt

/-- COMP_H (42 R65). -/
def compHumidity : Command := fun c =>
  if Ccb.flag c .calValid = false then .error .notCal
  else if Ccb.flag c .rawValid = false then .error .noRaw
  else if Ccb.flag c .tfineValid = false then .error .noTfine
  else .ok { c with humOut := BitVec.ofInt 32 (humidityOf c), status := Status.afterComp c.status .humFresh }

/-- The gas table K1, by GAS_RANGE (42 R66). -/
def gasTable1 : List (BitVec 64) :=
  [0x3FF0000000000000, 0x3FF0000000000000, 0x3FF0000000000000, 0x3FF0000000000000,
   0x3FF0000000000000, 0x3FEFAE147AE147AE, 0x3FF0000000000000, 0x3FEFBE76C8B43958,
   0x3FF0000000000000, 0x3FF0000000000000, 0x3FEFEF9DB22D0E56, 0x3FEFD70A3D70A3D7,
   0x3FF0000000000000, 0x3FEFAE147AE147AE, 0x3FF0000000000000, 0x3FF0000000000000]

/-- The gas table K2, by GAS_RANGE (42 R66). -/
def gasTable2 : List (BitVec 64) :=
  [0x415E848000000000, 0x414E848000000000, 0x413E848000000000, 0x412E848000000000,
   0x411E7CB1FF7CED91, 0x410E4E315182A993, 0x40FE848000000000, 0x40EEC38108461F9F,
   0x40DE8C52007DD441, 0x40CE848000000000, 0x40BE848000000000, 0x40AE848000000000,
   0x409E848000000000, 0x408E848000000000, 0x407E848000000000, 0x406E848000000000]

/-- K1[r]; the table has an entry for each of the 16 ranges. -/
def gasK1 (r : BitVec 4) : BitVec 64 := gasTable1.getD r.toNat 0

/-- K2[r]; the table has an entry for each of the 16 ranges. -/
def gasK2 (r : BitVec 4) : BitVec 64 := gasTable2.getD r.toNat 0

/-- `var1` of compG: `f64(1340 + 5 * e) ⊗ K1[r]` (42 R67). -/
def gasVar1 (r : BitVec 4) (e : Int) : BitVec 64 := Binary64.mul (Binary64.ofInt (1340 + 5 * e)) (gasK1 r)

/-- `den` of compG: `f64(adc_G - 512) ⊕ var1` (42 R67). -/
def gasDenominator (adcG : Int) (r : BitVec 4) (e : Int) : BitVec 64 :=
  Binary64.add (Binary64.ofInt (adcG - 512)) (gasVar1 r e)

/-- compG (42 R67). -/
def compG (adcG : Int) (r : BitVec 4) (e : Int) : Except Err (BitVec 64) :=
  let var1 := gasVar1 r e
  let num := Binary64.mul var1 (gasK2 r)
  let den := gasDenominator adcG r e
  if Binary64.isPositive den then .ok (Binary64.div num den) else .error .gasDenom

/-- compG on the registers it reads, with RANGE_SW_ERR decoded live (42 R68, 30 R48). -/
def gasOf (c : Ccb) : Except Err (BitVec 64) :=
  compG c.adcG.toNat c.gasRange (rangeSwErr Config.rseSigned c.rseRaw)

/-- COMP_G (42 R68). -/
def compGas : Command := fun c =>
  if Ccb.flag c .rawValid = false then .error .noRaw
  else if c.rseW = false then .error .rseUnset
  else
    match gasOf c with
    | .error e => .error e
    | .ok g => .ok { c with gasOut := g, status := Status.afterComp c.status .gasFresh }

/-- COMP_T as a step (42 R60). -/
def execCompT (s : State) : Host.Outcome State Fault Refusal := commandStep [compTemperature] s

/-- COMP_P as a step (42 R63). -/
def execCompP (s : State) : Host.Outcome State Fault Refusal := commandStep [compPressure] s

/-- COMP_H as a step (42 R65). -/
def execCompH (s : State) : Host.Outcome State Fault Refusal := commandStep [compHumidity] s

/-- COMP_G as a step (42 R68). -/
def execCompG (s : State) : Host.Outcome State Fault Refusal := commandStep [compGas] s

end Sys2Proof.Machine
end

