-- ==== Sys2Proof/Machine/RawSample.lean ====
section
/-! DEFINITION. Raw sample unpacking: the layout of RAWBUF (30 R49) and UNPACK (41 R57). -/

namespace Sys2Proof.Machine

/-- The 20-bit code of three bytes, "shifted right 4 bits after concatenation" (41 R57). -/
def code20 (b0 b1 b2 : Byte) : BitVec 20 := (((b0 ++ b1 ++ b2 : BitVec 24)) >>> 4).setWidth 20

/-- UNPACK (41 R57). -/
def unpackSample : Command := fun c =>
  if c.rawWMask ≠ BitVec.allOnes 10 then .error .rawPartial
  else .ok
    { c with
      adcT := code20 c.rawbuf[0] c.rawbuf[1] c.rawbuf[2]
      adcP := code20 c.rawbuf[3] c.rawbuf[4] c.rawbuf[5]
      adcH := c.rawbuf[6] ++ c.rawbuf[7]
      adcG := c.rawbuf[8] ++ c.rawbuf[9].extractLsb' 6 2
      gasRange := c.rawbuf[9].extractLsb' 0 4
      rawWMask := 0
      status := Status.afterUnpack c.status }

/-- UNPACK as a step (41 R57). -/
def execUnpack (s : State) : Host.Outcome State Fault Refusal := commandStep [unpackSample] s

end Sys2Proof.Machine
end

