-- ==== Sys2Proof/Machine/Control.lean ====
section
/-! DEFINITION. The control commands NOP, COMP_ALL, CLR_STATUS and SRST (43 R71-R74), the reserved codes (30 R44), and power-on reset (70 R92). -/

namespace Sys2Proof.Machine

/-- NOP: nothing but clear LAST_FAULT (43 R71). -/
def nop : Command := fun c => .ok { c with status := Status.put c.status .lastFault false }

/-- CLR_STATUS (43 R73). -/
def clrStatus : Command := fun c =>
  .ok { c with err := 0x0000, status := Status.put c.status .lastFault false }

/-- SRST: `S <- RESET_STATE` (43 R74). -/
def softReset : Command := fun _ => .ok Ccb.reset

/-- A reserved command code: "nothing else is checked" (30 R44, 60 R81). -/
def illegalCommand : Command := fun _ => .error .illegalCmd

/-- The sub-commands of COMP_ALL, in order (43 R72). -/
def readCycle : List Command := [unpackSample, compTemperature, compPressure, compHumidity, compGas]

/-- NOP as a step (43 R71). -/
def execNop (s : State) : Host.Outcome State Fault Refusal := commandStep [nop] s

/-- COMP_ALL as a step (43 R72). -/
def execCompAll (s : State) : Host.Outcome State Fault Refusal := commandStep readCycle s

/-- CLR_STATUS as a step (43 R73). -/
def execClrStatus (s : State) : Host.Outcome State Fault Refusal := commandStep [clrStatus] s

/-- SRST as a step: the block is reset, the host's side of the bus is not (43 R74). -/
def execSrst (s : State) : Host.Outcome State Fault Refusal := commandStep [softReset] s

/-- Power-on reset: the same reset as SRST (70 R92). -/
def powerOnReset (s : State) : Host.Outcome State Fault Refusal := .next { s with ccb := Ccb.reset }

end Sys2Proof.Machine
end

