-- ==== Sys2Proof/Machine/Bus.lean ====
section
/-! DEFINITION. The bus transactions WR and RD (43 R75, R76), and the command a write to CMD runs (30 R43, R44). -/

namespace Sys2Proof.Machine

/-- What a byte written to CMD runs: the command of its code, or the fault of a reserved code
(30 R43, R44). -/
def commandsOf (d : Byte) : List Command :=
  match decodeCommand d with
  | some .nop => [nop]
  | some .calLoad => [calLoad]
  | some .unpack => [unpackSample]
  | some .compT => [compTemperature]
  | some .compP => [compPressure]
  | some .compH => [compHumidity]
  | some .compG => [compGas]
  | some .compAll => readCycle
  | some .clrStatus => [clrStatus]
  | some .srst => [softReset]
  | some (.wr _ _) => [illegalCommand]
  | some (.rd _) => [illegalCommand]
  | none => [illegalCommand]

/-- Execute command `d` (20 R33). -/
def executeCommand (d : Byte) (c : Ccb) : Ccb := runCommands (commandsOf d) c

/-- WR A, D (43 R75). -/
def execWr (a : Addr) (d : Byte) (s : State) : Host.Outcome State Fault Refusal :=
  .next { s with ccb := memWrite executeCommand a d s.ccb }

/-- RD A: the byte goes to the host (43 R76). -/
def execRd (a : Addr) (s : State) : Host.Outcome State Fault Refusal :=
  .next { s with ccb := afterRead a s.ccb, returned := s.returned ++ [readByte a s.ccb] }

end Sys2Proof.Machine
end

