-- ==== Sys2Proof/Machine/Dispatch.lean ====
section
/-! DEFINITION. The meaning of each instruction, one arm per constructor. -/

namespace Sys2Proof.Machine

def exec (i : Instr) (s : State) : Host.Outcome State Fault Refusal :=
  match i with
  | .wr a d => Sys2Proof.Machine.execWr a d s
  | .rd a => Sys2Proof.Machine.execRd a s
  | .nop => Sys2Proof.Machine.execNop s
  | .calLoad => Sys2Proof.Machine.execCalLoad s
  | .unpack => Sys2Proof.Machine.execUnpack s
  | .compT => Sys2Proof.Machine.execCompT s
  | .compP => Sys2Proof.Machine.execCompP s
  | .compH => Sys2Proof.Machine.execCompH s
  | .compG => Sys2Proof.Machine.execCompG s
  | .compAll => Sys2Proof.Machine.execCompAll s
  | .clrStatus => Sys2Proof.Machine.execClrStatus s
  | .srst => Sys2Proof.Machine.execSrst s

end Sys2Proof.Machine
end

