-- ==== Sys2Proof/Machine/Step.lean ====
section
/-! DEFINITION. One step: the host's next input takes effect completely (20 R37). -/

namespace Sys2Proof.Machine

/-- Deliver the host's next input: a bus word that spells a transaction runs it, a power-on reset
resets the block, and with no input the block waits. -/
def step (s : State) : Host.Outcome State Fault Refusal :=
  match takeInput s with
  | none => idle s
  | some (.powerOn, s') => powerOnReset s'
  | some (.word w, s') =>
    match decode w with
    | .ok i => exec i s'
    | .error why => .refused (.notATransaction why)

/-- `s` with an instruction, as spec/opcode_table.json numbers its bits, as the host's next
transaction, before all it had still to deliver. Log entry 1. -/
def State.withFetchWord (s : State) (nbits w : Nat) : State :=
  { s with pending := .word (tableWord nbits w) :: s.pending }

end Sys2Proof.Machine
end

