-- ==== Sys2Proof/Machine/Assembler.lean ====
section
/-! DEFINITION. The assembly language: one line to the words it stands for, pseudo-instructions included (30 R51, R52). The machine does not use it; it gives a program its written form. -/

namespace Sys2Proof.Machine.Assembler

/-- `WRN addr, b0, ..., bk`: one WR for each byte, at rising addresses (30 R52). None when an address
would pass 0xFF, which no word encodes: log entry 14. -/
def wrn : Nat → List Byte → Option (List BusWord)
  | _, [] => some []
  | a, b :: rest => if a < 256 then (wrn (a + 1) rest).map (busWord 1 (BitVec.ofNat 8 a) b :: ·) else none

/-- `RDN addr, n`: n RDs at rising addresses (30 R52). -/
def rdn : Nat → Nat → Option (List BusWord)
  | _, 0 => some []
  | a, n + 1 => if a < 256 then (rdn (a + 1) n).map (busWord 0 (BitVec.ofNat 8 a) 0x00 :: ·) else none

/-- `WR16 addr, v`: the low byte of zext_16(v), then the high byte (30 R52). -/
def wr16 (a : Nat) (v : Int) : Option (List BusWord) :=
  wrn a [(BitVec.ofInt 16 v).extractLsb' 0 8, (BitVec.ofInt 16 v).extractLsb' 8 8]

/-- The command mnemonics (30 R43). -/
def mnemonics : List (String × Instr) :=
  [("NOP", .nop), ("CAL_LOAD", .calLoad), ("UNPACK", .unpack), ("COMP_T", .compT), ("COMP_P", .compP),
   ("COMP_H", .compH), ("COMP_G", .compG), ("COMP_ALL", .compAll), ("CLR_STATUS", .clrStatus), ("SRST", .srst)]

/-- The register names, each with the register's lowest address (30 R51, 20 R29, 10 R21). -/
def registerNames : List (String × Nat) :=
  [("CALBUF", 0x00), ("HEAT_RANGE_RAW", 0x29), ("HEAT_VAL_RAW", 0x2A), ("RSE_RAW", 0x2B), ("RAWBUF", 0x30),
   ("T_OFFSET", 0x3A), ("CMD", 0x3C), ("STATUS", 0x3D), ("ERR", 0x3E), ("T_FINE", 0x40), ("TEMP_OUT", 0x44),
   ("PRESS_OUT", 0x48), ("HUM_OUT", 0x4C), ("GAS_OUT", 0x50), ("ADC_T", 0x58), ("ADC_P", 0x5C),
   ("ADC_H", 0x60), ("ADC_G", 0x62), ("GAS_RANGE", 0x64), ("T1", 0x80), ("T2", 0x82), ("T3", 0x84),
   ("P1", 0x86), ("P2", 0x88), ("P3", 0x8A), ("P4", 0x8C), ("P5", 0x8E), ("P6", 0x90), ("P7", 0x92),
   ("P8", 0x94), ("P9", 0x96), ("P10", 0x98), ("H1", 0x9A), ("H2", 0x9C), ("H3", 0x9E), ("H4", 0xA0),
   ("H5", 0xA2), ("H6", 0xA4), ("H7", 0xA6), ("GH1", 0xA8), ("GH2", 0xAA), ("GH3", 0xAC),
   ("RES_HEAT_RANGE", 0xAE), ("RES_HEAT_VAL", 0xB0), ("RANGE_SW_ERR", 0xB2)]

/-- The value of a digit in a base of at most 16; hexadecimal letters of either case (DESIGN CHOICE, log
entry 15). -/
def digit (base : Nat) (c : Char) : Option Nat :=
  let v :=
    if '0' ≤ c ∧ c ≤ '9' then c.toNat - '0'.toNat
    else if 'a' ≤ c ∧ c ≤ 'f' then c.toNat - 'a'.toNat + 10
    else if 'A' ≤ c ∧ c ≤ 'F' then c.toNat - 'A'.toNat + 10
    else base
  if v < base then some v else none

/-- The number a run of digits spells, after `acc`. -/
def digits (base : Nat) : Nat → List Char → Option Nat
  | acc, [] => some acc
  | acc, c :: rest =>
    match digit base c with
    | some v => digits base (acc * base + v) rest
    | none => none

/-- A number: "decimal, or hexadecimal with a `0x` prefix" (30 R51). -/
def number : List Char → Option Nat
  | [] => none
  | '0' :: 'x' :: c :: rest => digits 16 0 (c :: rest)
  | cs => digits 10 0 cs

/-- A number with an optional minus sign, the operand of WR16 (DESIGN CHOICE, log entry 15). -/
def signedNumber : List Char → Option Int
  | '-' :: cs => (number cs).map (fun n => -(n : Int))
  | cs => (number cs).map (fun n => (n : Int))

/-- An `<addr>`: a number or a register name (30 R51). -/
def address (cs : List Char) : Option Nat :=
  match registerNames.find? (fun r => r.1.toList == cs) with
  | some r => some r.2
  | none => (number cs).bind (fun n => if n < 256 then some n else none)

/-- A `<byte>`. -/
def byte (cs : List Char) : Option Byte :=
  (number cs).bind (fun n => if n < 256 then some (BitVec.ofNat 8 n) else none)

/-- All the bytes of a list of operands, or none. -/
def bytes : List (List Char) → Option (List Byte)
  | [] => some []
  | cs :: rest => (byte cs).bind (fun b => (bytes rest).map (b :: ·))

/-- The text before a `;` comment (30 R51). -/
def uncomment : List Char → List Char
  | [] => []
  | c :: rest => if c = ';' then [] else c :: uncomment rest

/-- Text without its blanks, those inside an operand too: `STA TUS` is `STATUS`. DESIGN CHOICE, 30 R51 is
silent on blanks: log entry 15. -/
def squeeze (cs : List Char) : List Char := cs.filter (fun c => !c.isWhitespace)

/-- Split at commas, blanks dropped, those inside an operand too: `1 2, 3` is the operands `12` and `3`.
DESIGN CHOICE, 30 R51 is silent on blanks: log entry 15. -/
def operands : List Char → List (List Char)
  | [] => [[]]
  | c :: rest =>
    if c = ',' then [] :: operands rest
    else
      match operands rest with
      | [] => [[c]]
      | o :: os => (if c.isWhitespace then o else c :: o) :: os

/-- The words of one line; the empty list for a line that is blank or a comment, none for a line that
is not of the language. What 30 R51 leaves open of the text is DESIGN CHOICE: log entry 15. -/
def assembleLine (line : List Char) : Option (List BusWord) :=
  let text := (uncomment line).dropWhile (fun c => c.isWhitespace)
  let name := String.ofList (text.takeWhile (fun c => !c.isWhitespace))
  let rest := text.dropWhile (fun c => !c.isWhitespace)
  if text = [] then some []
  else if name = "WR" then
    match operands rest with
    | [a, d] => (address a).bind (fun a => (byte d).map (fun d => [busWord 1 (BitVec.ofNat 8 a) d]))
    | _ => none
  else if name = "RD" then (address (squeeze rest)).map (fun a => [busWord 0 (BitVec.ofNat 8 a) 0x00])
  else if name = "CMD" then
    (mnemonics.find? (fun m => m.1.toList == squeeze rest)).map (fun m => [encode m.2])
  else if name = "WRN" then
    match operands rest with
    | a :: b :: bs => (address a).bind (fun a => (bytes (b :: bs)).bind (wrn a))
    | _ => none
  else if name = "RDN" then
    match operands rest with
    | [a, n] => (address a).bind (fun a => (number n).bind (rdn a))
    | _ => none
  else if name = "WR16" then
    match operands rest with
    | [a, v] => (address a).bind (fun a => (signedNumber v).bind (wr16 a))
    | _ => none
  else none

end Sys2Proof.Machine.Assembler
end

