-- ==== Sys2Proof/Safety.lean ====
section
/-! DEFINITION. The terms claims are made in: the block's invariants, what a fresh output promises, which fault a command ends with, what a host can drive the block to, and the real number a binary64 pattern stands for. -/

namespace Sys2Proof.Machine

/-- What 10 R26 says holds in every reachable state, and that the reserved ERR bits are 0 (10 R25). -/
structure Ccb.Inv (c : Ccb) : Prop where
  tfine_needs_inputs : Ccb.flag c .tfineValid = true → Ccb.flag c .calValid = true ∧ Ccb.flag c .rawValid = true
  temp_needs_tfine : Ccb.flag c .tempFresh = true → Ccb.flag c .tfineValid = true
  press_needs_tfine : Ccb.flag c .pressFresh = true → Ccb.flag c .tfineValid = true
  hum_needs_tfine : Ccb.flag c .humFresh = true → Ccb.flag c .tfineValid = true
  gas_needs_inputs : Ccb.flag c .gasFresh = true → Ccb.flag c .rawValid = true ∧ c.rseW = true
  no_cal_no_coef : Ccb.flag c .calValid = false → c.coef = Coef.reset
  no_raw_no_codes : Ccb.flag c .rawValid = false →
    c.adcT = 0 ∧ c.adcP = 0 ∧ c.adcH = 0 ∧ c.adcG = 0 ∧ c.gasRange = 0
  reserved_err_bits : ∀ n, 11 ≤ n → c.err.getLsbD n = false

/-- compT on the registers COMP_T reads (42 R60). -/
def temperatureOf (c : Ccb) : Int × Int :=
  compT c.adcT.toNat c.coef.t1.toNat c.coef.t2.toInt c.coef.t3.toInt c.tOffset.toInt

/-- What a valid T_FINE and a fresh output promise: the register holds the value of its function for
the calibration, the sample, the offset and the range switching error the block holds NOW
(10 R24, 70 R100). -/
structure Ccb.Truthful (c : Ccb) : Prop where
  tfine : Ccb.flag c .tfineValid = true → c.tFine.toInt = (temperatureOf c).1
  temp : Ccb.flag c .tempFresh = true → c.tempOut.toInt = (temperatureOf c).2
  press : Ccb.flag c .pressFresh = true → pressureOf c = .ok c.pressOut.toInt
  hum : Ccb.flag c .humFresh = true → humidityOf c = (c.humOut.toNat : Int)
  gas : Ccb.flag c .gasFresh = true → gasOf c = .ok c.gasOut

/-- The fault a sequence of commands ends with, if it ends with one (60 R81). -/
def faultOf : List Command → Ccb → Option Err
  | [], _ => none
  | f :: rest, c =>
    match f c with
    | .ok c' => faultOf rest c'
    | .error e => some e

/-- The block in another state that differs at most in T_OFFSET, TEMP_OUT and TEMP_FRESH. -/
def SameButOffset (c d : Ccb) : Prop :=
  d = { c with
    tOffset := d.tOffset
    tempOut := d.tempOut
    status := Status.put c.status .tempFresh (Ccb.flag d .tempFresh) }

/-- The states a host can drive the machine to: the host may put any inputs before the block at any
time (20 R37, 43 R77), starting from reset. -/
inductive Reachable : State → Prop where
  | reset : Reachable State.reset
  | host (s : State) (inputs : List Input) : Reachable s → Reachable { s with pending := inputs }
  | step (s t : State) : Reachable s → Machine.step s = .next t → Reachable t

/-- The state an outcome answers, or `s` where it answers none. -/
def nextOr (s : State) : Host.Outcome State Fault Refusal → State
  | .next t => t
  | .fault _ => s
  | .refused _ => s

/-- The real (rational) number a finite binary64 pattern stands for (30 R50); none for an infinity or a
NaN. -/
def Binary64.value (b : BitVec 64) : Option ℚ :=
  match Binary64.unpack b with
  | .fin neg sig exp => some ((if neg then -1 else 1) * (sig : ℚ) * (2 : ℚ) ^ exp)
  | .inf _ => none
  | .nan => none

/-- `r` is the binary64 nearest to the real number `x`, ties to even (00 R10): no finite pattern is
nearer, and one that is as near has the same value unless `r`'s last bit is 0. -/
def Binary64.IsNearest (x : ℚ) (r : BitVec 64) : Prop :=
  ∃ v, Binary64.value r = some v ∧
    ∀ b w, Binary64.value b = some w →
      |v - x| ≤ |w - x| ∧ (|v - x| = |w - x| → w ≠ v → r.getLsbD 0 = false)

end Sys2Proof.Machine
end

