-- ==== Sys2Proof/Certificates/Slice0/Obligations.lean ====
section
/-! DEFINITION. The statements about the model, each after the rules of spec/ it formalises. Masks and addresses are written as the numbers of the spec's tables, so that each statement can be held beside its rule. -/

open Sys2Proof Sys2Proof.Machine

/-! ## Words -/

/-- 30 R43: the command map, by an exact match of all eight bits; every other code selects nothing. -/
def Obligations.CommandMapIsExact : Prop :=
  ∀ d : Byte, decodeCommand d =
    if d = 0x00 then some .nop
    else if d = 0x01 then some .calLoad
    else if d = 0x02 then some .unpack
    else if d = 0x03 then some .compT
    else if d = 0x04 then some .compP
    else if d = 0x05 then some .compH
    else if d = 0x06 then some .compG
    else if d = 0x07 then some .compAll
    else if d = 0x08 then some .clrStatus
    else if d = 0x0F then some .srst
    else none

/-- Words of 95 L2.9, L3 and of the opcode table decode to the instructions they stand for. -/
def Obligations.SpecWordsDecode : Prop :=
  decode 0x13A6A = .ok (.wr 0x3A 0x6A) ∧ decode 0x03C00 = .ok (.rd 0x3C) ∧ decode 0x12B20 = .ok (.wr 0x2B 0x20) ∧
  decode 0x13C00 = .ok .nop ∧ decode 0x13C01 = .ok .calLoad ∧ decode 0x13C02 = .ok .unpack ∧
  decode 0x13C03 = .ok .compT ∧ decode 0x13C04 = .ok .compP ∧ decode 0x13C05 = .ok .compH ∧
  decode 0x13C06 = .ok .compG ∧ decode 0x13C07 = .ok .compAll ∧ decode 0x13C08 = .ok .clrStatus ∧
  decode 0x13C0F = .ok .srst ∧ decode 0x13C09 = .ok (.wr 0x3C 0x09) ∧
  decode 0x03C01 = .error .readWithData ∧ decode 0x20000 = .error .tooWide

/-- 30 R41, whole: `1:A:D` acts as the write of D at A, `0:A:0x00` is the read at A, a read word with
data is refused, and so is a value of 2^17 or more. -/
def Obligations.TransactionWordFormat : Prop :=
  (∀ (a : Addr) (d : Byte), ∃ i, decode (0x10000 + 0x100 * a.toNat + d.toNat) = .ok i ∧
    ∀ s, exec i s = exec (.wr a d) s) ∧
  (∀ a : Addr, decode (0x100 * a.toNat) = .ok (.rd a)) ∧
  (∀ w, w < 0x10000 → w % 0x100 ≠ 0 → decode w = .error .readWithData) ∧
  (∀ w, 2 ^ 17 ≤ w → decode w = .error .tooWide)

/-- Decoding an encoded well-formed instruction gives it back, every operand at every value. -/
def Obligations.DecodeOfEncodeIsTheInstruction : Prop :=
  ∀ i : Instr, i.wellFormed = true → decode (encode i).toNat = .ok i

/-- A word the decoder accepts is the word of the instruction it reads, and that instruction is well
formed: each transaction has one word. -/
def Obligations.EncodeOfDecodeIsTheWord : Prop :=
  ∀ (w : Nat) (i : Instr), decode w = .ok i → i.wellFormed = true ∧ (encode i).toNat = w

/-- 30 R52 and 70 R97: `WR16 T_OFFSET, v` is two bus words; run one after the other, they leave
zext_16(v) in T_OFFSET, and between them it holds the new low byte with the old high byte. -/
def Obligations.Wr16SetsTheOffsetInTwoSteps : Prop :=
  ∀ (v : Int) (s : State), ∃ (w1 w2 : BusWord) (i1 i2 : Instr) (t1 t2 : State),
    Assembler.wr16 0x3A v = some [w1, w2] ∧
    decode w1.toNat = .ok i1 ∧ decode w2.toNat = .ok i2 ∧
    exec i1 s = .next t1 ∧ exec i2 t1 = .next t2 ∧
    (t1.ccb.tOffset.toNat : Int) = s.ccb.tOffset.toNat / 256 * 256 + v % 256 ∧
    (t2.ccb.tOffset.toNat : Int) = v % 65536 ∧
    Ccb.flag t1.ccb .tempFresh = false ∧ Ccb.flag t2.ccb .tempFresh = false

/-! ## Steps -/

/-- 00 R5: when the host's next input is a word that decodes to an instruction, the step is that
instruction on the state with the word taken; so is the step after `withFetchWord`. The queue is the
model's (log entry 1). -/
def Obligations.StepRunsTheDecodedInstruction : Prop :=
  (∀ (s : State) (w : Nat) (rest : List Input) (i : Instr),
    s.pending = .word w :: rest → decode w = .ok i → step s = exec i { s with pending := rest }) ∧
  (∀ (s : State) (nbits w : Nat) (i : Instr),
    decodeTableWord nbits w = some i → step (s.withFetchWord nbits w) = exec i s)

/-- 93 U18, U19: a step refuses a word that is no transaction, by name. With no input from the host the
step leaves the state (the model's choice, log entry 3). -/
def Obligations.StepRefusesBadWordsAndWaits : Prop :=
  (∀ (s : State) (w : Nat) (rest : List Input) (why : BadWord),
    s.pending = .word w :: rest → decode w = .error why → step s = .refused (.notATransaction why)) ∧
  (∀ s : State, s.pending = [] → step s = .next s)

/-- Every transaction and every command answers a next state, in every state; what the host has still
to deliver is not touched, and only a read returns a byte to the host. The two lists are the model's
(log entries 1 and 2). -/
def Obligations.EveryInstructionCompletes : Prop :=
  ∀ (i : Instr) (s : State), ∃ t, exec i s = .next t ∧ t.pending = s.pending ∧
    ((∀ a, i ≠ .rd a) → t.returned = s.returned)

/-! ## Reset -/

/-- 70 R92: power-on reset and SRST both put every element to its reset value; the state right after
reset has them too. With a power-on reset as the next input a step completes, with the block reset and
that input taken. That a power-on reset is an input of the list `pending`, and leaves the host's two
lists otherwise, is the model's choice (log entries 1, 2 and 11). -/
def Obligations.ResetStateIsAllZero : Prop :=
  (∀ (s : State) (rest : List Input), s.pending = .powerOn :: rest →
    step s = .next { s with ccb := State.reset.ccb, pending := rest }) ∧
  ∀ c : Ccb,
    (c = State.reset.ccb ∨
      (∃ s t, exec .srst s = .next t ∧ t.ccb = c) ∨
      (∃ s t rest, s.pending = .powerOn :: rest ∧ step s = .next t ∧ t.ccb = c)) →
    (∀ i : Fin 41, c.calbuf[i] = 0x00) ∧ (∀ i : Fin 10, c.rawbuf[i] = 0x00) ∧
    c.heatRangeRaw = 0x00 ∧ c.heatValRaw = 0x00 ∧ c.rseRaw = 0x00 ∧ c.tOffset = 0 ∧
    c.rseW = false ∧ c.calWMask = 0 ∧ c.rawWMask = 0 ∧
    c.coef = ⟨0, 0, 0, 0, 0, 0, 0, 0, 0, 0, 0, 0, 0, 0, 0, 0, 0, 0, 0, 0, 0, 0, 0⟩ ∧
    c.adcT = 0 ∧ c.adcP = 0 ∧ c.adcH = 0 ∧ c.adcG = 0 ∧ c.gasRange = 0 ∧
    c.tFine = 0 ∧ c.tempOut = 0 ∧ c.pressOut = 0 ∧ c.humOut = 0 ∧ c.gasOut = 0x0000000000000000 ∧
    c.status = 0x00 ∧ c.err = 0x0000 ∧
    roValue c .resHeatRange = 0 ∧ roValue c .resHeatVal = 0 ∧ roValue c .rangeSwErr = 0

/-- 70 R93: after reset, every compensation command faults with the fault the rule names, and every RD
and WR is legal. -/
def Obligations.CommandsFaultAfterReset : Prop :=
  ∀ s : State, s.ccb = State.reset.ccb →
    (∀ i ∈ [Instr.compT, .compP, .compH],
      exec i s = .next { s with ccb := { s.ccb with err := 0x0004, status := 0x80 } }) ∧
    exec .compG s = .next { s with ccb := { s.ccb with err := 0x0010, status := 0x80 } } ∧
    (∀ i ∈ [Instr.unpack, .compAll],
      exec i s = .next { s with ccb := { s.ccb with err := 0x0008, status := 0x80 } }) ∧
    exec .calLoad s = .next { s with ccb := { s.ccb with err := 0x0002, status := 0x80 } } ∧
    (∀ a, ∃ t, exec (.rd a) s = .next t) ∧ (∀ a d, ∃ t, exec (.wr a d) s = .next t)

/-- 43 R74: SRST completes with the block in the reset state. That the host's two lists, what it has
still to deliver and what it has received, stay over SRST is the model's choice (log entries 1 and 2). -/
def Obligations.SrstResetsTheBlock : Prop :=
  ∀ s : State, exec .srst s = .next { s with ccb := State.reset.ccb }

/-! ## The bus -/

/-- 20 R33, whole, and completion of WR: the next state of a write at every address, for every data
byte. At 0x3C the command runs (30 R43; its effect is the commands' own statements). -/
def Obligations.WriteFollowsTheMap : Prop :=
  ∀ (a : Addr) (d : Byte) (s : State), ∃ c : Ccb, exec (.wr a d) s = .next { s with ccb := c } ∧
    c = if a.toNat ≤ 0x28 then
          { s.ccb with
            calbuf := s.ccb.calbuf.setIfInBounds a.toNat d
            calWMask := s.ccb.calWMask ||| BitVec.ofNat 41 (2 ^ a.toNat) }
        else if a.toNat = 0x29 then { s.ccb with heatRangeRaw := d }
        else if a.toNat = 0x2A then { s.ccb with heatValRaw := d }
        else if a.toNat = 0x2B then
          { s.ccb with rseRaw := d, rseW := true, status := s.ccb.status &&& 0xBF }
        else if 0x30 ≤ a.toNat ∧ a.toNat ≤ 0x39 then
          { s.ccb with
            rawbuf := s.ccb.rawbuf.setIfInBounds (a.toNat - 0x30) d
            rawWMask := s.ccb.rawWMask ||| BitVec.ofNat 10 (2 ^ (a.toNat - 0x30)) }
        else if a.toNat = 0x3A then
          { s.ccb with
            tOffset := BitVec.ofNat 16 (s.ccb.tOffset.toNat / 256 * 256 + d.toNat)
            status := s.ccb.status &&& 0xF7 }
        else if a.toNat = 0x3B then
          { s.ccb with
            tOffset := BitVec.ofNat 16 (d.toNat * 256 + s.ccb.tOffset.toNat % 256)
            status := s.ccb.status &&& 0xF7 }
        else if a.toNat = 0x3C then executeCommand d s.ccb
        else { s.ccb with err := s.ccb.err ||| 0x0400 }

/-- 10 R20 and 30 R43: a write to CMD of a command's code is that command. -/
def Obligations.WriteToCmdRunsTheCommand : Prop :=
  ∀ (d : Byte) (i : Instr) (s : State), decodeCommand d = some i → exec (.wr 0x3C d) s = exec i s

/-- 30 R44: a reserved code sets E_ILLEGAL_CMD and LAST_FAULT and changes nothing else. -/
def Obligations.ReservedCommandCodesFault : Prop :=
  ∀ (d : Byte) (s : State), (0x09 ≤ d.toNat ∧ d.toNat ≤ 0x0E) ∨ 0x10 ≤ d.toNat →
    exec (.wr 0x3C d) s =
      .next { s with ccb := { s.ccb with err := s.ccb.err ||| 0x0001, status := s.ccb.status ||| 0x80 } }

/-- 20 R34: a write to STATUS, ERR, an output, an ADC register or a coefficient readback is ignored and
sets E_BUS; LAST_FAULT and every register stay. -/
def Obligations.ReadOnlyWritesAreIgnored : Prop :=
  ∀ (a : Addr) (d : Byte) (s : State),
    (0x3D ≤ a.toNat ∧ a.toNat ≤ 0x64) ∨ (0x80 ≤ a.toNat ∧ a.toNat ≤ 0xB3) →
    exec (.wr a d) s = .next { s with ccb := { s.ccb with err := s.ccb.err ||| 0x0400 } }

/-- 20 R30 and completion of RD: the byte read at every address goes to the host, and no state of the
block changes but ERR.E_BUS at a reserved address. The list that records what the host receives is the
model's (log entry 2). -/
def Obligations.ReadFollowsTheMap : Prop :=
  ∀ (a : Addr) (s : State), ∃ v : Byte,
    exec (.rd a) s = .next { s with
      returned := s.returned ++ [v]
      ccb := if (0x2C ≤ a.toNat ∧ a.toNat ≤ 0x2F) ∨ (0x65 ≤ a.toNat ∧ a.toNat ≤ 0x7F) ∨ 0xB4 ≤ a.toNat then
          { s.ccb with err := s.ccb.err ||| 0x0400 }
        else s.ccb } ∧
    (∀ i : Fin 41, a.toNat = i → v = s.ccb.calbuf[i]) ∧
    (a.toNat = 0x29 → v = s.ccb.heatRangeRaw) ∧
    (a.toNat = 0x2A → v = s.ccb.heatValRaw) ∧
    (a.toNat = 0x2B → v = s.ccb.rseRaw) ∧
    (∀ i : Fin 10, a.toNat = 0x30 + i → v = s.ccb.rawbuf[i]) ∧
    (a.toNat = 0x3A → v.toNat = s.ccb.tOffset.toNat % 256) ∧
    (a.toNat = 0x3B → v.toNat = s.ccb.tOffset.toNat / 256) ∧
    (a.toNat = 0x3C → v = 0x00) ∧
    (∀ row ∈ roRows, ∀ k < row.width, a.toNat = row.base + k →
      (v.toNat : Int) = roValue s.ccb row.reg % 2 ^ (8 * row.width) / 2 ^ (8 * k) % 256) ∧
    ((0x2C ≤ a.toNat ∧ a.toNat ≤ 0x2F) ∨ (0x65 ≤ a.toNat ∧ a.toNat ≤ 0x7F) ∨ 0xB4 ≤ a.toNat → v = 0x00)

/-- 20 R29: the read-only rows do not overlap and fill 0x3D-0x64 and 0x80-0xB3 exactly, so every address
is an input byte, CMD, one byte of one read-only register, or reserved. -/
def Obligations.AddressMapHasNoOverlap : Prop :=
  ∀ a < 256, (roRows.filter (fun r => r.covers a)).length =
    if (0x3D ≤ a ∧ a ≤ 0x64) ∨ (0x80 ≤ a ∧ a ≤ 0xB3) then 1 else 0

/-- 20 R31: every multi-byte control, output and raw-code register and T_OFFSET reads back with bits 7:0
at its lowest address; STATUS, of one byte, reads back whole at 0x3D (20 R29, R30). -/
def Obligations.MultiByteRegistersAreLittleEndian : Prop :=
  ∀ c : Ccb,
    readByte 0x3D c = c.status ∧
    readByte 0x3B c ++ readByte 0x3A c = c.tOffset ∧
    readByte 0x3F c ++ readByte 0x3E c = c.err ∧
    readByte 0x43 c ++ readByte 0x42 c ++ readByte 0x41 c ++ readByte 0x40 c = c.tFine ∧
    readByte 0x47 c ++ readByte 0x46 c ++ readByte 0x45 c ++ readByte 0x44 c = c.tempOut ∧
    readByte 0x4B c ++ readByte 0x4A c ++ readByte 0x49 c ++ readByte 0x48 c = c.pressOut ∧
    readByte 0x4F c ++ readByte 0x4E c ++ readByte 0x4D c ++ readByte 0x4C c = c.humOut ∧
    readByte 0x57 c ++ readByte 0x56 c ++ readByte 0x55 c ++ readByte 0x54 c ++
      readByte 0x53 c ++ readByte 0x52 c ++ readByte 0x51 c ++ readByte 0x50 c = c.gasOut ∧
    readByte 0x5B c ++ readByte 0x5A c ++ readByte 0x59 c ++ readByte 0x58 c = c.adcT.setWidth 32 ∧
    readByte 0x5F c ++ readByte 0x5E c ++ readByte 0x5D c ++ readByte 0x5C c = c.adcP.setWidth 32 ∧
    readByte 0x61 c ++ readByte 0x60 c = c.adcH ∧
    readByte 0x63 c ++ readByte 0x62 c = c.adcG.setWidth 16 ∧
    readByte 0x64 c = c.gasRange.setWidth 8

/-- 10 R21 and 30 R48: every coefficient and live view reads back as the 16-bit little-endian
two's-complement image of its value, at the address the rule's tables give it. -/
def Obligations.CoefficientsReadBackAsImages : Prop :=
  ∀ c : Ccb,
    (∀ p ∈ [(0x80, c.coef.t1), (0x82, c.coef.t2), (0x84, c.coef.t3.signExtend 16), (0x86, c.coef.p1),
        (0x88, c.coef.p2), (0x8A, c.coef.p3.signExtend 16), (0x8C, c.coef.p4), (0x8E, c.coef.p5),
        (0x90, c.coef.p6.signExtend 16), (0x92, c.coef.p7.signExtend 16), (0x94, c.coef.p8),
        (0x96, c.coef.p9), (0x98, c.coef.p10.setWidth 16), (0x9A, c.coef.h1.setWidth 16),
        (0x9C, c.coef.h2.setWidth 16), (0x9E, c.coef.h3.signExtend 16), (0xA0, c.coef.h4.signExtend 16),
        (0xA2, c.coef.h5.signExtend 16), (0xA4, c.coef.h6.setWidth 16), (0xA6, c.coef.h7.signExtend 16),
        (0xA8, c.coef.gh1.signExtend 16), (0xAA, c.coef.gh2), (0xAC, c.coef.gh3.signExtend 16),
        (0xAE, (c.heatRangeRaw.extractLsb' 4 2).setWidth 16), (0xB0, c.heatValRaw.signExtend 16),
        (0xB2, if Config.rseSigned then (c.rseRaw.extractLsb' 4 4).signExtend 16
          else (c.rseRaw.extractLsb' 4 4).setWidth 16)],
      readByte (p.1 + 1) c ++ readByte p.1 c = p.2)

/-- A write to an input byte is read back, and every other byte of the register space reads as before,
but for STATUS and, for the three extra calibration bytes, the live view of the byte written. -/
def Obligations.InputWriteIsReadBackAndNothingElseMoves : Prop :=
  ∀ (a : Addr) (d : Byte) (s t : State), a.toNat ≤ 0x2B ∨ (0x30 ≤ a.toNat ∧ a.toNat ≤ 0x3B) →
    exec (.wr a d) s = .next t →
    readByte a t.ccb = d ∧
    ∀ b : Addr, b ≠ a → b ≠ 0x3D → (a = 0x29 → b ≠ 0xAE ∧ b ≠ 0xAF) → (a = 0x2A → b ≠ 0xB0 ∧ b ≠ 0xB1) →
      (a = 0x2B → b ≠ 0xB2 ∧ b ≠ 0xB3) → readByte b t.ccb = readByte b s.ccb

/-- 20 R36: a write is idempotent except at CMD, and a read is, with its byte, except that the host
receives it again; a repeated CAL_LOAD or UNPACK faults. That a read appends its byte to the list
`returned` is the model's choice (log entry 2). -/
def Obligations.RepeatedTransactions : Prop :=
  (∀ (a : Addr) (d : Byte) (s t : State), a ≠ 0x3C → exec (.wr a d) s = .next t → exec (.wr a d) t = .next t) ∧
  (∀ (a : Addr) (s t : State), exec (.rd a) s = .next t →
    exec (.rd a) t = .next { t with returned := t.returned ++ [readByte a s.ccb] }) ∧
  (∀ s t : State, exec .calLoad s = .next t → exec .calLoad t =
    .next { t with ccb := { t.ccb with err := t.ccb.err ||| 0x0002, status := t.ccb.status ||| 0x80 } }) ∧
  (∀ s t : State, exec .unpack s = .next t → exec .unpack t =
    .next { t with ccb := { t.ccb with err := t.ccb.err ||| 0x0008, status := t.ccb.status ||| 0x80 } })

/-- 70 R96 without a CMD write in between: the four reads of T_FINE as four steps return the four bytes
of one value, and the block is as it was. The lists the words come from and the bytes go to are the
model's choice (log entries 1 and 2). -/
def Obligations.FourReadsReturnOneFineTemperature : Prop :=
  ∀ (s : State) (rest : List Input),
    s.pending = .word 0x04000 :: .word 0x04100 :: .word 0x04200 :: .word 0x04300 :: rest →
    ∃ (b0 b1 b2 b3 : Byte) (t1 t2 t3 : State),
      step s = .next t1 ∧ step t1 = .next t2 ∧ step t2 = .next t3 ∧
      step t3 = .next { s with pending := rest, returned := s.returned ++ [b0, b1, b2, b3] } ∧
      (b3 ++ b2 ++ b1 ++ b0 : BitVec 32) = s.ccb.tFine

/-! ## Calibration parser -/

/-- 40 R54: with every CALBUF byte written, CAL_LOAD parses the 23 fields, consumes the mask and sets the
flags; else it faults with E_CAL_PARTIAL. The next state is given in full, so nothing else changes. -/
def Obligations.CalLoadParsesTheBuffer : Prop :=
  ∀ s : State,
    (s.ccb.calWMask = BitVec.allOnes 41 → ∃ k : Coef,
      exec .calLoad s = .next { s with ccb := { s.ccb with
        coef := k, calWMask := 0, status := (s.ccb.status ||| 0x01) &&& 0x43 } } ∧
      let b : Nat → Int := fun i => ((s.ccb.calbuf[i]?.getD 0).toNat : Int)
      let u16 : Nat → Nat → Int := fun lo hi => b lo + 256 * b hi
      (k.t1.toNat : Int) = u16 33 34 ∧ k.t2.toInt = (u16 1 2).bmod 65536 ∧ k.t3.toInt = (b 3).bmod 256 ∧
      (k.p1.toNat : Int) = u16 5 6 ∧ k.p2.toInt = (u16 7 8).bmod 65536 ∧ k.p3.toInt = (b 9).bmod 256 ∧
      k.p4.toInt = (u16 11 12).bmod 65536 ∧ k.p5.toInt = (u16 13 14).bmod 65536 ∧
      k.p6.toInt = (b 16).bmod 256 ∧ k.p7.toInt = (b 15).bmod 256 ∧ k.p8.toInt = (u16 19 20).bmod 65536 ∧
      k.p9.toInt = (u16 21 22).bmod 65536 ∧ (k.p10.toNat : Int) = b 23 ∧
      (k.h1.toNat : Int) = b 27 * 16 + b 26 % 16 ∧ (k.h2.toNat : Int) = b 25 * 16 + b 26 / 16 ∧
      k.h3.toInt = (b 28).bmod 256 ∧ k.h4.toInt = (b 29).bmod 256 ∧ k.h5.toInt = (b 30).bmod 256 ∧
      (k.h6.toNat : Int) = b 31 ∧ k.h7.toInt = (b 32).bmod 256 ∧ k.gh1.toInt = (b 37).bmod 256 ∧
      k.gh2.toInt = (u16 35 36).bmod 65536 ∧ k.gh3.toInt = (b 38).bmod 256) ∧
    (s.ccb.calWMask ≠ BitVec.allOnes 41 →
      exec .calLoad s = .next { s with ccb := { s.ccb with
        err := s.ccb.err ||| 0x0002, status := s.ccb.status ||| 0x80 } })

/-- 40 R56: the parse is a bijection between the 33 used bytes and the 23 fields. -/
def Obligations.CalibrationParseIsABijection : Prop :=
  (∀ (b : Vector Byte 41) (i : Fin 41), unusedIndex i = false →
    (unparseCalibration (parseCalibration b))[i] = b[i]) ∧
  (∀ k : Coef, parseCalibration (unparseCalibration k) = k)

/-- 30 R47: the unused bytes affect no field: buffers that agree at the used indices give the same
fields. They must still be written, since CAL_LOAD wants all 41 mask bits. -/
def Obligations.UnusedCalibrationBytesAreIgnored : Prop :=
  ∀ b b' : Vector Byte 41,
    (∀ i : Fin 41, i.val ∉ [0, 4, 10, 17, 18, 24, 39, 40] → b[i] = b'[i]) →
    parseCalibration b = parseCalibration b'

/-- 40 R55: the 23 fields change only by CAL_LOAD or reset, whatever the host does. -/
def Obligations.CoefficientsChangeOnlyByCalLoadOrReset : Prop :=
  ∀ (i : Instr) (s t : State), exec i s = .next t → t.ccb.coef ≠ s.ccb.coef →
    (i = .calLoad ∨ i = .wr 0x3C 0x01) ∧ s.ccb.calWMask = BitVec.allOnes 41 ∨ i = .srst ∨ i = .wr 0x3C 0x0F

/-! ## Raw sample -/

/-- 41 R57: with every RAWBUF byte written, UNPACK takes the five codes, consumes the mask and sets the
flags; else it faults with E_RAW_PARTIAL. The next state is given in full. -/
def Obligations.UnpackTakesTheSample : Prop :=
  ∀ s : State,
    (s.ccb.rawWMask = BitVec.allOnes 10 →
      ∃ (t p : BitVec 20) (h : BitVec 16) (g : BitVec 10) (r : BitVec 4),
      exec .unpack s = .next { s with ccb := { s.ccb with
        adcT := t, adcP := p, adcH := h, adcG := g, gasRange := r, rawWMask := 0
        status := (s.ccb.status ||| 0x02) &&& 0x03 } } ∧
      let b : Nat → Nat := fun i => (s.ccb.rawbuf[i]?.getD 0).toNat
      t.toNat = (b 0 * 2 ^ 16 + b 1 * 2 ^ 8 + b 2) / 2 ^ 4 ∧
      p.toNat = (b 3 * 2 ^ 16 + b 4 * 2 ^ 8 + b 5) / 2 ^ 4 ∧
      h.toNat = b 6 * 2 ^ 8 + b 7 ∧ g.toNat = b 8 * 2 ^ 2 + b 9 / 2 ^ 6 ∧ r.toNat = b 9 % 2 ^ 4) ∧
    (s.ccb.rawWMask ≠ BitVec.allOnes 10 →
      exec .unpack s = .next { s with ccb := { s.ccb with
        err := s.ccb.err ||| 0x0008, status := s.ccb.status ||| 0x80 } })

/-- 10 R22: the ADC registers are written only by a successful UNPACK (its own or COMP_ALL's) or reset. -/
def Obligations.RawCodesChangeOnlyByUnpackOrReset : Prop :=
  ∀ (i : Instr) (s t : State), exec i s = .next t →
    (t.ccb.adcT, t.ccb.adcP, t.ccb.adcH, t.ccb.adcG, t.ccb.gasRange) ≠
      (s.ccb.adcT, s.ccb.adcP, s.ccb.adcH, s.ccb.adcG, s.ccb.gasRange) →
    i ∈ [Instr.unpack, .compAll, .wr 0x3C 0x02, .wr 0x3C 0x07] ∧ s.ccb.rawWMask = BitVec.allOnes 10 ∨
      i = .srst ∨ i = .wr 0x3C 0x0F

/-- 41 R58 and 43 R72: with no new sample, UNPACK and COMP_ALL leave everything but the two fault bits,
so the previous reading is served unchanged. -/
def Obligations.NoNewSampleLeavesTheReading : Prop :=
  ∀ (s : State), s.ccb.rawWMask ≠ BitVec.allOnes 10 → ∀ i ∈ [Instr.unpack, .compAll],
    exec i s = .next { s with ccb := { s.ccb with
      err := s.ccb.err ||| 0x0008, status := s.ccb.status ||| 0x80 } }

/-! ## Compensation -/

/-- 42 R60 with the function of 42 R59: COMP_T's faults in their order, and on success the exact
T_FINE and TEMP_OUT, which always fit their registers. The next states are given in full. -/
def Obligations.CompTComputesTheTemperature : Prop :=
  ∀ s : State,
    (Ccb.flag s.ccb .calValid = false →
      exec .compT s = .next { s with ccb := { s.ccb with
        err := s.ccb.err ||| 0x0004, status := s.ccb.status ||| 0x80 } }) ∧
    (Ccb.flag s.ccb .calValid = true → Ccb.flag s.ccb .rawValid = false →
      exec .compT s = .next { s with ccb := { s.ccb with
        err := s.ccb.err ||| 0x0010, status := s.ccb.status ||| 0x80 } }) ∧
    (Ccb.flag s.ccb .calValid = true → Ccb.flag s.ccb .rawValid = true → ∃ tf tout : BitVec 32,
      exec .compT s = .next { s with ccb := { s.ccb with
        tFine := tf, tempOut := tout, status := (s.ccb.status ||| 0x0C) &&& 0x7F } } ∧
      let adcT : Int := s.ccb.adcT.toNat
      let t1 : Int := s.ccb.coef.t1.toNat
      let t2 : Int := s.ccb.coef.t2.toInt
      let t3 : Int := s.ccb.coef.t3.toInt
      let var1 := adcT / 2 ^ 3 - t1 * 2 ^ 1
      let var2 := var1 * t2 / 2 ^ 11
      let var3 := var1 / 2 ^ 1 * (var1 / 2 ^ 1) / 2 ^ 12
      let var3' := var3 * (t3 * 2 ^ 4) / 2 ^ 14
      tf.toInt = var2 + var3' ∧ tout.toInt = (tf.toInt * 5 + 128) / 2 ^ 8 + s.ccb.tOffset.toInt)

/-- 42 R69, the temperature rows: over every input the block can hold, the chain's bounds. -/
def Obligations.TemperatureChainBounds : Prop :=
  ∀ (adcT : BitVec 20) (t1 t2 : BitVec 16) (t3 : BitVec 8) (off : BitVec 16),
    let var1 : Int := asr adcT.toNat 3 - shl t1.toNat 1
    |var1 * t2.toInt| ≤ 4294934528 ∧
    |asr var1 1 * asr var1 1| ≤ 4294836225 ∧
    |(compT adcT.toNat t1.toNat t2.toInt t3.toInt off.toInt).1| ≤ 2228204 ∧
    |(compT adcT.toNat t1.toNat t2.toInt t3.toInt off.toInt).2| ≤ 76288

/-- 42 R70 (a): `tc` is non-decreasing in `t_fine`; and the raw-code form fails for some calibrations. -/
def Obligations.TemperatureIsMonotoneInFineTemperatureOnly : Prop :=
  (∀ x y : Int, x ≤ y → centiDegrees x ≤ centiDegrees y) ∧
  (compT 510000 26000 (-26500) 3 0).2 < (compT 500000 26000 (-26500) 3 0).2 ∧
  (compT 384 26000 100 127 0).2 < (compT 383 26000 100 127 0).2

/-- 10 R19: T_OFFSET never reaches T_FINE, pressure, humidity or gas. Two blocks that differ at most in
T_OFFSET, TEMP_OUT and TEMP_FRESH still differ in no more after any one instruction. -/
def Obligations.TheOffsetReachesOnlyTempOut : Prop :=
  ∀ (i : Instr) (s s' t t' : State), SameButOffset s.ccb s'.ccb →
    exec i s = .next t → exec i s' = .next t' → SameButOffset t.ccb t'.ccb

/-- 42 R63 with the function of 42 R61: COMP_P's faults in their order, and on success the exact
pressure. The next states are given in full. -/
def Obligations.CompPComputesThePressure : Prop :=
  ∀ s : State,
    let fault : ErrReg → State := fun bit =>
      { s with ccb := { s.ccb with err := s.ccb.err ||| bit, status := s.ccb.status ||| 0x80 } }
    let k := s.ccb.coef
    let p1 : Int := k.p1.toNat
    let p10 : Int := k.p10.toNat
    let a0 := s.ccb.tFine.toInt / 2 ^ 1 - 64000
    let b0 := a0 / 2 ^ 2 * (a0 / 2 ^ 2) / 2 ^ 11 * k.p6.toInt / 2 ^ 2
    let b1 := b0 + a0 * k.p5.toInt * 2 ^ 1
    let b2 := b1 / 2 ^ 2 + k.p4.toInt * 2 ^ 16
    let a1 := a0 / 2 ^ 2 * (a0 / 2 ^ 2) / 2 ^ 13 * (k.p3.toInt * 2 ^ 5) / 2 ^ 3 + k.p2.toInt * a0 / 2 ^ 1
    let a2 := a1 / 2 ^ 18
    let var1 := (32768 + a2) * p1 / 2 ^ 15
    let pc := (1048576 - (s.ccb.adcP.toNat : Int) - b2 / 2 ^ 12) * 3125
    let q := if pc ≥ 2 ^ 31 then Int.tdiv pc var1 * 2 ^ 1 else Int.tdiv (pc * 2 ^ 1) var1
    let v1 := k.p9.toInt * (q / 2 ^ 3 * (q / 2 ^ 3) / 2 ^ 13) / 2 ^ 12
    let v2 := q / 2 ^ 2 * k.p8.toInt / 2 ^ 13
    let v3 := q / 2 ^ 8 * (q / 2 ^ 8) * (q / 2 ^ 8) * p10 / 2 ^ 17
    let p := q + (v1 + v2 + v3 + k.p7.toInt * 2 ^ 7) / 2 ^ 4
    (Ccb.flag s.ccb .calValid = false → exec .compP s = .next (fault 0x0004)) ∧
    (Ccb.flag s.ccb .calValid = true → Ccb.flag s.ccb .rawValid = false → exec .compP s = .next (fault 0x0010)) ∧
    (Ccb.flag s.ccb .calValid = true → Ccb.flag s.ccb .rawValid = true → Ccb.flag s.ccb .tfineValid = false →
      exec .compP s = .next (fault 0x0020)) ∧
    (Ccb.flag s.ccb .calValid = true → Ccb.flag s.ccb .rawValid = true → Ccb.flag s.ccb .tfineValid = true →
      (var1 = 0 → exec .compP s = .next (fault 0x0040)) ∧
      (var1 ≠ 0 → ¬(-2 ^ 31 ≤ p ∧ p ≤ 2 ^ 31 - 1) → exec .compP s = .next (fault 0x0080)) ∧
      (var1 ≠ 0 → -2 ^ 31 ≤ p → p ≤ 2 ^ 31 - 1 → ∃ out : BitVec 32,
        exec .compP s = .next { s with ccb := { s.ccb with
          pressOut := out, status := (s.ccb.status ||| 0x10) &&& 0x7F } } ∧ out.toInt = p))

/-- 42 R62: the dividend is a multiple of 3125 and never 2^31, so `>` and `>=` select the same branch;
the two branches' quotients differ by 0 or 1 in magnitude. -/
def Obligations.PressureBranchesDifferByAtMostOne : Prop :=
  (∀ tFine adcP p4 p5 p6 : Int,
    let pc := pressDividend tFine adcP p4 p5 p6
    (3125 : Int) ∣ pc ∧ pc ≠ Config.pOvfThreshold ∧ (pc > Config.pOvfThreshold ↔ pc ≥ Config.pOvfThreshold)) ∧
  Config.pOvfThreshold = 2 ^ 31 ∧
  (∀ pc var1 : Int, var1 ≠ 0 →
    let branchA := 2 * Int.tdiv pc var1
    let branchB := Int.tdiv (2 * pc) var1
    pressQuotient Config.pOvfThreshold pc var1 = (if pc ≥ 2 ^ 31 then branchA else branchB) ∧
    (|branchB| = |branchA| ∨ |branchB| = |branchA| + 1))

/-- 42 R69, the pressure and humidity rows: over every calibration byte pattern, every raw code and
every fine temperature COMP_T can give, the chains' bounds. The divisor of compP is not 0 where the
division happens. -/
def Obligations.PressureAndHumidityChainBounds : Prop :=
  ∀ (k : Coef) (adcT adcP : BitVec 20) (adcH : BitVec 16),
    let tFine := fineTemp adcT.toNat k.t1.toNat k.t2.toInt k.t3.toInt
    let a0 := asr tFine 1 - 64000
    let var2 := asr (asr (asr (asr a0 2 * asr a0 2) 11 * k.p6.toInt) 2 + shl (a0 * k.p5.toInt) 1) 2 +
      shl k.p4.toInt 16
    let pc := pressDividend tFine adcP.toNat k.p4.toInt k.p5.toInt k.p6.toInt
    let divisor := pressDivisor tFine k.p1.toNat k.p2.toInt k.p3.toInt
    let q := pressQuotient Config.pOvfThreshold pc divisor
    let ts := centiDegrees tFine
    let var1 : Int := (adcH.toNat - k.h1.toNat * 16) - asr (tdiv (ts * k.h3.toInt) 100) 1
    let var2' := asr (k.h2.toNat * (tdiv (ts * k.h4.toInt) 100 +
      tdiv (asr (ts * tdiv (ts * k.h5.toInt) 100) 6) 100 + 16384)) 10
    let var3 := var1 * var2'
    let var4 := asr (shl k.h6.toNat 7 + tdiv (ts * k.h7.toInt) 100) 4
    let var5 := asr (asr var3 14 * asr var3 14) 10
    |asr a0 2 * asr a0 2| ≤ 86745564676 ∧
    |var2| ≤ 21787767621 ∧
    |pc| ≤ 19899550000 ∧
    (divisor ≠ 0 →
      |q| ≤ 39799100000 ∧
      |k.p9.toInt * asr (asr q 3 * asr q 3) 13| ≤ 98998022550624993280 ∧
      |asr q 8 * asr q 8 * asr q 8 * k.p10.toNat| ≤ 958164427697635426972483125 ∧
      |pressCorrected q k.p7.toInt k.p8.toInt k.p9.toInt k.p10.toNat| ≤ 456889913426894359073) ∧
    |var3| ≤ 168293469266 ∧
    |var4 * var5| ≤ 568869201935297 ∧
    |humidityUnclamped tFine adcH.toNat k.h1.toNat k.h2.toNat k.h3.toInt k.h4.toInt k.h5.toInt k.h6.toNat
      k.h7.toInt| ≤ 69483128524

/-- 42 R65 with the function of 42 R64: COMP_H's faults in their order, and on success the exact
humidity. The next states are given in full. -/
def Obligations.CompHComputesTheHumidity : Prop :=
  ∀ s : State,
    let fault : ErrReg → State := fun bit =>
      { s with ccb := { s.ccb with err := s.ccb.err ||| bit, status := s.ccb.status ||| 0x80 } }
    let k := s.ccb.coef
    let h1 : Int := k.h1.toNat
    let h2 : Int := k.h2.toNat
    let h6 : Int := k.h6.toNat
    let ts := (s.ccb.tFine.toInt * 5 + 128) / 2 ^ 8
    let var1 := ((s.ccb.adcH.toNat : Int) - h1 * 16) - Int.tdiv (ts * k.h3.toInt) 100 / 2 ^ 1
    let var2 := h2 * (Int.tdiv (ts * k.h4.toInt) 100 +
      Int.tdiv (ts * Int.tdiv (ts * k.h5.toInt) 100 / 2 ^ 6) 100 + 16384) / 2 ^ 10
    let var3 := var1 * var2
    let var4 := (h6 * 2 ^ 7 + Int.tdiv (ts * k.h7.toInt) 100) / 2 ^ 4
    let var5 := var3 / 2 ^ 14 * (var3 / 2 ^ 14) / 2 ^ 10
    let var6 := var4 * var5 / 2 ^ 1
    let hq := max 0 (min ((var3 + var6) / 2 ^ 12) 102400)
    (Ccb.flag s.ccb .calValid = false → exec .compH s = .next (fault 0x0004)) ∧
    (Ccb.flag s.ccb .calValid = true → Ccb.flag s.ccb .rawValid = false → exec .compH s = .next (fault 0x0010)) ∧
    (Ccb.flag s.ccb .calValid = true → Ccb.flag s.ccb .rawValid = true → Ccb.flag s.ccb .tfineValid = false →
      exec .compH s = .next (fault 0x0020)) ∧
    (Ccb.flag s.ccb .calValid = true → Ccb.flag s.ccb .rawValid = true → Ccb.flag s.ccb .tfineValid = true →
      ∃ out : BitVec 32,
        exec .compH s = .next { s with ccb := { s.ccb with
          humOut := out, status := (s.ccb.status ||| 0x20) &&& 0x7F } } ∧
        (out.toNat : Int) = (hq * 100 + 512) / 2 ^ 10)

/-- 42 R70 (b): HUM_OUT is in 0..10000 for every input, because of the clamp. -/
def Obligations.HumidityIsAPercentage : Prop :=
  ∀ tFine adcH h1 h2 h3 h4 h5 h6 h7 : Int,
    0 ≤ compH tFine adcH h1 h2 h3 h4 h5 h6 h7 ∧ compH tFine adcH h1 h2 h3 h4 h5 h6 h7 ≤ 10000

/-- 42 R66: each table entry is the binary64 of the decimal literal shown, here as the correctly rounded
quotient of two exact integers. -/
def Obligations.GasTablesAreTheLiterals : Prop :=
  gasTable1 = [(1, 1), (1, 1), (1, 1), (1, 1), (1, 1), (99, 100), (1, 1), (992, 1000), (1, 1), (1, 1),
      (998, 1000), (995, 1000), (1, 1), (99, 100), (1, 1), (1, 1)].map
      (fun p : Int × Int => Binary64.div (Binary64.ofInt p.1) (Binary64.ofInt p.2)) ∧
  gasTable2 = [(8000000, 1), (4000000, 1), (2000000, 1), (1000000, 1), (4995004995, 10000),
      (2482621648, 10000), (125000, 1), (6300403226, 100000), (3128128128, 100000), (15625, 1),
      (78125, 10), (390625, 100), (1953125, 1000), (9765625, 10000), (48828125, 100000),
      (244140625, 1000000)].map
      (fun p : Int × Int => Binary64.div (Binary64.ofInt p.1) (Binary64.ofInt p.2))

/-- 42 R68 with the function of 42 R67: COMP_G's faults in their order, and on success the gas
resistance in the order of the formula. The denominator's check never fails, which the spec infers
from its own rules (42 R67, marked derived), so COMP_G succeeds whenever a sample and the range
switching error have been supplied; it needs no calibration. The next states are given in full. -/
def Obligations.CompGComputesTheGasResistance : Prop :=
  ∀ s : State,
    (Ccb.flag s.ccb .rawValid = false →
      exec .compG s = .next { s with ccb := { s.ccb with
        err := s.ccb.err ||| 0x0010, status := s.ccb.status ||| 0x80 } }) ∧
    (Ccb.flag s.ccb .rawValid = true → s.ccb.rseW = false →
      exec .compG s = .next { s with ccb := { s.ccb with
        err := s.ccb.err ||| 0x0100, status := s.ccb.status ||| 0x80 } }) ∧
    (Ccb.flag s.ccb .rawValid = true → s.ccb.rseW = true →
      let field := s.ccb.rseRaw.extractLsb' 4 4
      let e : Int := if Config.rseSigned then field.toInt else field.toNat
      let k1 := gasTable1.getD s.ccb.gasRange.toNat 0
      let k2 := gasTable2.getD s.ccb.gasRange.toNat 0
      let var1 := Binary64.mul (Binary64.ofInt (1340 + 5 * e)) k1
      let num := Binary64.mul var1 k2
      let den := Binary64.add (Binary64.ofInt ((s.ccb.adcG.toNat : Int) - 512)) var1
      Binary64.isPositive den = true ∧
      exec .compG s = .next { s with ccb := { s.ccb with
        gasOut := Binary64.div num den, status := (s.ccb.status ||| 0x40) &&& 0x7F } })

/-- 42 R67: no state of the block makes COMP_G or COMP_ALL raise E_GAS_DENOM; ERR bit 9 changes only
when it is cleared. -/
def Obligations.GasDenominatorFaultIsUnreachable : Prop :=
  (∀ (adcG : BitVec 10) (r : BitVec 4) (raw : Byte) (isSigned : Bool),
    ∃ g, compG adcG.toNat r (rangeSwErr isSigned raw) = .ok g) ∧
  (∀ (i : Instr) (s t : State), exec i s = .next t → ErrReg.get s.ccb.err .gasDenom = false →
    ErrReg.get t.ccb.err .gasDenom = false)

/-- 95 E6, the source's own example: adc_G = 100, GAS_RANGE = 0, no range switching error. -/
def Obligations.SourceGasExample : Prop :=
  compG 100 0 0 = .ok 0x4166087D8469EE58

/-- 00 R10: `f64` of an integer, `⊕`, `⊖`, `⊗` and `⊘` each give the binary64 nearest to the exact
result, ties to even, whenever the operands and the result are finite; and `f64` of an integer below
2^53 in magnitude is exact. -/
def Obligations.Binary64OperationsRoundToNearestEven : Prop :=
  (∀ v : Int, ((Binary64.value (Binary64.ofInt v)).isSome = true → Binary64.IsNearest v (Binary64.ofInt v)) ∧
    (|v| < 2 ^ 53 → Binary64.value (Binary64.ofInt v) = some (v : ℚ))) ∧
  (∀ (a b : BitVec 64) (x y : ℚ), Binary64.value a = some x → Binary64.value b = some y →
    ((Binary64.value (Binary64.add a b)).isSome = true → Binary64.IsNearest (x + y) (Binary64.add a b)) ∧
    ((Binary64.value (Binary64.sub a b)).isSome = true → Binary64.IsNearest (x - y) (Binary64.sub a b)) ∧
    ((Binary64.value (Binary64.mul a b)).isSome = true → Binary64.IsNearest (x * y) (Binary64.mul a b)) ∧
    (y ≠ 0 → (Binary64.value (Binary64.div a b)).isSome = true → Binary64.IsNearest (x / y) (Binary64.div a b)))

/-- 70 R99: a write to RSE_RAW clears GAS_FRESH and keeps GAS_OUT, and RANGE_SW_ERR at 0xB2 reads the
decode of the new byte at once. -/
def Obligations.RangeSwitchingErrorIsLive : Prop :=
  ∀ (d : Byte) (s : State), ∃ t, exec (.wr 0x2B d) s = .next t ∧
    Ccb.flag t.ccb .gasFresh = false ∧ t.ccb.gasOut = s.ccb.gasOut ∧
    (readByte 0xB3 t.ccb ++ readByte 0xB2 t.ccb : BitVec 16) =
      if Config.rseSigned then (d.extractLsb' 4 4).signExtend 16 else (d.extractLsb' 4 4).setWidth 16

/-! ## Control -/

/-- 43 R71: NOP clears LAST_FAULT and nothing else. -/
def Obligations.NopClearsLastFaultOnly : Prop :=
  ∀ s : State, exec .nop s = .next { s with ccb := { s.ccb with status := s.ccb.status &&& 0x7F } }

/-- 43 R73: CLR_STATUS clears ERR and LAST_FAULT and nothing else. -/
def Obligations.ClrStatusClearsTheErrorState : Prop :=
  ∀ s : State, exec .clrStatus s =
    .next { s with ccb := { s.ccb with err := 0x0000, status := s.ccb.status &&& 0x7F } }

/-- 43 R72: COMP_ALL is UNPACK, COMP_T, COMP_P, COMP_H, COMP_G in place, ended by the first that
faults, whose state it leaves. -/
def Obligations.CompAllIsTheFiveCommandsInOrder : Prop :=
  ∀ s : State,
    let s1 := nextOr s (exec .unpack s)
    let s2 := nextOr s1 (exec .compT s1)
    let s3 := nextOr s2 (exec .compP s2)
    let s4 := nextOr s3 (exec .compH s3)
    let s5 := nextOr s4 (exec .compG s4)
    exec .compAll s = .next (
      if Ccb.flag s1.ccb .lastFault = true then s1
      else if Ccb.flag s2.ccb .lastFault = true then s2
      else if Ccb.flag s3.ccb .lastFault = true then s3
      else if Ccb.flag s4.ccb .lastFault = true then s4
      else s5)

/-- 43 R72, completion of COMP_ALL: with a written sample, a calibration, a range switching error and a
pressure in range, all five outputs are computed from the new sample and STATUS is 0x7F. -/
def Obligations.CompAllComputesEveryOutput : Prop :=
  ∀ (s : State) (p : Int),
    let c := s.ccb
    let u := { c with
      adcT := code20 c.rawbuf[0] c.rawbuf[1] c.rawbuf[2]
      adcP := code20 c.rawbuf[3] c.rawbuf[4] c.rawbuf[5]
      adcH := c.rawbuf[6] ++ c.rawbuf[7]
      adcG := c.rawbuf[8] ++ c.rawbuf[9].extractLsb' 6 2
      gasRange := c.rawbuf[9].extractLsb' 0 4
      rawWMask := 0 }
    let v := { u with
      tFine := BitVec.ofInt 32 (temperatureOf u).1, tempOut := BitVec.ofInt 32 (temperatureOf u).2 }
    c.rawWMask = BitVec.allOnes 10 → Ccb.flag c .calValid = true → c.rseW = true → pressureOf v = .ok p →
    ∃ g, gasOf v = .ok g ∧
      exec .compAll s = .next { s with ccb := { v with
        pressOut := BitVec.ofInt 32 p
        humOut := BitVec.ofInt 32 (humidityOf v)
        gasOut := g
        status := 0x7F } }

/-- 60 R82: right after a write to CMD, LAST_FAULT = 1 exactly when that command faulted, SRST and the
commands without faults among them; and no other write, and no read, touches it. -/
def Obligations.LastFaultReportsTheCommand : Prop :=
  (∀ (d : Byte) (s t : State), exec (.wr 0x3C d) s = .next t →
    Ccb.flag t.ccb .lastFault = (faultOf (commandsOf d) s.ccb).isSome) ∧
  (∀ (a : Addr) (d : Byte) (s t : State), a ≠ 0x3C → exec (.wr a d) s = .next t →
    Ccb.flag t.ccb .lastFault = Ccb.flag s.ccb .lastFault) ∧
  (∀ (a : Addr) (s t : State), exec (.rd a) s = .next t →
    Ccb.flag t.ccb .lastFault = Ccb.flag s.ccb .lastFault)

/-- 60 R79 and R80: a command that faults with E leaves exactly the state before it with ERR bit E and
LAST_FAULT set; COMP_ALL (0x07) alone may keep completed sub-commands. -/
def Obligations.FaultsArePrecise : Prop :=
  ∀ (d : Byte) (s t : State) (e : Err), d ≠ 0x07 → exec (.wr 0x3C d) s = .next t →
    faultOf (commandsOf d) s.ccb = some e →
    t = { s with ccb := { s.ccb with
      err := s.ccb.err ||| BitVec.ofNat 16 (2 ^ e.code), status := s.ccb.status ||| 0x80 } }

/-- 60 R79: one command, run by itself or by the write of its code to CMD, sets at most one ERR bit,
that of the fault it ends with; so does a reserved code. A write elsewhere than CMD, and a read, leave
every ERR bit but E_BUS as it was. -/
def Obligations.OneCommandSetsAtMostOneErrBit : Prop :=
  (∀ (i : Instr) (d : Byte) (s t : State), i = .wr 0x3C d ∨ decodeCommand d = some i → exec i s = .next t →
    (∃ e : Err, ∀ e' : Err, e' ≠ e → ErrReg.get t.ccb.err e' = true → ErrReg.get s.ccb.err e' = true) ∧
    (∀ e : Err, ErrReg.get s.ccb.err e = false →
      (ErrReg.get t.ccb.err e = true ↔ faultOf (commandsOf d) s.ccb = some e))) ∧
  (∀ (a : Addr) (d : Byte) (s t : State), a ≠ 0x3C → exec (.wr a d) s = .next t →
    ∀ e : Err, e ≠ .bus → ErrReg.get t.ccb.err e = ErrReg.get s.ccb.err e) ∧
  (∀ (a : Addr) (s t : State), exec (.rd a) s = .next t →
    ∀ e : Err, e ≠ .bus → ErrReg.get t.ccb.err e = ErrReg.get s.ccb.err e)

/-- 10 R25: an ERR bit, once set, is cleared only by CLR_STATUS or by reset. -/
def Obligations.ErrBitsAreSticky : Prop :=
  ∀ (i : Instr) (s t : State) (n : Nat), exec i s = .next t → s.ccb.err.getLsbD n = true →
    t.ccb.err.getLsbD n = true ∨ i ∈ [Instr.clrStatus, .srst, .wr 0x3C 0x08, .wr 0x3C 0x0F]

/-- 10 R24, rows 0 and 1: CAL_VALID and RAW_VALID are cleared by reset only, and set only by a
successful CAL_LOAD and a successful UNPACK. -/
def Obligations.ValidFlagsAreClearedOnlyByReset : Prop :=
  ∀ (i : Instr) (s t : State), exec i s = .next t →
    (Ccb.flag s.ccb .calValid = true → Ccb.flag t.ccb .calValid = false → i = .srst ∨ i = .wr 0x3C 0x0F) ∧
    (Ccb.flag s.ccb .rawValid = true → Ccb.flag t.ccb .rawValid = false → i = .srst ∨ i = .wr 0x3C 0x0F) ∧
    (Ccb.flag s.ccb .calValid = false → Ccb.flag t.ccb .calValid = true →
      (i = .calLoad ∨ i = .wr 0x3C 0x01) ∧ s.ccb.calWMask = BitVec.allOnes 41) ∧
    (Ccb.flag s.ccb .rawValid = false → Ccb.flag t.ccb .rawValid = true →
      i ∈ [Instr.unpack, .compAll, .wr 0x3C 0x02, .wr 0x3C 0x07] ∧ s.ccb.rawWMask = BitVec.allOnes 10)

/-- 10 R23: each output register changes only by its own command, COMP_ALL, or reset. -/
def Obligations.OutputsChangeOnlyByTheirCommands : Prop :=
  ∀ (i : Instr) (s t : State), exec i s = .next t →
    i ∈ [Instr.compAll, .srst, .wr 0x3C 0x07, .wr 0x3C 0x0F] ∨
    ((i ∉ [Instr.compT, .wr 0x3C 0x03] → t.ccb.tFine = s.ccb.tFine ∧ t.ccb.tempOut = s.ccb.tempOut) ∧
      (i ∉ [Instr.compP, .wr 0x3C 0x04] → t.ccb.pressOut = s.ccb.pressOut) ∧
      (i ∉ [Instr.compH, .wr 0x3C 0x05] → t.ccb.humOut = s.ccb.humOut) ∧
      (i ∉ [Instr.compG, .wr 0x3C 0x06] → t.ccb.gasOut = s.ccb.gasOut))

/-! ## Invariants -/

/-- 10 R26 (and the reserved ERR bits of 10 R25) from every state that has it: whatever the host's next
input, a step keeps it. -/
def Obligations.EveryStepKeepsTheStateInvariant : Prop :=
  ∀ s t : State, Ccb.Inv s.ccb → step s = .next t → Ccb.Inv t.ccb

/-- The reset state has the invariant of 10 R26. -/
def Obligations.ResetHasTheStateInvariant : Prop := Ccb.Inv State.reset.ccb

/-- 10 R26: its six implications hold in every state a host can drive the machine to. -/
def Obligations.ReachableStatesHaveTheStateInvariant : Prop :=
  ∀ s : State, Reachable s →
    (Ccb.flag s.ccb .tfineValid = true → Ccb.flag s.ccb .calValid = true ∧ Ccb.flag s.ccb .rawValid = true) ∧
    (Ccb.flag s.ccb .tempFresh = true → Ccb.flag s.ccb .tfineValid = true) ∧
    (Ccb.flag s.ccb .pressFresh = true ∨ Ccb.flag s.ccb .humFresh = true → Ccb.flag s.ccb .tfineValid = true) ∧
    (Ccb.flag s.ccb .gasFresh = true → Ccb.flag s.ccb .rawValid = true ∧ s.ccb.rseW = true) ∧
    (Ccb.flag s.ccb .calValid = false → s.ccb.coef = Coef.reset) ∧
    (Ccb.flag s.ccb .rawValid = false →
      s.ccb.adcT = 0 ∧ s.ccb.adcP = 0 ∧ s.ccb.adcH = 0 ∧ s.ccb.adcG = 0 ∧ s.ccb.gasRange = 0)

/-- 10 R24 and 70 R100, the headline: a fresh output tells the truth. From every state with the
invariant where T_FINE and the fresh outputs are the values of the CURRENT calibration, sample, offset
and range switching error, every step keeps it so. -/
def Obligations.FreshOutputsStayTruthful : Prop :=
  ∀ s t : State, Ccb.Inv s.ccb → Ccb.Truthful s.ccb → step s = .next t → Ccb.Truthful t.ccb

/-- The reset state has no fresh output, so it is truthful. -/
def Obligations.ResetIsTruthful : Prop := Ccb.Truthful State.reset.ccb
end

