-- ==== Sys2Proof/Laws/Flags.lean ====
section
/-! SUPPORT. What reading a STATUS or ERR bit gives after a write of one, and the masks that the commands' STATUS writes amount to. -/

namespace Sys2Proof.Machine

theorem StatusBit.pos_lt (b : StatusBit) : b.pos < 8 := by cases b <;> decide

theorem StatusBit.pos_injective {a b : StatusBit} (h : a.pos = b.pos) : a = b := by
  cases a <;> cases b <;> first | rfl | (simp [StatusBit.pos] at h)

theorem Err.code_lt (e : Err) : e.code < 11 := by cases e <;> decide

theorem Err.code_injective {a b : Err} (h : a.code = b.code) : a = b := by
  cases a <;> cases b <;> first | rfl | (simp [Err.code] at h)

/-- A STATUS bit after a write of one: the written bit has the written value, the others are kept. -/
@[simp] theorem Status.get_put (st : Status) (a b : StatusBit) (v : Bool) :
    Status.get (Status.put st a v) b = if a = b then v else Status.get st b := by
  have hb := b.pos_lt
  unfold Status.get Status.put
  by_cases h : a = b
  · subst h
    cases v <;> simp [hb]
  · have hne : b.pos ≠ a.pos := fun hp => h (StatusBit.pos_injective hp.symm)
    cases v <;> simp [hb, h, hne]

/-- An ERR bit after a raise: the raised bit is set, the others are kept. -/
@[simp] theorem ErrReg.get_raise (r : ErrReg) (a b : Err) :
    ErrReg.get (ErrReg.raise r a) b = (decide (a = b) || ErrReg.get r b) := by
  have hb := b.code_lt
  unfold ErrReg.get ErrReg.raise
  by_cases h : a = b
  · subst h
    have : a.code < 16 := by omega
    simp [this]
  · have hne : a.code ≠ b.code := fun hp => h (Err.code_injective hp)
    simp [BitVec.getLsbD_twoPow, h, hne]

/-- Raising an error leaves every other bit number of ERR, the reserved ones among them. -/
theorem ErrReg.raise_getLsbD (r : ErrReg) (e : Err) (n : Nat) :
    (ErrReg.raise r e).getLsbD n = (r.getLsbD n || decide (n = e.code)) := by
  have := e.code_lt
  simp only [ErrReg.raise, BitVec.getLsbD_or, BitVec.getLsbD_twoPow]
  congr 1
  by_cases h : n = e.code
  · subst h
    simp
    omega
  · have : e.code ≠ n := fun hp => h hp.symm
    simp [h, this]

theorem ErrReg.raise_code_or (r : ErrReg) (e : Err) : ErrReg.raise r e = r ||| BitVec.ofNat 16 (2 ^ e.code) := by
  cases e <;> rfl

theorem Status.afterCalLoad_eq_mask (st : Status) : Status.afterCalLoad st = (st ||| 0x01) &&& 0x43 := by
  revert st
  decide

theorem Status.afterUnpack_eq_mask (st : Status) : Status.afterUnpack st = (st ||| 0x02) &&& 0x03 := by
  revert st
  decide

theorem Status.afterCompT_eq_mask (st : Status) : Status.afterCompT st = (st ||| 0x0C) &&& 0x7F := by
  revert st
  decide

theorem Status.afterComp_press_eq_mask (st : Status) :
    Status.afterComp st .pressFresh = (st ||| 0x10) &&& 0x7F := by
  revert st
  decide

theorem Status.afterComp_hum_eq_mask (st : Status) : Status.afterComp st .humFresh = (st ||| 0x20) &&& 0x7F := by
  revert st
  decide

theorem Status.afterComp_gas_eq_mask (st : Status) : Status.afterComp st .gasFresh = (st ||| 0x40) &&& 0x7F := by
  revert st
  decide

theorem Status.put_lastFault_true_eq_mask (st : Status) : Status.put st .lastFault true = st ||| 0x80 := by
  revert st
  decide

theorem Status.put_lastFault_false_eq_mask (st : Status) : Status.put st .lastFault false = st &&& 0x7F := by
  revert st
  decide

/-- Each STATUS bit after a successful CAL_LOAD (40 R54). -/
@[simp] theorem Status.get_afterCalLoad (st : Status) (b : StatusBit) :
    Status.get (Status.afterCalLoad st) b =
      match b with
      | .calValid => true
      | .rawValid => Status.get st .rawValid
      | .gasFresh => Status.get st .gasFresh
      | .tfineValid => false
      | .tempFresh => false
      | .pressFresh => false
      | .humFresh => false
      | .lastFault => false := by
  cases b <;> simp [Status.afterCalLoad]

/-- Each STATUS bit after a successful UNPACK (41 R57). -/
@[simp] theorem Status.get_afterUnpack (st : Status) (b : StatusBit) :
    Status.get (Status.afterUnpack st) b =
      match b with
      | .calValid => Status.get st .calValid
      | .rawValid => true
      | .gasFresh => false
      | .tfineValid => false
      | .tempFresh => false
      | .pressFresh => false
      | .humFresh => false
      | .lastFault => false := by
  cases b <;> simp [Status.afterUnpack]

/-- Each STATUS bit after a successful COMP_T (42 R60). -/
@[simp] theorem Status.get_afterCompT (st : Status) (b : StatusBit) :
    Status.get (Status.afterCompT st) b =
      match b with
      | .tfineValid => true
      | .tempFresh => true
      | .lastFault => false
      | .calValid => Status.get st .calValid
      | .rawValid => Status.get st .rawValid
      | .pressFresh => Status.get st .pressFresh
      | .humFresh => Status.get st .humFresh
      | .gasFresh => Status.get st .gasFresh := by
  cases b <;> simp [Status.afterCompT]

/-- Each STATUS bit after a successful COMP_P, COMP_H or COMP_G (42 R63, R65, R68). -/
@[simp] theorem Status.get_afterComp (st : Status) (fresh b : StatusBit) :
    Status.get (Status.afterComp st fresh) b =
      if b = .lastFault then false else if b = fresh then true else Status.get st b := by
  cases b <;> cases fresh <;> simp [Status.afterComp]

end Sys2Proof.Machine
end

