-- ==== Sys2Proof/Laws/State.lean ====
section
/-! SUPPORT. One lemma per field for each named update of the state, and each field's value at reset, true by rfl. -/

namespace Sys2Proof.Machine

@[simp] theorem faultEntry_calbuf (e : Err) (c : Ccb) : (faultEntry e c).calbuf = c.calbuf := rfl
@[simp] theorem faultEntry_heatRangeRaw (e : Err) (c : Ccb) : (faultEntry e c).heatRangeRaw = c.heatRangeRaw := rfl
@[simp] theorem faultEntry_heatValRaw (e : Err) (c : Ccb) : (faultEntry e c).heatValRaw = c.heatValRaw := rfl
@[simp] theorem faultEntry_rseRaw (e : Err) (c : Ccb) : (faultEntry e c).rseRaw = c.rseRaw := rfl
@[simp] theorem faultEntry_rseW (e : Err) (c : Ccb) : (faultEntry e c).rseW = c.rseW := rfl
@[simp] theorem faultEntry_calWMask (e : Err) (c : Ccb) : (faultEntry e c).calWMask = c.calWMask := rfl
@[simp] theorem faultEntry_rawWMask (e : Err) (c : Ccb) : (faultEntry e c).rawWMask = c.rawWMask := rfl
@[simp] theorem faultEntry_rawbuf (e : Err) (c : Ccb) : (faultEntry e c).rawbuf = c.rawbuf := rfl
@[simp] theorem faultEntry_tOffset (e : Err) (c : Ccb) : (faultEntry e c).tOffset = c.tOffset := rfl
@[simp] theorem faultEntry_status (e : Err) (c : Ccb) : (faultEntry e c).status = Status.put c.status .lastFault true := rfl
@[simp] theorem faultEntry_err (e : Err) (c : Ccb) : (faultEntry e c).err = ErrReg.raise c.err e := rfl
@[simp] theorem faultEntry_tFine (e : Err) (c : Ccb) : (faultEntry e c).tFine = c.tFine := rfl
@[simp] theorem faultEntry_tempOut (e : Err) (c : Ccb) : (faultEntry e c).tempOut = c.tempOut := rfl
@[simp] theorem faultEntry_pressOut (e : Err) (c : Ccb) : (faultEntry e c).pressOut = c.pressOut := rfl
@[simp] theorem faultEntry_humOut (e : Err) (c : Ccb) : (faultEntry e c).humOut = c.humOut := rfl
@[simp] theorem faultEntry_gasOut (e : Err) (c : Ccb) : (faultEntry e c).gasOut = c.gasOut := rfl
@[simp] theorem faultEntry_adcT (e : Err) (c : Ccb) : (faultEntry e c).adcT = c.adcT := rfl
@[simp] theorem faultEntry_adcP (e : Err) (c : Ccb) : (faultEntry e c).adcP = c.adcP := rfl
@[simp] theorem faultEntry_adcH (e : Err) (c : Ccb) : (faultEntry e c).adcH = c.adcH := rfl
@[simp] theorem faultEntry_adcG (e : Err) (c : Ccb) : (faultEntry e c).adcG = c.adcG := rfl
@[simp] theorem faultEntry_gasRange (e : Err) (c : Ccb) : (faultEntry e c).gasRange = c.gasRange := rfl
@[simp] theorem faultEntry_coef (e : Err) (c : Ccb) : (faultEntry e c).coef = c.coef := rfl

@[simp] theorem busError_calbuf (c : Ccb) : (busError c).calbuf = c.calbuf := rfl
@[simp] theorem busError_heatRangeRaw (c : Ccb) : (busError c).heatRangeRaw = c.heatRangeRaw := rfl
@[simp] theorem busError_heatValRaw (c : Ccb) : (busError c).heatValRaw = c.heatValRaw := rfl
@[simp] theorem busError_rseRaw (c : Ccb) : (busError c).rseRaw = c.rseRaw := rfl
@[simp] theorem busError_rseW (c : Ccb) : (busError c).rseW = c.rseW := rfl
@[simp] theorem busError_calWMask (c : Ccb) : (busError c).calWMask = c.calWMask := rfl
@[simp] theorem busError_rawWMask (c : Ccb) : (busError c).rawWMask = c.rawWMask := rfl
@[simp] theorem busError_rawbuf (c : Ccb) : (busError c).rawbuf = c.rawbuf := rfl
@[simp] theorem busError_tOffset (c : Ccb) : (busError c).tOffset = c.tOffset := rfl
@[simp] theorem busError_status (c : Ccb) : (busError c).status = c.status := rfl
@[simp] theorem busError_err (c : Ccb) : (busError c).err = ErrReg.raise c.err .bus := rfl
@[simp] theorem busError_tFine (c : Ccb) : (busError c).tFine = c.tFine := rfl
@[simp] theorem busError_tempOut (c : Ccb) : (busError c).tempOut = c.tempOut := rfl
@[simp] theorem busError_pressOut (c : Ccb) : (busError c).pressOut = c.pressOut := rfl
@[simp] theorem busError_humOut (c : Ccb) : (busError c).humOut = c.humOut := rfl
@[simp] theorem busError_gasOut (c : Ccb) : (busError c).gasOut = c.gasOut := rfl
@[simp] theorem busError_adcT (c : Ccb) : (busError c).adcT = c.adcT := rfl
@[simp] theorem busError_adcP (c : Ccb) : (busError c).adcP = c.adcP := rfl
@[simp] theorem busError_adcH (c : Ccb) : (busError c).adcH = c.adcH := rfl
@[simp] theorem busError_adcG (c : Ccb) : (busError c).adcG = c.adcG := rfl
@[simp] theorem busError_gasRange (c : Ccb) : (busError c).gasRange = c.gasRange := rfl
@[simp] theorem busError_coef (c : Ccb) : (busError c).coef = c.coef := rfl

@[simp] theorem Ccb.reset_calbuf : Ccb.reset.calbuf = Vector.replicate 41 0x00 := rfl
@[simp] theorem Ccb.reset_heatRangeRaw : Ccb.reset.heatRangeRaw = 0 := rfl
@[simp] theorem Ccb.reset_heatValRaw : Ccb.reset.heatValRaw = 0 := rfl
@[simp] theorem Ccb.reset_rseRaw : Ccb.reset.rseRaw = 0 := rfl
@[simp] theorem Ccb.reset_rseW : Ccb.reset.rseW = false := rfl
@[simp] theorem Ccb.reset_calWMask : Ccb.reset.calWMask = 0 := rfl
@[simp] theorem Ccb.reset_rawWMask : Ccb.reset.rawWMask = 0 := rfl
@[simp] theorem Ccb.reset_rawbuf : Ccb.reset.rawbuf = Vector.replicate 10 0x00 := rfl
@[simp] theorem Ccb.reset_tOffset : Ccb.reset.tOffset = 0 := rfl
@[simp] theorem Ccb.reset_status : Ccb.reset.status = 0 := rfl
@[simp] theorem Ccb.reset_err : Ccb.reset.err = 0 := rfl
@[simp] theorem Ccb.reset_tFine : Ccb.reset.tFine = 0 := rfl
@[simp] theorem Ccb.reset_tempOut : Ccb.reset.tempOut = 0 := rfl
@[simp] theorem Ccb.reset_pressOut : Ccb.reset.pressOut = 0 := rfl
@[simp] theorem Ccb.reset_humOut : Ccb.reset.humOut = 0 := rfl
@[simp] theorem Ccb.reset_gasOut : Ccb.reset.gasOut = 0 := rfl
@[simp] theorem Ccb.reset_adcT : Ccb.reset.adcT = 0 := rfl
@[simp] theorem Ccb.reset_adcP : Ccb.reset.adcP = 0 := rfl
@[simp] theorem Ccb.reset_adcH : Ccb.reset.adcH = 0 := rfl
@[simp] theorem Ccb.reset_adcG : Ccb.reset.adcG = 0 := rfl
@[simp] theorem Ccb.reset_gasRange : Ccb.reset.gasRange = 0 := rfl
@[simp] theorem Ccb.reset_coef : Ccb.reset.coef = Coef.reset := rfl

@[simp] theorem State.reset_ccb : State.reset.ccb = Ccb.reset := rfl
@[simp] theorem State.reset_pending : State.reset.pending = [] := rfl
@[simp] theorem State.reset_returned : State.reset.returned = [] := rfl

@[simp] theorem State.withFetchWord_ccb (s : State) (n w : Nat) : (s.withFetchWord n w).ccb = s.ccb := rfl
@[simp] theorem State.withFetchWord_returned (s : State) (n w : Nat) : (s.withFetchWord n w).returned = s.returned := rfl
@[simp] theorem State.withFetchWord_pending (s : State) (n w : Nat) :
    (s.withFetchWord n w).pending = .word (tableWord n w) :: s.pending := rfl

/-- Every STATUS bit is 0 at reset. -/
@[simp] theorem Ccb.reset_flag (b : StatusBit) : Ccb.flag Ccb.reset b = false := by cases b <;> rfl

/-- A fault changes no STATUS bit but LAST_FAULT (60 R79). -/
@[simp] theorem faultEntry_flag (e : Err) (c : Ccb) (b : StatusBit) :
    Ccb.flag (faultEntry e c) b = (decide (b = .lastFault) || Ccb.flag c b) := by
  cases b <;> simp [Ccb.flag]

/-- A bus error changes no STATUS bit (60 R82). -/
@[simp] theorem busError_flag (c : Ccb) (b : StatusBit) : Ccb.flag (busError c) b = Ccb.flag c b := rfl

end Sys2Proof.Machine
end

