-- ==== Sys2Proof/Laws/Operands.lean ====
section
/-! SUPPORT. The address map range by range, the live views against the spec's wording, and the spec's operators as plain integer arithmetic. -/

namespace Sys2Proof.Machine

theorem asr_eq (a : Int) (n : Nat) : asr a n = a / 2 ^ n := by simp [asr]

theorem shl_eq (a : Int) (n : Nat) : shl a n = a * 2 ^ n := by simp [shl]

/-- A floor shift is bracketed by its exact quotient. -/
theorem asr_bounds (a : Int) (n : Nat) : asr a n * 2 ^ n ≤ a ∧ a < (asr a n + 1) * 2 ^ n := by
  rw [asr_eq]
  have hp : (0 : Int) < 2 ^ n := by positivity
  exact ⟨Int.ediv_mul_le a hp.ne', Int.lt_ediv_add_one_mul_self a hp⟩

theorem asr_mono {a b : Int} (n : Nat) (h : a ≤ b) : asr a n ≤ asr b n := by
  rw [asr_eq, asr_eq]
  exact Int.ediv_le_ediv (by positivity) h

theorem clamp_bounds (v lo hi : Int) (h : lo ≤ hi) : lo ≤ clamp v lo hi ∧ clamp v lo hi ≤ hi := by
  unfold clamp
  split
  · omega
  · split <;> omega

theorem fitsSigned32_iff (v : Int) : fitsSigned32 v = true ↔ -2147483648 ≤ v ∧ v ≤ 2147483647 := by
  simp [fitsSigned32]

/-- The live view of RSE_RAW is the case split of 30 R48 on RSE_SIGNED. -/
theorem rangeSwErr_eq_spec (isSigned : Bool) (raw : Byte) :
    rangeSwErr isSigned raw =
      if isSigned then (raw.extractLsb' 4 4).toInt else ((raw.extractLsb' 4 4).toNat : Int) := by
  revert isSigned raw
  decide

/-- RANGE_SW_ERR ranges over -8..7 if signed and over 0..15 if not (30 R48). -/
theorem rangeSwErr_bounds (isSigned : Bool) (raw : Byte) :
    (if isSigned then -8 else 0) ≤ rangeSwErr isSigned raw ∧
      rangeSwErr isSigned raw ≤ (if isSigned then 7 else 15) := by
  revert isSigned raw
  decide

theorem locate_calbuf (a : Addr) (h : a.toNat < 41) : locate a = .calbuf ⟨a.toNat, h⟩ := by
  simp [locate, h]

theorem locate_rawbuf (a : Addr) (h : 0x30 ≤ a.toNat ∧ a.toNat < 0x30 + 10) :
    locate a = .rawbuf ⟨a.toNat - 0x30, by omega⟩ := by
  unfold locate
  rw [dif_neg (by omega), if_neg (by omega), if_neg (by omega), if_neg (by omega), dif_pos h]

@[simp] theorem locate_heatRangeRaw : locate 0x29#8 = .heatRangeRaw := by decide
@[simp] theorem locate_heatValRaw : locate 0x2A#8 = .heatValRaw := by decide
@[simp] theorem locate_rseRaw : locate 0x2B#8 = .rseRaw := by decide
@[simp] theorem locate_tOffsetLo : locate 0x3A#8 = .tOffsetLo := by decide
@[simp] theorem locate_tOffsetHi : locate 0x3B#8 = .tOffsetHi := by decide
@[simp] theorem locate_cmd : locate 0x3C#8 = .cmd := by decide

/-- Byte `k` of a read-only register stands `k` above its lowest address. -/
theorem locate_readOnly : ∀ row ∈ roRows, ∀ k < row.width,
    locate (BitVec.ofNat 8 (row.base + k)) = .readOnly row k := by decide

/-- The reserved addresses of 20 R29. -/
def isReserved (a : Addr) : Bool :=
  (0x2C ≤ a.toNat && a.toNat ≤ 0x2F) || (0x65 ≤ a.toNat && a.toNat ≤ 0x7F) || 0xB4 ≤ a.toNat

/-- The map is exactly 20 R29: an address is an input byte, CMD, a byte of a read-only register or
reserved, and which of them by its range. -/
theorem locate_reserved : ∀ a : Addr, locate a = .reserved ↔ isReserved a = true := by decide

theorem locate_cmd_iff : ∀ a : Addr, locate a = .cmd ↔ a = cmdAddr := by decide

/-- A location that is a byte of a read-only register is one of the map's rows, at its place. -/
theorem locate_readOnly_row {a : Addr} {row : RoRow} {k : Nat} (h : locate a = .readOnly row k) :
    row ∈ roRows ∧ k < row.width ∧ a.toNat = row.base + k := by
  have key : ∀ a : Addr, ∀ row k, locate a = .readOnly row k →
      row ∈ roRows ∧ row.covers a.toNat = true ∧ k = a.toNat - row.base := by
    intro a row k h
    unfold locate at h
    split at h
    · cases h
    iterate 3
      split at h
      · cases h
    split at h
    · cases h
    iterate 3
      split at h
      · cases h
    split at h
    · next r hr =>
      cases h
      exact ⟨List.mem_of_find?_eq_some hr, by simpa using List.find?_some hr, rfl⟩
    · cases h
  obtain ⟨hm, hc, rfl⟩ := key a row k h
  simp [RoRow.covers] at hc
  exact ⟨hm, by omega, by omega⟩

end Sys2Proof.Machine
end

