-- ==== Sys2Proof/Laws/Ops.lean ====
section
/-! SUPPORT. Everything each shared operation and each command can do, said once; what a step keeps. -/

namespace Sys2Proof.Machine

/-! ### Running commands -/

@[simp] theorem runCommands_nil (c : Ccb) : runCommands [] c = c := rfl

theorem runCommands_cons_ok {f : Command} {rest : List Command} {c c' : Ccb} (h : f c = .ok c') :
    runCommands (f :: rest) c = runCommands rest c' := by simp [runCommands, h]

theorem runCommands_cons_error {f : Command} {rest : List Command} {c : Ccb} {e : Err} (h : f c = .error e) :
    runCommands (f :: rest) c = faultEntry e c := by simp [runCommands, h]

/-- A single command either makes its writes or enters its fault (60 R79). -/
theorem runCommands_single (f : Command) (c : Ccb) :
    runCommands [f] c =
      match f c with
      | .ok c' => c'
      | .error e => faultEntry e c := by
  cases h : f c <;> simp [runCommands, h]

/-- What every command of a sequence keeps, and a fault keeps, the sequence keeps. -/
theorem runCommands_keeps (P : Ccb → Prop) (hf : ∀ e c, P c → P (faultEntry e c)) :
    ∀ (fs : List Command) (c : Ccb), (∀ f ∈ fs, ∀ c c', P c → f c = .ok c' → P c') → P c → P (runCommands fs c) := by
  intro fs
  induction fs with
  | nil => intro c _ hc; exact hc
  | cons f rest ih =>
    intro c hk hc
    cases h : f c with
    | ok c' =>
      rw [runCommands_cons_ok h]
      exact ih c' (fun g hg => hk g (List.mem_cons_of_mem _ hg)) (hk f (List.mem_cons_self ..) c c' hc h)
    | error e =>
      rw [runCommands_cons_error h]
      exact hf e c hc

/-! ### Each command, in full -/

theorem calLoad_ok_iff {c c' : Ccb} :
    calLoad c = .ok c' ↔
      c.calWMask = BitVec.allOnes 41 ∧
        c' = { c with
          coef := parseCalibration c.calbuf, calWMask := 0, status := Status.afterCalLoad c.status } := by
  unfold calLoad
  by_cases h : c.calWMask = BitVec.allOnes 41
  · rw [if_neg (not_not.2 h)]
    exact ⟨fun hc => ⟨h, (Except.ok.inj hc).symm⟩, fun hc => by rw [hc.2]⟩
  · rw [if_pos h]
    exact ⟨fun hc => (nomatch hc), fun hc => absurd hc.1 h⟩

theorem calLoad_error_iff {c : Ccb} {e : Err} :
    calLoad c = .error e ↔ c.calWMask ≠ BitVec.allOnes 41 ∧ e = .calPartial := by
  unfold calLoad
  by_cases h : c.calWMask = BitVec.allOnes 41
  · rw [if_neg (not_not.2 h)]
    exact ⟨fun hc => (nomatch hc), fun hc => absurd h hc.1⟩
  · rw [if_pos h]
    exact ⟨fun hc => ⟨h, (Except.error.inj hc).symm⟩, fun hc => by rw [hc.2]⟩

theorem unpackSample_ok_iff {c c' : Ccb} :
    unpackSample c = .ok c' ↔
      c.rawWMask = BitVec.allOnes 10 ∧
        c' = { c with
          adcT := code20 c.rawbuf[0] c.rawbuf[1] c.rawbuf[2]
          adcP := code20 c.rawbuf[3] c.rawbuf[4] c.rawbuf[5]
          adcH := c.rawbuf[6] ++ c.rawbuf[7]
          adcG := c.rawbuf[8] ++ c.rawbuf[9].extractLsb' 6 2
          gasRange := c.rawbuf[9].extractLsb' 0 4
          rawWMask := 0
          status := Status.afterUnpack c.status } := by
  unfold unpackSample
  by_cases h : c.rawWMask = BitVec.allOnes 10
  · rw [if_neg (not_not.2 h)]
    exact ⟨fun hc => ⟨h, (Except.ok.inj hc).symm⟩, fun hc => by rw [hc.2]⟩
  · rw [if_pos h]
    exact ⟨fun hc => (nomatch hc), fun hc => absurd hc.1 h⟩

theorem unpackSample_error_iff {c : Ccb} {e : Err} :
    unpackSample c = .error e ↔ c.rawWMask ≠ BitVec.allOnes 10 ∧ e = .rawPartial := by
  unfold unpackSample
  by_cases h : c.rawWMask = BitVec.allOnes 10
  · rw [if_neg (not_not.2 h)]
    exact ⟨fun hc => (nomatch hc), fun hc => absurd h hc.1⟩
  · rw [if_pos h]
    exact ⟨fun hc => ⟨h, (Except.error.inj hc).symm⟩, fun hc => by rw [hc.2]⟩

theorem compTemperature_ok_iff {c c' : Ccb} :
    compTemperature c = .ok c' ↔
      Ccb.flag c .calValid = true ∧ Ccb.flag c .rawValid = true ∧
        c' = { c with
          tFine := BitVec.ofInt 32 (temperatureOf c).1
          tempOut := BitVec.ofInt 32 (temperatureOf c).2
          status := Status.afterCompT c.status } := by
  unfold compTemperature
  split <;> rename_i h
  · simp [h]
  · split <;> rename_i h'
    · simp [h']
    · simp only [Bool.not_eq_false] at h h'
      simp [h, h', eq_comm, temperatureOf]

theorem compPressure_ok_iff {c c' : Ccb} :
    compPressure c = .ok c' ↔
      Ccb.flag c .calValid = true ∧ Ccb.flag c .rawValid = true ∧ Ccb.flag c .tfineValid = true ∧
        ∃ p, pressureOf c = .ok p ∧
          c' = { c with pressOut := BitVec.ofInt 32 p, status := Status.afterComp c.status .pressFresh } := by
  unfold compPressure
  split <;> rename_i h
  · simp [h]
  · split <;> rename_i h'
    · simp [h']
    · split <;> rename_i h''
      · simp [h'']
      · simp only [Bool.not_eq_false] at h h' h''
        cases hp : pressureOf c <;> simp [h, h', h'', eq_comm]

theorem compHumidity_ok_iff {c c' : Ccb} :
    compHumidity c = .ok c' ↔
      Ccb.flag c .calValid = true ∧ Ccb.flag c .rawValid = true ∧ Ccb.flag c .tfineValid = true ∧
        c' = { c with
          humOut := BitVec.ofInt 32 (humidityOf c), status := Status.afterComp c.status .humFresh } := by
  unfold compHumidity
  split <;> rename_i h
  · simp [h]
  · split <;> rename_i h'
    · simp [h']
    · split <;> rename_i h''
      · simp [h'']
      · simp only [Bool.not_eq_false] at h h' h''
        simp [h, h', h'', eq_comm]

theorem compGas_ok_iff {c c' : Ccb} :
    compGas c = .ok c' ↔
      Ccb.flag c .rawValid = true ∧ c.rseW = true ∧
        ∃ g, gasOf c = .ok g ∧ c' = { c with gasOut := g, status := Status.afterComp c.status .gasFresh } := by
  unfold compGas
  split <;> rename_i h
  · simp [h]
  · split <;> rename_i h'
    · simp [h']
    · simp only [Bool.not_eq_false] at h h'
      cases hp : gasOf c <;> simp [h, h', eq_comm]

@[simp] theorem nop_ok (c : Ccb) : nop c = .ok { c with status := Status.put c.status .lastFault false } := rfl

@[simp] theorem clrStatus_ok (c : Ccb) :
    clrStatus c = .ok { c with err := 0x0000, status := Status.put c.status .lastFault false } := rfl

@[simp] theorem softReset_ok (c : Ccb) : softReset c = .ok Ccb.reset := rfl

@[simp] theorem illegalCommand_error (c : Ccb) : illegalCommand c = .error .illegalCmd := rfl

/-! ### Bus writes and reads -/

/-- A bus write runs a command, stores into an input register, or is a bus error (20 R33). -/
theorem memWrite_cases (execute : Byte → Ccb → Ccb) (a : Addr) (d : Byte) (c : Ccb) :
    (a = cmdAddr ∧ memWrite execute a d c = execute d c) ∨
    (∃ i : Fin 41, a.toNat = i ∧ memWrite execute a d c =
      { c with calbuf := c.calbuf.set i d, calWMask := c.calWMask ||| BitVec.twoPow 41 i }) ∨
    (∃ i : Fin 10, a.toNat = 0x30 + i ∧ memWrite execute a d c =
      { c with rawbuf := c.rawbuf.set i d, rawWMask := c.rawWMask ||| BitVec.twoPow 10 i }) ∨
    (a = 0x29 ∧ memWrite execute a d c = { c with heatRangeRaw := d }) ∨
    (a = 0x2A ∧ memWrite execute a d c = { c with heatValRaw := d }) ∨
    (a = 0x2B ∧ memWrite execute a d c =
      { c with rseRaw := d, rseW := true, status := Status.put c.status .gasFresh false }) ∨
    (a = 0x3A ∧ memWrite execute a d c =
      { c with tOffset := c.tOffset.extractLsb' 8 8 ++ d, status := Status.put c.status .tempFresh false }) ∨
    (a = 0x3B ∧ memWrite execute a d c =
      { c with tOffset := d ++ c.tOffset.extractLsb' 0 8, status := Status.put c.status .tempFresh false }) ∨
    ((0x3D ≤ a.toNat ∨ (0x2C ≤ a.toNat ∧ a.toNat ≤ 0x2F)) ∧ memWrite execute a d c = busError c) := by
  have toAddr : ∀ n : Nat, n < 256 → a.toNat = n → a = BitVec.ofNat 8 n := by
    intro n hn h
    apply BitVec.eq_of_toNat_eq
    simp [h, Nat.mod_eq_of_lt hn]
  by_cases h1 : a.toNat < 41
  · refine .inr (.inl ⟨⟨a.toNat, h1⟩, rfl, ?_⟩)
    simp [memWrite, locate_calbuf a h1]
  by_cases h2 : a.toNat = 0x29
  · obtain rfl := toAddr _ (by omega) h2
    exact .inr (.inr (.inr (.inl ⟨rfl, rfl⟩)))
  by_cases h3 : a.toNat = 0x2A
  · obtain rfl := toAddr _ (by omega) h3
    exact .inr (.inr (.inr (.inr (.inl ⟨rfl, rfl⟩))))
  by_cases h4 : a.toNat = 0x2B
  · obtain rfl := toAddr _ (by omega) h4
    exact .inr (.inr (.inr (.inr (.inr (.inl ⟨rfl, rfl⟩)))))
  by_cases h5 : 0x30 ≤ a.toNat ∧ a.toNat < 0x30 + 10
  · refine .inr (.inr (.inl ⟨⟨a.toNat - 0x30, by omega⟩, by simp; omega, ?_⟩))
    simp [memWrite, locate_rawbuf a h5]
  by_cases h6 : a.toNat = 0x3A
  · obtain rfl := toAddr _ (by omega) h6
    exact .inr (.inr (.inr (.inr (.inr (.inr (.inl ⟨rfl, rfl⟩))))))
  by_cases h7 : a.toNat = 0x3B
  · obtain rfl := toAddr _ (by omega) h7
    exact .inr (.inr (.inr (.inr (.inr (.inr (.inr (.inl ⟨rfl, rfl⟩)))))))
  by_cases h8 : a.toNat = 0x3C
  · obtain rfl := toAddr _ (by omega) h8
    exact .inl ⟨rfl, rfl⟩
  · refine .inr (.inr (.inr (.inr (.inr (.inr (.inr (.inr ⟨by omega, ?_⟩)))))))
    unfold memWrite locate
    rw [dif_neg h1, if_neg h2, if_neg h3, if_neg h4, dif_neg h5, if_neg h6, if_neg h7, if_neg h8]
    cases hf : roRows.find? (fun r => r.covers a.toNat) <;> rfl

/-- A bus read changes nothing, or raises E_BUS at a reserved address (20 R30). -/
theorem afterRead_eq (a : Addr) (c : Ccb) : afterRead a c = if isReserved a then busError c else c := by
  by_cases h : locate a = .reserved
  · simp [afterRead, h, (locate_reserved a).1 h]
  · have hr : isReserved a = false := by
      have := mt (locate_reserved a).2 h
      simpa using this
    unfold afterRead
    rw [hr]
    split <;> simp_all

/-- The byte at a place of a read-only register (20 R30). -/
theorem readByte_readOnly {row : RoRow} (hr : row ∈ roRows) {k : Nat} (hk : k < row.width) (c : Ccb) :
    readByte (BitVec.ofNat 8 (row.base + k)) c = imageByte row.width (roValue c row.reg) k := by
  simp [readByte, locate_readOnly row hr k hk, readLoc]

theorem int_emod_mul_ediv (v a b : Int) (ha : 0 < a) (hb : 0 < b) : v % (a * b) / a = v / a % b := by
  have h1 := Int.emod_add_mul_ediv v (a*b)
  have h2 : v = v % (a*b) + a * (b * (v / (a*b))) := by rw [← mul_assoc]; exact h1.symm
  have h3 : v / a = v % (a*b) / a + b * (v / (a*b)) := by
    conv_lhs => rw [h2]
    rw [Int.add_mul_ediv_left _ _ ha.ne']
  rw [h3, Int.add_mul_emod_self_left]
  refine (Int.emod_eq_of_lt (Int.ediv_nonneg (Int.emod_nonneg _ (by positivity)) ha.le) ?_).symm
  exact Int.ediv_lt_of_lt_mul ha (by rw [mul_comm]; exact Int.emod_lt_of_pos _ (by positivity))

/-- `imageByte` is the spec's formula: byte k of v modulo 2^(8w), for a byte of the register (20 R30). -/
theorem imageByte_eq (w : Nat) (v : Int) (k : Nat) (hk : k < w) :
    imageByte w v k = BitVec.ofInt 8 (v / 2 ^ (8 * k)) := by
  apply BitVec.eq_of_toNat_eq
  have hpow : (2:Int) ^ (8 * w) = 2 ^ (8 * k) * (256 * 2 ^ (8 * (w - k - 1))) := by
    rw [show (256:Int) = 2^8 by norm_num, ← pow_add, ← pow_add]
    congr 1
    omega
  simp only [imageByte, BitVec.extractLsb'_toNat, BitVec.toNat_ofInt, Nat.shiftRight_eq_div_pow]
  zify
  rw [Int.toNat_of_nonneg (Int.emod_nonneg _ (by positivity)), Int.toNat_of_nonneg (Int.emod_nonneg _ (by positivity))]
  push_cast
  rw [hpow, int_emod_mul_ediv _ _ _ (by positivity) (by positivity)]
  norm_num

end Sys2Proof.Machine
end

