-- ==== Sys2Proof/Laws/Step.lean ====
section
/-! SUPPORT. What exec and step answer, and the one induction behind every invariant: what each write of the block keeps, every step keeps. -/

namespace Sys2Proof.Machine

/-! ### Decoding -/

theorem decode_eq_ok_lt {w : Nat} {i : Instr} (h : decode w = .ok i) : w < 2 ^ 17 := by
  unfold decode at h
  split at h
  · assumption
  · cases h

/-- The command table's codes are those 30 R43 lists, and each is found. -/
theorem decodeCommand_isSome (d : Byte) : (decodeCommand d).isSome = isCommandCode d := by
  revert d
  decide

/-- A command byte never selects a bus transaction. -/
theorem decodeCommand_command {d : Byte} {i : Instr} (h : decodeCommand d = some i) :
    i ∈ commandTable.map Prod.snd := by
  revert h i
  revert d
  decide

/-! ### exec -/

/-- Every instruction answers a next state in every state: no command or transaction stops the block. -/
theorem exec_completes (i : Instr) (s : State) : ∃ t, exec i s = .next t := by
  cases i <;> exact ⟨_, rfl⟩

/-- No instruction touches what the host has still to deliver. -/
theorem exec_pending {i : Instr} {s t : State} (h : exec i s = .next t) : t.pending = s.pending := by
  cases i <;> cases h <;> rfl

/-- An instruction is a run of commands, a bus write or a bus read. -/
theorem exec_cases {i : Instr} {s t : State} (h : exec i s = .next t) :
    (∃ fs, (∀ f ∈ fs, f ∈ [nop, calLoad, clrStatus, softReset] ++ readCycle) ∧
      t = { s with ccb := runCommands fs s.ccb }) ∨
    (∃ a d, i = .wr a d ∧ t = { s with ccb := memWrite executeCommand a d s.ccb }) ∨
    (∃ a, i = .rd a ∧
      t = { s with ccb := afterRead a s.ccb, returned := s.returned ++ [readByte a s.ccb] }) := by
  cases i with
  | wr a d => exact .inr (.inl ⟨a, d, rfl, (Host.Outcome.next.inj h).symm⟩)
  | rd a => exact .inr (.inr ⟨a, rfl, (Host.Outcome.next.inj h).symm⟩)
  | nop => exact .inl ⟨[nop], by simp, (Host.Outcome.next.inj h).symm⟩
  | calLoad => exact .inl ⟨[calLoad], by simp, (Host.Outcome.next.inj h).symm⟩
  | unpack => exact .inl ⟨[unpackSample], by simp [readCycle], (Host.Outcome.next.inj h).symm⟩
  | compT => exact .inl ⟨[compTemperature], by simp [readCycle], (Host.Outcome.next.inj h).symm⟩
  | compP => exact .inl ⟨[compPressure], by simp [readCycle], (Host.Outcome.next.inj h).symm⟩
  | compH => exact .inl ⟨[compHumidity], by simp [readCycle], (Host.Outcome.next.inj h).symm⟩
  | compG => exact .inl ⟨[compGas], by simp [readCycle], (Host.Outcome.next.inj h).symm⟩
  | compAll => exact .inl ⟨readCycle, fun f hf => List.mem_append_right _ hf, (Host.Outcome.next.inj h).symm⟩
  | clrStatus => exact .inl ⟨[clrStatus], by simp, (Host.Outcome.next.inj h).symm⟩
  | srst => exact .inl ⟨[softReset], by simp, (Host.Outcome.next.inj h).symm⟩

/-- The commands a byte runs are the block's nine commands or the illegal-command fault. -/
theorem commandsOf_mem (d : Byte) :
    ∀ f ∈ commandsOf d, f ∈ [nop, calLoad, clrStatus, softReset] ++ readCycle ∨ f = illegalCommand := by
  intro f hf
  unfold commandsOf at hf
  split at hf <;> simp_all [readCycle]

/-- A byte selects a command exactly when the two stand together in the command map (30 R43). -/
theorem decodeCommand_iff_mem : ∀ (d : Byte) (i : Instr), decodeCommand d = some i ↔ (d, i) ∈ commandTable := by
  intro d i
  unfold decodeCommand commandTable
  constructor
  · intro h
    obtain ⟨l₁, l₂, hl, _⟩ := List.lookup_eq_some_iff.1 h
    rw [hl]
    simp
  · intro h
    fin_cases h <;> rfl

/-- A command is the run of the commands of its code. -/
theorem exec_command {d : Byte} {i : Instr} (h : decodeCommand d = some i) (s : State) :
    exec i s = commandStep (commandsOf d) s := by
  have hm := (decodeCommand_iff_mem d i).1 h
  unfold commandTable at hm
  fin_cases hm <;> rfl

/-- To show something of every instruction: the writes elsewhere than CMD, the writes to CMD of a
reserved code, each command and its write to CMD together, and the reads. -/
theorem forall_instr {P : Instr → Prop} (write : ∀ a d, a ≠ cmdAddr → P (.wr a d))
    (illegal : ∀ d, decodeCommand d = none → P (.wr cmdAddr d))
    (command : ∀ d i, decodeCommand d = some i → P i ∧ P (.wr cmdAddr d)) (read : ∀ a, P (.rd a)) (i : Instr) :
    P i := by
  cases i with
  | wr a d =>
    by_cases ha : a = cmdAddr
    · subst ha
      cases h : decodeCommand d with
      | none => exact illegal d h
      | some i => exact (command d i h).2
    · exact write a d ha
  | rd a => exact read a
  | nop => exact (command 0x00 _ (by decide)).1
  | calLoad => exact (command 0x01 _ (by decide)).1
  | unpack => exact (command 0x02 _ (by decide)).1
  | compT => exact (command 0x03 _ (by decide)).1
  | compP => exact (command 0x04 _ (by decide)).1
  | compH => exact (command 0x05 _ (by decide)).1
  | compG => exact (command 0x06 _ (by decide)).1
  | compAll => exact (command 0x07 _ (by decide)).1
  | clrStatus => exact (command 0x08 _ (by decide)).1
  | srst => exact (command 0x0F _ (by decide)).1

/-! ### What every step keeps -/

/-- A property that each write of the block keeps. -/
structure KeptByBlock (P : Ccb → Prop) : Prop where
  fault : ∀ e c, P c → P (faultEntry e c)
  busFault : ∀ c, P c → P (busError c)
  nop : ∀ c, P c → P { c with status := Status.put c.status .lastFault false }
  clrStatus : ∀ c, P c → P { c with err := 0x0000, status := Status.put c.status .lastFault false }
  reset : P Ccb.reset
  calLoad : ∀ c c', P c → calLoad c = .ok c' → P c'
  unpack : ∀ c c', P c → unpackSample c = .ok c' → P c'
  compT : ∀ c c', P c → compTemperature c = .ok c' → P c'
  compP : ∀ c c', P c → compPressure c = .ok c' → P c'
  compH : ∀ c c', P c → compHumidity c = .ok c' → P c'
  compG : ∀ c c', P c → compGas c = .ok c' → P c'
  calbuf : ∀ (c : Ccb) (i : Fin 41) d, P c →
    P { c with calbuf := c.calbuf.set i d, calWMask := c.calWMask ||| BitVec.twoPow 41 i }
  rawbuf : ∀ (c : Ccb) (i : Fin 10) d, P c →
    P { c with rawbuf := c.rawbuf.set i d, rawWMask := c.rawWMask ||| BitVec.twoPow 10 i }
  heatRange : ∀ c d, P c → P { c with heatRangeRaw := d }
  heatVal : ∀ c d, P c → P { c with heatValRaw := d }
  rse : ∀ c d, P c → P { c with rseRaw := d, rseW := true, status := Status.put c.status .gasFresh false }
  offset : ∀ c v, P c → P { c with tOffset := v, status := Status.put c.status .tempFresh false }

/-- The commands of the block keep it. -/
theorem KeptByBlock.command {P : Ccb → Prop} (k : KeptByBlock P) :
    ∀ f ∈ [Machine.nop, Machine.calLoad, Machine.clrStatus, softReset] ++ readCycle,
      ∀ c c', P c → f c = .ok c' → P c' := by
  intro f hf c c' hc h
  simp only [readCycle, List.cons_append, List.nil_append, List.mem_cons, List.not_mem_nil, or_false] at hf
  rcases hf with rfl | rfl | rfl | rfl | rfl | rfl | rfl | rfl | rfl
  · cases h
    exact k.nop c hc
  · exact k.calLoad c c' hc h
  · cases h
    exact k.clrStatus c hc
  · cases h
    exact k.reset
  · exact k.unpack c c' hc h
  · exact k.compT c c' hc h
  · exact k.compP c c' hc h
  · exact k.compH c c' hc h
  · exact k.compG c c' hc h

/-- Executing a command byte keeps it. -/
theorem KeptByBlock.execute {P : Ccb → Prop} (k : KeptByBlock P) (d : Byte) (c : Ccb) (hc : P c) :
    P (executeCommand d c) := by
  refine runCommands_keeps P k.fault _ c ?_ hc
  intro f hf c c' hc h
  rcases commandsOf_mem d f hf with hm | rfl
  · exact k.command f hm c c' hc h
  · cases h

/-- A bus write keeps it. -/
theorem KeptByBlock.write {P : Ccb → Prop} (k : KeptByBlock P) (a : Addr) (d : Byte) (c : Ccb) (hc : P c) :
    P (memWrite executeCommand a d c) := by
  rcases memWrite_cases executeCommand a d c with ⟨_, h⟩ | ⟨i, _, h⟩ | ⟨i, _, h⟩ | ⟨_, h⟩ | ⟨_, h⟩ | ⟨_, h⟩ |
    ⟨_, h⟩ | ⟨_, h⟩ | ⟨_, h⟩ <;> rw [h]
  · exact k.execute d c hc
  · exact k.calbuf c i d hc
  · exact k.rawbuf c i d hc
  · exact k.heatRange c d hc
  · exact k.heatVal c d hc
  · exact k.rse c d hc
  · exact k.offset c _ hc
  · exact k.offset c _ hc
  · exact k.busFault c hc

/-- Every instruction keeps it. -/
theorem KeptByBlock.exec {P : Ccb → Prop} (k : KeptByBlock P) {i : Instr} {s t : State}
    (h : Machine.exec i s = .next t) (hs : P s.ccb) : P t.ccb := by
  rcases exec_cases h with ⟨fs, hfs, rfl⟩ | ⟨a, d, _, rfl⟩ | ⟨a, _, rfl⟩
  · exact runCommands_keeps P k.fault fs s.ccb (fun f hf => k.command f (hfs f hf)) hs
  · exact k.write a d s.ccb hs
  · show P (afterRead a s.ccb)
    rw [afterRead_eq]
    split
    · exact k.busFault _ hs
    · exact hs

/-- What one step answers, by the host's next input. -/
theorem step_cases {s t : State} (h : step s = .next t) :
    (s.pending = [] ∧ t = s) ∨
    (∃ rest, s.pending = .powerOn :: rest ∧ t = { s with ccb := Ccb.reset, pending := rest }) ∨
    (∃ w rest i, s.pending = .word w :: rest ∧ decode w = .ok i ∧
      exec i { s with pending := rest } = .next t) := by
  unfold step takeInput at h
  cases hp : s.pending with
  | nil =>
    rw [hp] at h
    exact .inl ⟨rfl, (Host.Outcome.next.inj h).symm⟩
  | cons x rest =>
    rw [hp] at h
    cases x with
    | powerOn => exact .inr (.inl ⟨rest, rfl, (Host.Outcome.next.inj h).symm⟩)
    | word w =>
      cases hd : decode w with
      | ok i =>
        refine .inr (.inr ⟨w, rest, i, rfl, hd, ?_⟩)
        simpa [hd] using h
      | error why => simp [hd] at h

/-- Every step keeps it. -/
theorem KeptByBlock.step {P : Ccb → Prop} (k : KeptByBlock P) {s t : State}
    (h : Machine.step s = .next t) (hs : P s.ccb) : P t.ccb := by
  rcases step_cases h with ⟨_, rfl⟩ | ⟨rest, _, rfl⟩ | ⟨w, rest, i, _, _, he⟩
  · exact hs
  · exact k.reset
  · exact k.exec he hs

/-- It holds in every state a host can drive the machine to. -/
theorem KeptByBlock.reachable {P : Ccb → Prop} (k : KeptByBlock P) {s : State} (h : Reachable s) : P s.ccb := by
  induction h with
  | reset => exact k.reset
  | host s inputs _ ih => exact ih
  | step s t _ hst ih => exact k.step hst ih

end Sys2Proof.Machine
end

