-- ==== Sys2Proof/Laws/Buffers.lean ====
section
/-! SUPPORT. The fields of the two input buffers as numbers, the way the rules write them (00 R7, 40 R54, 41 R57). -/

namespace Sys2Proof.Machine

/-- `u16(lo, hi)` is `B[lo] + 256 * B[hi]` (00 R7). -/
theorem u16_toNat (lo hi : Byte) : (u16 lo hi).toNat = lo.toNat + 256 * hi.toNat := by
  show (hi ++ lo : BitVec (8 + 8)).toNat = _
  rw [BitVec.toNat_append, ← Nat.shiftLeft_add_eq_or_of_lt (BitVec.isLt _), Nat.shiftLeft_eq]
  omega

/-- `sext_16(u16(lo, hi))`. -/
theorem u16_toInt (lo hi : Byte) : (u16 lo hi).toInt = ((lo.toNat : Int) + 256 * hi.toNat).bmod 65536 := by
  rw [BitVec.toInt_eq_toNat_bmod, u16_toNat]
  push_cast
  rfl

/-- `sext_8(B)`. -/
theorem byte_toInt (b : Byte) : b.toInt = (b.toNat : Int).bmod 256 := by rw [BitVec.toInt_eq_toNat_bmod]

/-- `(a << 4) | b[3:0]`, the form of H1 (30 R46). -/
theorem lowNibble_toNat (a b : Byte) :
    (a ++ b.extractLsb' 0 4 : BitVec 12).toNat = a.toNat * 16 + b.toNat % 16 := by
  show (a ++ b.extractLsb' 0 4 : BitVec (8 + 4)).toNat = _
  rw [BitVec.toNat_append, ← Nat.shiftLeft_add_eq_or_of_lt (BitVec.isLt _), Nat.shiftLeft_eq]
  simp [BitVec.extractLsb'_toNat]

/-- `(a << 4) | b[7:4]`, the form of H2 (30 R46). -/
theorem highNibble_toNat (a b : Byte) :
    (a ++ b.extractLsb' 4 4 : BitVec 12).toNat = a.toNat * 16 + b.toNat / 16 := by
  show (a ++ b.extractLsb' 4 4 : BitVec (8 + 4)).toNat = _
  rw [BitVec.toNat_append, ← Nat.shiftLeft_add_eq_or_of_lt (BitVec.isLt _), Nat.shiftLeft_eq]
  simp [BitVec.extractLsb'_toNat, Nat.shiftRight_eq_div_pow]
  have := b.isLt
  omega

/-- The 20-bit code is the 24-bit concatenation shifted right by 4 (41 R57). -/
theorem code20_toNat (a b c : Byte) :
    (code20 a b c).toNat = (a.toNat * 2 ^ 16 + b.toNat * 2 ^ 8 + c.toNat) / 2 ^ 4 := by
  have e : (a ++ b ++ c : BitVec 24).toNat = a.toNat * 2 ^ 16 + b.toNat * 2 ^ 8 + c.toNat := by
    show (a ++ b ++ c : BitVec (8 + 8 + 8)).toNat = _
    iterate 2 rw [BitVec.toNat_append, ← Nat.shiftLeft_add_eq_or_of_lt (BitVec.isLt _), Nat.shiftLeft_eq]
    omega
  unfold code20
  rw [BitVec.toNat_setWidth, BitVec.toNat_ushiftRight, e, Nat.shiftRight_eq_div_pow]
  have := a.isLt
  have := b.isLt
  have := c.isLt
  omega

end Sys2Proof.Machine
end

