-- ==== Sys2Proof/Laws/Compensation.lean ====
section
/-! SUPPORT. What each compensation function reads, and when it answers a value. -/

namespace Sys2Proof.Machine

theorem pOvfThreshold_eq : Config.pOvfThreshold = 2 ^ 31 := by decide

theorem clamp_eq_max_min (v lo hi : Int) (h : lo ≤ hi) : clamp v lo hi = max lo (min v hi) := by
  unfold clamp
  split_ifs <;> omega

/-- T_FINE's function reads ADC_T and T1..T3, and not the offset (10 R19). -/
theorem temperatureOf_fst (c : Ccb) :
    (temperatureOf c).1 = fineTemp c.adcT.toNat c.coef.t1.toNat c.coef.t2.toInt c.coef.t3.toInt := rfl

theorem temperatureOf_snd (c : Ccb) :
    (temperatureOf c).2 = centiDegrees (temperatureOf c).1 + c.tOffset.toInt := rfl

/-- compP answers exactly when its divisor is not 0 and its result fits (42 R61). -/
theorem compP_ok_iff {tFine adcP p1 p2 p3 p4 p5 p6 p7 p8 p9 p10 p : Int} :
    compP tFine adcP p1 p2 p3 p4 p5 p6 p7 p8 p9 p10 = .ok p ↔
      pressDivisor tFine p1 p2 p3 ≠ 0 ∧
      p = pressCorrected (pressQuotient Config.pOvfThreshold (pressDividend tFine adcP p4 p5 p6)
        (pressDivisor tFine p1 p2 p3)) p7 p8 p9 p10 ∧
      -2147483648 ≤ p ∧ p ≤ 2147483647 := by
  unfold compP
  simp only
  by_cases h : pressDivisor tFine p1 p2 p3 = 0
  · simp [h]
  · rw [if_neg h]
    split
    · next hf =>
      rw [fitsSigned32_iff] at hf
      constructor
      · intro hp
        cases hp
        exact ⟨h, rfl, hf⟩
      · rintro ⟨_, rfl, _⟩
        rfl
    · next hf =>
      rw [fitsSigned32_iff] at hf
      constructor
      · intro hp
        cases hp
      · rintro ⟨_, rfl, hr⟩
        exact absurd hr hf

/-- A pressure that compP answers is held by PRESS_OUT as it is. -/
theorem pressureOf_toInt {c : Ccb} {p : Int} (h : pressureOf c = .ok p) : (BitVec.ofInt 32 p).toInt = p := by
  obtain ⟨_, _, h1, h2⟩ := compP_ok_iff.1 h
  rw [BitVec.toInt_ofInt]
  apply Int.bmod_eq_of_le <;> norm_num <;> omega

/-- compG answers exactly when its denominator is positive (42 R67). -/
theorem compG_ok_iff {adcG : Int} {r : BitVec 4} {e : Int} {g : BitVec 64} :
    compG adcG r e = .ok g ↔
      Binary64.isPositive (gasDenominator adcG r e) = true ∧
      g = Binary64.div (Binary64.mul (gasVar1 r e) (gasK2 r)) (gasDenominator adcG r e) := by
  unfold compG
  simp only
  split
  · next h => exact ⟨fun hg => ⟨h, (Except.ok.inj hg).symm⟩, fun hg => by rw [hg.2]⟩
  · next h => exact ⟨fun hg => (nomatch hg), fun hg => absurd hg.1 h⟩

end Sys2Proof.Machine
end

