-- ==== Sys2Proof/Laws/Decode.lean ====
section
/-! SUPPORT. The fields of a bus word put together from fields, and a bus word put together from its own fields. -/

namespace Sys2Proof

/-- The bits of a word put together from its fields (30 R41). -/
theorem busWord_getLsbD (w : BitVec 1) (a : Addr) (d : Byte) (i : Nat) :
    (busWord w a d).getLsbD i =
      if i < 8 then d.getLsbD i else if i < 16 then a.getLsbD (i - 8) else w.getLsbD (i - 16) := by
  show (w ++ a ++ d : BitVec (1 + 8 + 8)).getLsbD i = _
  rw [BitVec.getLsbD_append, BitVec.getLsbD_append]
  by_cases h : i < 8
  · rw [if_pos h, if_pos h]
  · rw [if_neg h, if_neg h]
    by_cases h' : i < 16
    · rw [if_pos (show i - 8 < 8 by omega), if_pos h']
    · rw [if_neg (show ¬ i - 8 < 8 by omega), if_neg h', show i - 8 - 8 = i - 16 by omega]

@[simp] theorem busWord_isWrite (w : BitVec 1) (a : Addr) (d : Byte) :
    BusWord.isWrite (busWord w a d) = w.getLsbD 0 := busWord_getLsbD w a d 16

@[simp] theorem busWord_addr (w : BitVec 1) (a : Addr) (d : Byte) : BusWord.addr (busWord w a d) = a := by
  apply BitVec.eq_of_getLsbD_eq
  intro i hi
  rw [BusWord.addr, BitVec.getLsbD_extractLsb', busWord_getLsbD, if_neg (show ¬ 8 + i < 8 by omega),
    if_pos (show 8 + i < 16 by omega), show 8 + i - 8 = i by omega]
  simp [hi]

@[simp] theorem busWord_data (w : BitVec 1) (a : Addr) (d : Byte) : BusWord.data (busWord w a d) = d := by
  apply BitVec.eq_of_getLsbD_eq
  intro i hi
  rw [BusWord.data, BitVec.getLsbD_extractLsb', busWord_getLsbD, if_pos (show 0 + i < 8 by omega),
    Nat.zero_add]
  simp [hi]

/-- A bus word is its three fields (30 R41). -/
theorem busWord_fields (b : BusWord) :
    busWord (if BusWord.isWrite b then 1 else 0) (BusWord.addr b) (BusWord.data b) = b := by
  apply BitVec.eq_of_getLsbD_eq
  intro i hi
  rw [busWord_getLsbD]
  unfold BusWord.data BusWord.addr BusWord.isWrite
  rw [BitVec.getLsbD_extractLsb', BitVec.getLsbD_extractLsb']
  by_cases h1 : i < 8
  · simp [h1]
  · by_cases h2 : i < 16
    · rw [if_neg h1, if_pos h2, show 8 + (i - 8) = i by omega]
      simp [show i - 8 < 8 by omega]
    · obtain rfl : i = 16 := by omega
      rw [if_neg h1, if_neg h2]
      cases h : b.getLsbD 16 <;> rfl

/-- A bus word as a number: `W * 2^16 + A * 2^8 + D` (30 R41, 00 R7). -/
theorem busWord_toNat (w : BitVec 1) (a : Addr) (d : Byte) :
    (busWord w a d).toNat = w.toNat * 65536 + a.toNat * 256 + d.toNat := by
  show (w ++ a ++ d : BitVec (1 + 8 + 8)).toNat = _
  have ha := a.isLt
  have hd := d.isLt
  rw [BitVec.toNat_append, BitVec.toNat_append, ← Nat.shiftLeft_add_eq_or_of_lt hd,
    ← Nat.shiftLeft_add_eq_or_of_lt ha, Nat.shiftLeft_eq, Nat.shiftLeft_eq]
  ring

end Sys2Proof
end

