-- ==== Sys2Proof/Laws/PerInstr.lean ====
section
/-! SUPPORT. Per-instruction family TableRow: an instruction's word matches its row of spec/opcode_table.json. -/

namespace Sys2Proof.Laws.TableRow

/-- The row's match value as a BT17 word (opcode_table.json: "match", and "bt17" for the commands). -/
def rowMatch : Instr → BusWord
  | .wr _ _ => 0x10000
  | .rd _ => 0x00000
  | .nop => 0x13C00
  | .calLoad => 0x13C01
  | .unpack => 0x13C02
  | .compT => 0x13C03
  | .compP => 0x13C04
  | .compH => 0x13C05
  | .compG => 0x13C06
  | .compAll => 0x13C07
  | .clrStatus => 0x13C08
  | .srst => 0x13C0F

/-- The row's mask on a BT17 word (opcode_table.json). -/
def rowMask : Instr → BusWord
  | .wr _ _ => 0x10000
  | .rd _ => 0x100FF
  | .nop => 0x1FFFF
  | .calLoad => 0x1FFFF
  | .unpack => 0x1FFFF
  | .compT => 0x1FFFF
  | .compP => 0x1FFFF
  | .compH => 0x1FFFF
  | .compG => 0x1FFFF
  | .compAll => 0x1FFFF
  | .clrStatus => 0x1FFFF
  | .srst => 0x1FFFF

/-- The instruction's word has its row's bits. -/
def Statement (i : Instr) : Prop := encode i &&& rowMask i = rowMatch i

theorem wr (a : Addr) (d : Byte) : Statement (.wr a d) := by
  show busWord 1 a d &&& 0x10000 = 0x10000
  apply BitVec.eq_of_getLsbD_eq
  intro i hi
  rw [BitVec.getLsbD_and, busWord_getLsbD]
  interval_cases i <;> simp

theorem rd (a : Addr) : Statement (.rd a) := by
  show busWord 0 a 0x00 &&& 0x100FF = 0x00000
  apply BitVec.eq_of_getLsbD_eq
  intro i hi
  rw [BitVec.getLsbD_and, busWord_getLsbD]
  interval_cases i <;> simp

theorem nop : Statement .nop := by unfold Statement; decide
theorem calLoad : Statement .calLoad := by unfold Statement; decide
theorem unpack : Statement .unpack := by unfold Statement; decide
theorem compT : Statement .compT := by unfold Statement; decide
theorem compP : Statement .compP := by unfold Statement; decide
theorem compH : Statement .compH := by unfold Statement; decide
theorem compG : Statement .compG := by unfold Statement; decide
theorem compAll : Statement .compAll := by unfold Statement; decide
theorem clrStatus : Statement .clrStatus := by unfold Statement; decide
theorem srst : Statement .srst := by unfold Statement; decide

end Sys2Proof.Laws.TableRow
end

