-- ==== Sys2Proof/Tests/Slice0.lean ====
section
/-! SUPPORT. Tests: words written out from the spec's encodings, vectors of 95_test_vectors.md computed by one step each, and for every statement with hypotheses a witness that meets them. -/

namespace Sys2Proof.Tests

open Sys2Proof Sys2Proof.Machine

/-! ## Small states -/

/-- A machine with the given block and nothing pending. -/
def st (c : Ccb) : State := { State.reset with ccb := c }

/-- The block after one instruction. -/
def after (i : Instr) (c : Ccb) : Ccb := (nextOr State.reset (exec i (st c))).ccb

/-- The CALBUF bytes of vector CAL-1 (95 L2.1). -/
def calBytes : Vector Byte 41 :=
  #v[0x00, 0x84, 0x67, 0x03, 0x00, 0xA0, 0x8C, 0x60, 0xD7, 0x58, 0x00, 0x58, 0x1B, 0x9C, 0xFF, 0x23, 0x1E, 0x00,
     0x00, 0x48, 0xF4, 0x74, 0xF5, 0x1E, 0x00, 0x3E, 0x8C, 0x2B, 0x00, 0x2D, 0x14, 0x78, 0x9C, 0x90, 0x65, 0x20,
     0xD1, 0xE2, 0x12, 0x00, 0x00]

/-- The fields of vector CAL-1 (95 L2.1). -/
def coef1 : Coef :=
  { t1 := 26000, t2 := 26500, t3 := 3, p1 := 36000, p2 := -10400, p3 := 88, p4 := 7000, p5 := -100, p6 := 30,
    p7 := 35, p8 := -3000, p9 := -2700, p10 := 30, h1 := 700, h2 := 1000, h3 := 0, h4 := 45, h5 := 20, h6 := 120,
    h7 := -100, gh1 := -30, gh2 := -12000, gh3 := 18 }

/-- CAL-1 written, not yet loaded. -/
def calWritten : Ccb := { Ccb.reset with calbuf := calBytes, calWMask := BitVec.allOnes 41 }

/-- The RAWBUF bytes of vector RAW-1 written over a block, not yet unpacked (95 L2.3). -/
def withRaw1 (c : Ccb) : Ccb :=
  { c with
    rawbuf := #v[0x7A, 0x12, 0x00, 0x61, 0xA8, 0x00, 0x61, 0xA8, 0x4B, 0x07]
    rawWMask := BitVec.allOnes 10 }

/-- CAL-1 loaded, RSE_RAW = 0x20 and RAW-1 written: the start of vector K-7. -/
def readyForAll : Ccb := withRaw1 { Ccb.reset with coef := coef1, status := 0x01, rseRaw := 0x20, rseW := true }

/-- CAL-1 and RAW-1 taken in, nothing computed. -/
def sampled : Ccb :=
  { Ccb.reset with
    coef := coef1, status := 0x03, adcT := 500000, adcP := 400000, adcH := 25000, adcG := 300, gasRange := 7
    rseRaw := 0x20, rseW := true }

/-- The same with the fine temperature of vector T-1. -/
def warmed : Ccb := { sampled with status := 0x0F, tFine := 135883, tempOut := 2654 }

/-- Everything computed and fresh: the outputs of vector K-7. -/
def computed : Ccb :=
  { warmed with status := 0x7F, pressOut := 93139, humOut := 7699, gasOut := 0x40F24659E9D7E55C }

/-! ## Well-formedness and words -/

/-- A write of an assigned command code to CMD is the command's word, so the term is refused. -/
theorem test_wellFormed_refuses_wr_of_a_command :
    Instr.wellFormed (.wr 0x3C 0x00) = false ∧ Instr.wellFormed (.wr 0x3C 0x08) = false ∧
      Instr.wellFormed (.wr 0x3C 0x0F) = false ∧ Instr.wellFormed (.wr 0x3C 0x09) = true ∧
      Instr.wellFormed (.wr 0x3C 0x0E) = true ∧ Instr.wellFormed (.wr 0x3C 0x10) = true ∧
      Instr.wellFormed (.wr 0x3B 0x00) = true := by decide

/-- 30 R41: bit 16 W, bits 15:8 A, bits 7:0 D, written out bit by bit. -/
theorem test_decode_wr : decode 0b10011101001101010 = .ok (.wr 0x3A 0x6A) := by decide
theorem test_decode_rd : decode 0b01000000100000000 = .ok (.rd 0x81) := by decide
theorem test_decode_nop : decode 0b10011110000000000 = .ok .nop := by decide
theorem test_decode_calLoad : decode 0b10011110000000001 = .ok .calLoad := by decide
theorem test_decode_unpack : decode 0b10011110000000010 = .ok .unpack := by decide
theorem test_decode_compT : decode 0b10011110000000011 = .ok .compT := by decide
theorem test_decode_compP : decode 0b10011110000000100 = .ok .compP := by decide
theorem test_decode_compH : decode 0b10011110000000101 = .ok .compH := by decide
theorem test_decode_compG : decode 0b10011110000000110 = .ok .compG := by decide
theorem test_decode_compAll : decode 0b10011110000000111 = .ok .compAll := by decide
theorem test_decode_clrStatus : decode 0b10011110000001000 = .ok .clrStatus := by decide
theorem test_decode_srst : decode 0b10011110000001111 = .ok .srst := by decide

/-- 93 U18, U19 and 95 B-11: words that are no transaction. -/
theorem test_decode_refuses :
    decode 0x03C01 = .error .readWithData ∧ decode 0x0FF80 = .error .readWithData ∧
      decode 0x20000 = .error .tooWide ∧ decode 0x33C07 = .error .tooWide := by decide

/-- 30 R44: a reserved code decodes to the write itself. -/
theorem test_decode_reserved_code :
    decode 0x13C09 = .ok (.wr 0x3C 0x09) ∧ decode 0x13CFF = .ok (.wr 0x3C 0xFF) := by decide

/-- opcode_table.json: a CMD8 row is a data byte written to CMD, a BT17 row a word in three bytes. -/
theorem test_tableWords :
    decodeTableWord 8 0x07 = some .compAll ∧ decodeTableWord 8 0x0F = some .srst ∧
      decodeTableWord 24 0x10000 = some (.wr 0x00 0x00) ∧ decodeTableWord 17 0x03D00 = some (.rd 0x3D) ∧
      decodeTableWord 24 0x03C01 = none := by decide

/-- The first step after reset runs the word placed by withFetchWord. -/
theorem test_withFetchWord :
    step (State.reset.withFetchWord 8 0x04) = exec .compP State.reset ∧
      step (State.reset.withFetchWord 24 0x12B20) = exec (.wr 0x2B 0x20) State.reset := ⟨rfl, rfl⟩

/-- 30 R51, R52 and 95 PR-2, PR-3: lines of the assembly language. -/
theorem test_assembler :
    Assembler.assembleLine "WR16 T_OFFSET, -150".toList = some [0x13A6A, 0x13BFF] ∧
      Assembler.assembleLine "CMD COMP_ALL ; a full read".toList = some [0x13C07] ∧
      Assembler.assembleLine "RDN TEMP_OUT, 4".toList = some [0x04400, 0x04500, 0x04600, 0x04700] ∧
      Assembler.assembleLine "WRN 0x38, 0x19, 0".toList = some [0x13819, 0x13900] := by decide

theorem test_assembler_refuses :
    Assembler.assembleLine "CMD HALT".toList = none ∧ Assembler.assembleLine "WR CMD, 0x09".toList = some [0x13C09] ∧
      Assembler.assembleLine "RDN 0xFF, 2".toList = none ∧ Assembler.assembleLine "; nothing".toList = some [] := by
  decide

/-! ## Vectors, one step each -/

/-- 95 B-1, second half: the high byte of -150 over the low byte. -/
theorem test_wr_offset :
    (after (.wr 0x3B 0xFF) { computed with tOffset := 0x006A }).tOffset.toInt = -150 ∧
      (after (.wr 0x3B 0xFF) { computed with tOffset := 0x006A }).status = 0x77 := by decide

/-- 95 B-7: a write to an output is ignored and sets E_BUS; LAST_FAULT stays. -/
theorem test_wr_readOnly :
    (after (.wr 0x44 0x00) computed).tempOut = 2654 ∧ (after (.wr 0x44 0x00) computed).err = 0x0400 ∧
      (after (.wr 0x44 0x00) computed).status = 0x7F := by decide

/-- 43 R76: T_FINE = -672369 reads 8F BD F5 FF; 95 L2.3: ADC_T = 500000 reads 20 A1 07 00. -/
theorem test_rd_bytes :
    (readByte 0x40 { computed with tFine := -672369 } = 0x8F ∧ readByte 0x42 { computed with tFine := -672369 } = 0xF5 ∧
      readByte 0x43 { computed with tFine := -672369 } = 0xFF) ∧
    (readByte 0x58 computed = 0x20 ∧ readByte 0x5A computed = 0x07 ∧ readByte 0x5B computed = 0x00) ∧
    (nextOr State.reset (exec (.rd 0x41) (st { computed with tFine := -672369 }))).returned = [0xBD] := by decide

/-- 95 B-3, B-2: a reserved address reads 0x00 and sets E_BUS; CMD reads 0x00 and sets nothing. -/
theorem test_rd_reserved :
    (nextOr State.reset (exec (.rd 0x70) (st computed))).returned = [0x00] ∧
      (after (.rd 0x70) computed).err = 0x0400 ∧ (after (.rd 0x70) computed).status = 0x7F ∧
      after (.rd 0x3C) computed = computed := by decide

/-- 95 L2.2: the live views of the heater bytes, and of a range switching error with bit 7 clear. -/
theorem test_liveViews :
    readByte 0xAE { Ccb.reset with heatRangeRaw := 0xFF } = 0x03 ∧
      readByte 0xB0 { Ccb.reset with heatValRaw := 0x80 } = 0x80 ∧
      readByte 0xB1 { Ccb.reset with heatValRaw := 0x80 } = 0xFF ∧
      readByte 0xB2 { Ccb.reset with rseRaw := 0x70 } = 0x07 ∧
      rangeSwErr true 0x9C = -7 ∧ rangeSwErr false 0x9C = 9 ∧ rangeSwErr true 0x80 = -8 := by decide

/-- 95 K-1. -/
theorem test_nop : after .nop { sampled with status := 0x83, err := 0x0020 } =
    { sampled with status := 0x03, err := 0x0020 } := by decide

/-- 95 CAL-1. -/
theorem test_calLoad : after .calLoad calWritten =
    { calWritten with coef := coef1, calWMask := 0, status := 0x01 } := by decide

/-- 95 CAL-5, last row, and CAL-4's nibble split: CAL-1 with bytes 25-27 replaced by AB CD EF. -/
theorem test_calLoad_nibbles :
    let c := { calWritten with calbuf := ((calBytes.set 25 0xAB).set 26 0xCD).set 27 0xEF, status := 0x7F }
    (after .calLoad c).coef = { coef1 with h1 := 3837, h2 := 2748 } ∧ (after .calLoad c).status = 0x43 := by decide

/-- 95 RAW-1. -/
theorem test_unpack :
    let c := after .unpack readyForAll
    c.adcT = 500000 ∧ c.adcP = 400000 ∧ c.adcH = 25000 ∧ c.adcG = 300 ∧ c.gasRange = 7 ∧ c.status = 0x03 := by
  decide

/-- 95 RAW-3, the ignored bits. -/
theorem test_unpack_ignoredBits :
    let c := after .unpack
      { readyForAll with rawbuf := #v[0x12, 0x34, 0x56, 0x78, 0x9A, 0xBC, 0xDE, 0xF0, 0xA5, 0x5A] }
    c.adcT = 74565 ∧ c.adcP = 493995 ∧ c.adcH = 57072 ∧ c.adcG = 661 ∧ c.gasRange = 10 := by decide

/-- 95 T-1. -/
theorem test_compT : after .compT sampled = { sampled with tFine := 135883, tempOut := 2654, status := 0x0F } := by
  decide

/-- 95 T-2: negative values round down. -/
theorem test_compT_negative :
    (after .compT { sampled with adcT := 0 }).tFine.toInt = -672369 ∧
      (after .compT { sampled with adcT := 0 }).tempOut.toInt = -13132 := by decide

/-- 95 P-1 (branch B) and P-5 (branch A). -/
theorem test_compP :
    after .compP warmed = { warmed with pressOut := 93139, status := 0x1F } ∧
      (after .compP { warmed with adcP := 249429 }).pressOut = 119520 := by decide +kernel

/-- 95 P-8 and P-9: E_P_DIV0 and E_P_RANGE. -/
theorem test_compP_faults :
    after .compP { warmed with coef := { coef1 with p1 := 1 } } =
      { warmed with coef := { coef1 with p1 := 1 }, err := 0x0040, status := 0x8F } ∧
    after .compP { warmed with coef := { coef1 with p1 := 2 } } =
      { warmed with coef := { coef1 with p1 := 2 }, err := 0x0080, status := 0x8F } := by decide +kernel

/-- 95 H-1 and H-6, the rounding tie. -/
theorem test_compH :
    after .compH warmed = { warmed with humOut := 7699, status := 0x2F } ∧
      (after .compH { warmed with adcH := 15026 }).humOut = 1738 := by decide +kernel

/-- 95 H-7, truncation of negative quotients, and H-2, the clamp. -/
theorem test_compH_negative :
    (after .compH { warmed with tFine := -187586 }).humOut = 7019 ∧
      (after .compH { warmed with adcH := 0 }).humOut = 0 := by decide +kernel

/-- 95 G-7. -/
theorem test_compG : after .compG sampled = { sampled with gasOut := 0x40F24659E9D7E55C, status := 0x43 } := by
  decide +kernel

/-- 95 G-9 and G-4, the function itself at the least range switching error. -/
theorem test_compG_function :
    compG 0 15 (-8) = .ok 0x40792C5231617641 ∧ compG 512 5 (-8) = .ok 0x410E4E315182A993 := by decide +kernel

/-- 95 K-7. -/
theorem test_compAll :
    let c := after .compAll readyForAll
    c.tFine = 135883 ∧ c.tempOut = 2654 ∧ c.pressOut = 93139 ∧ c.humOut = 7699 ∧ c.gasOut = 0x40F24659E9D7E55C ∧
      c.status = 0x7F := by decide +kernel

/-- 95 K-10: P1 = 0 stops it at the pressure, and the temperature is kept. -/
theorem test_compAll_stops :
    let c := after .compAll { readyForAll with coef := { coef1 with p1 := 0 } }
    c.tempOut = 2654 ∧ c.pressOut = 0 ∧ c.humOut = 0 ∧ c.gasOut = 0 ∧ c.status = 0x8F ∧ c.err = 0x0040 := by
  decide +kernel

/-- 95 K-3. -/
theorem test_clrStatus : after .clrStatus { sampled with status := 0x83, err := 0x0421 } =
    { sampled with status := 0x03, err := 0x0000 } := by decide

/-- 95 K-4. -/
theorem test_srst : after .srst computed = Ccb.reset ∧ readByte 0x57 (after .srst computed) = 0x00 := by decide

/-- 95 K-5, K-6: reserved codes. -/
theorem test_reserved_codes :
    after (.wr 0x3C 0x09) { warmed with status := 0x1F } = { warmed with status := 0x9F, err := 0x0001 } ∧
      (after (.wr 0x3C 0x0E) Ccb.reset).err = 0x0001 ∧ (after (.wr 0x3C 0xFF) Ccb.reset).err = 0x0001 := by decide

/-- 95 L2.0: floor shifts, truncating division, and the one product of the gas path given there. -/
theorem test_arithmetic :
    asr (-7) 1 = -4 ∧ tdiv (-7) 2 = -3 ∧ tdiv 7 (-2) = -3 ∧ tdiv (-164880) 100 = -1648 ∧ shl (-26500) 1 = -53000 ∧
      Binary64.mul (Binary64.ofInt 1340) 0x3FEFAE147AE147AE = 0x4094BA6666666666 := by decide +kernel

/-! ## Witnesses: each statement's hypotheses are met, clause by clause at the ends of its ranges -/

theorem witness_TransactionWordFormat :
    ((1 : Nat) < 0x10000 ∧ 1 % 0x100 ≠ 0) ∧ (0xFFFF < 0x10000 ∧ 0xFFFF % 0x100 ≠ 0) ∧ 2 ^ 17 ≤ 0x20000 := by decide

theorem witness_DecodeOfEncodeIsTheInstruction :
    Instr.wellFormed (.wr 0x00 0x00) = true ∧ Instr.wellFormed (.wr 0x3C 0xFF) = true ∧
      Instr.wellFormed (.rd 0xFF) = true ∧ Instr.wellFormed .srst = true := by decide

theorem witness_EncodeOfDecodeIsTheWord :
    decode 0x00000 = .ok (.rd 0x00) ∧ decode 0x0FF00 = .ok (.rd 0xFF) ∧ decode 0x1FFFF = .ok (.wr 0xFF 0xFF) ∧
      decode 0x13C0F = .ok .srst := by decide

theorem witness_StepRunsTheDecodedInstruction :
    ({ State.reset with pending := [.word 0x03D00] } : State).pending = .word 0x03D00 :: [] ∧
      decode 0x03D00 = .ok (.rd 0x3D) ∧ decodeTableWord 8 0x00 = some .nop := by decide

theorem witness_StepRefusesBadWordsAndWaits :
    ({ State.reset with pending := [.word 0x03C01] } : State).pending = .word 0x03C01 :: [] ∧
      decode 0x03C01 = .error .readWithData ∧ decode 0x20000 = .error .tooWide ∧ State.reset.pending = [] := by
  decide

theorem witness_ResetStateIsAllZero :
    ({ st computed with pending := [.powerOn] } : State).pending = .powerOn :: [] ∧
      exec .srst (st computed) = .next (st Ccb.reset) ∧
      step { st computed with pending := [.powerOn] } = .next (st Ccb.reset) := ⟨rfl, rfl, rfl⟩

theorem witness_CommandsFaultAfterReset : State.reset.ccb = State.reset.ccb := rfl

theorem witness_WriteToCmdRunsTheCommand :
    decodeCommand 0x00 = some .nop ∧ decodeCommand 0x08 = some .clrStatus ∧ decodeCommand 0x0F = some .srst := by
  decide

theorem witness_ReservedCommandCodesFault :
    (0x09 ≤ (0x09 : Byte).toNat ∧ (0x09 : Byte).toNat ≤ 0x0E) ∧
      (0x09 ≤ (0x0E : Byte).toNat ∧ (0x0E : Byte).toNat ≤ 0x0E) ∧ 0x10 ≤ (0x10 : Byte).toNat ∧
      0x10 ≤ (0xFF : Byte).toNat := by decide

theorem witness_ReadOnlyWritesAreIgnored :
    (0x3D ≤ (0x3D : Addr).toNat ∧ (0x64 : Addr).toNat ≤ 0x64) ∧
      (0x80 ≤ (0x80 : Addr).toNat ∧ (0xB3 : Addr).toNat ≤ 0xB3) := by decide

/-- The clauses of 20 R30 are met at the ends of their ranges. -/
theorem witness_ReadFollowsTheMap :
    ((0x28 : Addr).toNat = (40 : Fin 41) ∧ (0x29 : Addr).toNat = 0x29 ∧ (0x2A : Addr).toNat = 0x2A ∧
      (0x2B : Addr).toNat = 0x2B) ∧
    ((0x30 : Addr).toNat = 0x30 + (0 : Fin 10) ∧ (0x39 : Addr).toNat = 0x30 + (9 : Fin 10) ∧
      (0x3A : Addr).toNat = 0x3A ∧ (0x3B : Addr).toNat = 0x3B ∧ (0x3C : Addr).toNat = 0x3C) ∧
    (⟨0x3D, 1, .status⟩ ∈ roRows ∧ ⟨0xB2, 2, .rangeSwErr⟩ ∈ roRows ∧ (0xB3 : Addr).toNat = 0xB2 + 1) ∧
    (0x2C ≤ (0x2C : Addr).toNat ∧ (0x2F : Addr).toNat ≤ 0x2F ∧ 0x65 ≤ (0x65 : Addr).toNat ∧
      (0x7F : Addr).toNat ≤ 0x7F ∧ 0xB4 ≤ (0xB4 : Addr).toNat) := by decide

theorem witness_AddressMapHasNoOverlap : 0x3D < 256 ∧ 0xB3 < 256 ∧ 0xFF < 256 := by decide

theorem witness_InputWriteIsReadBackAndNothingElseMoves :
    ((0x00 : Addr).toNat ≤ 0x2B ∧ (0x2B : Addr).toNat ≤ 0x2B ∧ 0x30 ≤ (0x30 : Addr).toNat ∧
      (0x3B : Addr).toNat ≤ 0x3B) ∧
    (∃ t, exec (.wr 0x2B 0x70) (st computed) = .next t) ∧
    (0xB1 : Addr) ≠ 0x2B ∧ (0xB1 : Addr) ≠ 0x3D ∧ (0xB1 : Addr) ≠ 0xB2 ∧ (0xB1 : Addr) ≠ 0xB3 :=
  ⟨by decide, ⟨_, rfl⟩, by decide⟩

theorem witness_RepeatedTransactions :
    ((0x3B : Addr) ≠ 0x3C ∧ ∃ t, exec (.wr 0x3B 0x01) (st computed) = .next t) ∧
      (∃ t, exec (.rd 0xFF) (st computed) = .next t) ∧ (∃ t, exec .calLoad (st calWritten) = .next t) ∧
      ∃ t, exec .unpack (st readyForAll) = .next t :=
  ⟨⟨by decide, _, rfl⟩, ⟨_, rfl⟩, ⟨_, rfl⟩, ⟨_, rfl⟩⟩

theorem witness_FourReadsReturnOneFineTemperature :
    ({ st computed with
        pending := [.word 0x04000, .word 0x04100, .word 0x04200, .word 0x04300] } : State).pending =
      .word 0x04000 :: .word 0x04100 :: .word 0x04200 :: .word 0x04300 :: [] := rfl

theorem witness_CalLoadParsesTheBuffer :
    (st calWritten).ccb.calWMask = BitVec.allOnes 41 ∧ State.reset.ccb.calWMask ≠ BitVec.allOnes 41 := by decide

theorem witness_CalibrationParseIsABijection :
    unusedIndex (1 : Fin 41) = false ∧ unusedIndex (38 : Fin 41) = false ∧ unusedIndex (40 : Fin 41) = true := by
  decide

/-- CAL-1 with an unused byte changed agrees with it at the used indices. -/
theorem witness_UnusedCalibrationBytesAreIgnored :
    (∀ i : Fin 41, i.val ∉ [0, 4, 10, 17, 18, 24, 39, 40] →
      calBytes[i] = ((calBytes.set 0 0xA5).set 40 0xA5)[i]) ∧ calBytes ≠ (calBytes.set 0 0xA5).set 40 0xA5 := by
  decide

theorem witness_CoefficientsChangeOnlyByCalLoadOrReset :
    (exec .calLoad (st calWritten) = .next (st (after .calLoad calWritten)) ∧
      (after .calLoad calWritten).coef ≠ calWritten.coef) ∧
    (exec .srst (st computed) = .next (st Ccb.reset) ∧ Ccb.reset.coef ≠ computed.coef) :=
  ⟨⟨rfl, by decide⟩, rfl, by decide⟩

theorem witness_UnpackTakesTheSample :
    (st readyForAll).ccb.rawWMask = BitVec.allOnes 10 ∧ State.reset.ccb.rawWMask ≠ BitVec.allOnes 10 := by decide

theorem witness_RawCodesChangeOnlyByUnpackOrReset :
    exec .unpack (st readyForAll) = .next (st (after .unpack readyForAll)) ∧
      (after .unpack readyForAll).adcT ≠ readyForAll.adcT := ⟨rfl, by decide⟩

theorem witness_NoNewSampleLeavesTheReading :
    (st computed).ccb.rawWMask ≠ BitVec.allOnes 10 ∧ Instr.compAll ∈ [Instr.unpack, .compAll] := by decide

theorem witness_CompTComputesTheTemperature :
    Ccb.flag Ccb.reset .calValid = false ∧
      (Ccb.flag { Ccb.reset with status := 0x01 } .calValid = true ∧
        Ccb.flag { Ccb.reset with status := 0x01 } .rawValid = false) ∧
      (Ccb.flag sampled .calValid = true ∧ Ccb.flag sampled .rawValid = true) := by decide

theorem witness_TemperatureIsMonotoneInFineTemperatureOnly : (-1 : Int) ≤ 0 := by decide

/-- Two blocks that differ in T_OFFSET, TEMP_OUT and TEMP_FRESH, and one instruction run in each. -/
theorem witness_TheOffsetReachesOnlyTempOut :
    SameButOffset computed { computed with tOffset := 0x7FFF, tempOut := 0, status := 0x77 } ∧
      (∃ t, exec .compT (st computed) = .next t) ∧
      ∃ t, exec .compT (st { computed with tOffset := 0x7FFF, tempOut := 0, status := 0x77 }) = .next t :=
  ⟨by unfold SameButOffset; decide, ⟨_, rfl⟩, ⟨_, rfl⟩⟩

/-- Each clause of 42 R63: the three state faults, a zero divisor (P1 = 0), a result out of range
(P1 = 2, vector P-9) and vector P-1. -/
theorem witness_CompPComputesThePressure :
    (Ccb.flag { Ccb.reset with status := 0x01 } .calValid = true ∧
      Ccb.flag { Ccb.reset with status := 0x01 } .rawValid = false ∧ Ccb.flag sampled .tfineValid = false ∧
      Ccb.flag warmed .tfineValid = true) ∧
    pressureOf { warmed with coef := { coef1 with p1 := 0 } } = .error .pDiv0 ∧
    pressureOf { warmed with coef := { coef1 with p1 := 2 } } = .error .pRange ∧
    pressureOf warmed = .ok 93139 := ⟨by decide, rfl, rfl, rfl⟩

theorem witness_PressureBranchesDifferByAtMostOne : (-1 : Int) ≠ 0 := by decide

/-- The divisor of compP is not 0 for CAL-1 at the fine temperature of vector T-1. -/
theorem witness_PressureAndHumidityChainBounds :
    pressDivisor (fineTemp 500000 26000 26500 3) 36000 (-10400) 88 ≠ 0 := by decide

theorem witness_CompHComputesTheHumidity :
    Ccb.flag Ccb.reset .calValid = false ∧ Ccb.flag { Ccb.reset with status := 0x01 } .rawValid = false ∧
      Ccb.flag sampled .tfineValid = false ∧
      (Ccb.flag warmed .calValid = true ∧ Ccb.flag warmed .rawValid = true ∧ Ccb.flag warmed .tfineValid = true) := by
  decide

theorem witness_CompGComputesTheGasResistance :
    Ccb.flag Ccb.reset .rawValid = false ∧
      (Ccb.flag { sampled with rseW := false } .rawValid = true ∧ ({ sampled with rseW := false } : Ccb).rseW = false) ∧
      (Ccb.flag sampled .rawValid = true ∧ sampled.rseW = true) := by decide

theorem witness_GasDenominatorFaultIsUnreachable :
    (∃ t, exec .compG (st sampled) = .next t) ∧ ErrReg.get sampled.err .gasDenom = false := ⟨⟨_, rfl⟩, by decide⟩

/-- Finite operands whose sum, difference, product and quotient are finite: 1.0 and 1.0. -/
theorem witness_Binary64OperationsRoundToNearestEven :
    Binary64.value 0x3FF0000000000000 = some 1 ∧ (1 : ℚ) ≠ 0 ∧
      (Binary64.value (Binary64.ofInt 1)).isSome = true ∧
      (Binary64.value (Binary64.add 0x3FF0000000000000 0x3FF0000000000000)).isSome = true ∧
      (Binary64.value (Binary64.sub 0x3FF0000000000000 0x3FF0000000000000)).isSome = true ∧
      (Binary64.value (Binary64.mul 0x3FF0000000000000 0x3FF0000000000000)).isSome = true ∧
      (Binary64.value (Binary64.div 0x3FF0000000000000 0x3FF0000000000000)).isSome = true := by
  refine ⟨?_, one_ne_zero, rfl, rfl, rfl, rfl, rfl⟩
  rw [Binary64.value,
    show Binary64.unpack 0x3FF0000000000000 = .fin false 4503599627370496 (-52) by decide]
  norm_num

theorem witness_CompAllComputesEveryOutput :
    let c := readyForAll
    let u := { c with
      adcT := code20 c.rawbuf[0] c.rawbuf[1] c.rawbuf[2]
      adcP := code20 c.rawbuf[3] c.rawbuf[4] c.rawbuf[5]
      adcH := c.rawbuf[6] ++ c.rawbuf[7]
      adcG := c.rawbuf[8] ++ c.rawbuf[9].extractLsb' 6 2
      gasRange := c.rawbuf[9].extractLsb' 0 4
      rawWMask := 0 }
    let v := { u with
      tFine := BitVec.ofInt 32 (temperatureOf u).1, tempOut := BitVec.ofInt 32 (temperatureOf u).2 }
    c.rawWMask = BitVec.allOnes 10 ∧ Ccb.flag c .calValid = true ∧ c.rseW = true ∧ pressureOf v = .ok 93139 := by
  decide +kernel

theorem witness_LastFaultReportsTheCommand :
    (∃ t, exec (.wr 0x3C 0x04) (st sampled) = .next t) ∧
      ((0x70 : Addr) ≠ 0x3C ∧ ∃ t, exec (.wr 0x70 0x00) (st computed) = .next t) ∧
      ∃ t, exec (.rd 0x70) (st computed) = .next t := ⟨⟨_, rfl⟩, ⟨by decide, _, rfl⟩, ⟨_, rfl⟩⟩

theorem witness_FaultsArePrecise :
    (0x04 : Byte) ≠ 0x07 ∧ (∃ t, exec (.wr 0x3C 0x04) (st sampled) = .next t) ∧
      faultOf (commandsOf 0x04) (st sampled).ccb = some .noTfine := ⟨by decide, ⟨_, rfl⟩, by decide⟩

/-- COMP_ALL by itself and by its code, a reserved code, a write and a read at a reserved address. -/
theorem witness_OneCommandSetsAtMostOneErrBit :
    (decodeCommand 0x07 = some .compAll ∧ (∃ t, exec .compAll (st Ccb.reset) = .next t) ∧
      (∃ t, exec (.wr 0x3C 0x07) (st Ccb.reset) = .next t) ∧ (∃ t, exec (.wr 0x3C 0x09) (st Ccb.reset) = .next t) ∧
      ErrReg.get Ccb.reset.err .rawPartial = false) ∧
    ((0x3D : Addr) ≠ 0x3C ∧ (∃ t, exec (.wr 0x3D 0x00) (st computed) = .next t) ∧ Err.rawPartial ≠ .bus) ∧
    ∃ t, exec (.rd 0xB4) (st computed) = .next t :=
  ⟨⟨by decide, ⟨_, rfl⟩, ⟨_, rfl⟩, ⟨_, rfl⟩, by decide⟩, ⟨by decide, ⟨_, rfl⟩, by decide⟩, _, rfl⟩

theorem witness_ErrBitsAreSticky :
    (∃ t, exec .nop (st { computed with err := 0x0401 }) = .next t) ∧ (0x0401 : ErrReg).getLsbD 10 = true :=
  ⟨⟨_, rfl⟩, by decide⟩

/-- The four clauses of the valid flags: SRST clears both, CAL_LOAD and UNPACK set them. -/
theorem witness_ValidFlagsAreClearedOnlyByReset :
    (exec .srst (st computed) = .next (st Ccb.reset) ∧ Ccb.flag computed .calValid = true ∧
      Ccb.flag computed .rawValid = true ∧ Ccb.flag Ccb.reset .calValid = false ∧ Ccb.flag Ccb.reset .rawValid = false) ∧
    (exec .calLoad (st calWritten) = .next (st (after .calLoad calWritten)) ∧ Ccb.flag calWritten .calValid = false ∧
      Ccb.flag (after .calLoad calWritten) .calValid = true) ∧
    (exec .unpack (st readyForAll) = .next (st (after .unpack readyForAll)) ∧ Ccb.flag readyForAll .rawValid = false ∧
      Ccb.flag (after .unpack readyForAll) .rawValid = true) :=
  ⟨⟨rfl, by decide⟩, ⟨rfl, by decide⟩, rfl, by decide⟩

theorem witness_OutputsChangeOnlyByTheirCommands :
    exec .compT (st sampled) = .next (st (after .compT sampled)) ∧
      Instr.compT ∉ [Instr.compP, .wr 0x3C 0x04] ∧ Instr.compT ∉ [Instr.compG, .wr 0x3C 0x06] := ⟨rfl, by decide⟩

/-- The state of vector K-7 has the invariant. -/
theorem computed_inv : Ccb.Inv computed where
  tfine_needs_inputs := by decide
  temp_needs_tfine := by decide
  press_needs_tfine := by decide
  hum_needs_tfine := by decide
  gas_needs_inputs := by decide
  no_cal_no_coef := by decide
  no_raw_no_codes := by decide
  reserved_err_bits := fun n _ => BitVec.getLsbD_zero

theorem witness_EveryStepKeepsTheStateInvariant :
    Ccb.Inv computed ∧ ∃ t, step { st computed with pending := [.word 0x13C01] } = .next t :=
  ⟨computed_inv, _, rfl⟩

/-- A state that is not the reset state is reachable. -/
theorem witness_ReachableStatesHaveTheStateInvariant :
    Reachable (st { Ccb.reset with rseRaw := 0x20, rseW := true }) ∧
      st { Ccb.reset with rseRaw := 0x20, rseW := true } ≠ State.reset :=
  ⟨.step _ _ (.host _ [.word 0x12B20] .reset) rfl, by decide⟩

/-- The state of vector K-7: all four outputs are fresh, and each is its function's value. -/
theorem witness_FreshOutputsStayTruthful :
    Ccb.Inv computed ∧ Ccb.Truthful computed ∧ ∃ t, step { st computed with pending := [.word 0x12B30] } = .next t :=
  ⟨computed_inv,
    { tfine := fun _ => by decide +kernel
      temp := fun _ => by decide +kernel
      press := fun _ => by decide +kernel
      hum := fun _ => by decide +kernel
      gas := fun _ => by decide +kernel },
    _, rfl⟩

end Sys2Proof.Tests
end

section
/-! The step rules: a step runs the instruction that the host's next word decodes to. -/

namespace Sys2Proof.Machine

theorem step_word {s : State} {w : Nat} {rest : List Input} {i : Instr} (hp : s.pending = .word w :: rest)
    (hd : decode w = .ok i) : step s = exec i { s with pending := rest } := by
  simp [step, takeInput, hp, hd]

theorem decodeTableWord_eq_some {nbits w : Nat} {i : Instr} (h : decodeTableWord nbits w = some i) :
    decode (tableWord nbits w) = .ok i := by
  unfold decodeTableWord at h
  split at h
  case h_1 j hj => rw [hj, Option.some.inj h]
  case h_2 => cases h

/-- Settles O7: the second clause is the first on the state whose queue begins with the placed word, and
taking that word gives the state back. -/
theorem stepRunsTheDecodedInstruction : Obligations.StepRunsTheDecodedInstruction := by
  refine ⟨fun s w rest i hp hd => step_word hp hd, fun s nbits w i h => ?_⟩
  exact step_word (State.withFetchWord_pending s nbits w) (decodeTableWord_eq_some h)

end Sys2Proof.Machine
end

section
/-! Binary64 patterns: the sign, the fields of a pattern built by `signed`, and the numbers that finite
patterns stand for. -/

namespace Sys2Proof.Machine.Binary64

/-- The factor `(-1)^neg` of a datum's value. -/
def signOf (neg : Bool) : ℚ := if neg then -1 else 1

@[simp] theorem signOf_false : signOf false = 1 := rfl

@[simp] theorem signOf_true : signOf true = -1 := rfl

@[simp] theorem abs_signOf (neg : Bool) : |signOf neg| = 1 := by cases neg <;> simp

@[simp] theorem signOf_mul_self (neg : Bool) : signOf neg * signOf neg = 1 := by cases neg <;> simp

theorem signOf_bne (s t : Bool) : signOf (s != t) = signOf s * signOf t := by
  cases s <;> cases t <;> simp

theorem signOf_div (s t : Bool) : signOf s / signOf t = signOf (s != t) := by
  cases s <;> cases t <;> simp

theorem signOf_not (neg : Bool) : signOf (!neg) = -signOf neg := by cases neg <;> simp

theorem signOf_mul_natAbs (v : ℤ) : signOf (decide (v < 0)) * (v.natAbs : ℚ) = v := by
  rw [Nat.cast_natAbs, Int.cast_abs]
  rcases lt_or_ge v 0 with hv | hv
  · have hq : (v : ℚ) < 0 := by exact_mod_cast hv
    simp [hv, abs_of_neg hq]
  · have hq : (0 : ℚ) ≤ v := by exact_mod_cast hv
    simp [not_lt.mpr hv, abs_of_nonneg hq]

theorem value_of_unpack {b : BitVec 64} {neg : Bool} {sig : ℕ} {exp : ℤ} (h : unpack b = .fin neg sig exp) :
    value b = some (signOf neg * sig * 2 ^ exp) := by
  simp [value, h, signOf]

theorem value_eq_some {b : BitVec 64} {x : ℚ} (h : value b = some x) :
    ∃ neg sig exp, unpack b = .fin neg sig exp ∧ x = signOf neg * sig * 2 ^ exp := by
  cases hu : unpack b with
  | nan => simp [value, hu] at h
  | inf neg => simp [value, hu] at h
  | fin neg sig exp => exact ⟨neg, sig, exp, rfl, Option.some.inj (h ▸ value_of_unpack hu)⟩

theorem unpack_fin_bounds {b : BitVec 64} {neg : Bool} {sig : ℕ} {exp : ℤ} (h : unpack b = .fin neg sig exp) :
    sig < 2 ^ 53 ∧ -1074 ≤ exp := by
  have hf : (b.extractLsb' 0 52).toNat < 2 ^ 52 := (b.extractLsb' 0 52).isLt
  simp only [unpack] at h
  split at h
  · split at h <;> cases h
  · split at h <;> cases h <;> omega

/-- A finite number in units of `2^q`, read with either sign: a whole number of them, or fewer than `2^52`,
since a number with a finer unit belongs to a lower binade. -/
theorem value_in_units {b : BitVec 64} {w : ℚ} (h : value b = some w) (neg : Bool) (q : ℤ) :
    ∃ u : ℚ, w = signOf neg * (u * 2 ^ q) ∧ ((∃ k : ℤ, u = k) ∨ (-1074 < q ∧ |u| < 2 ^ 52)) := by
  obtain ⟨s, sig, exp, hu, rfl⟩ := value_eq_some h
  obtain ⟨hsig, hexp⟩ := unpack_fin_bounds hu
  refine ⟨signOf (neg != s) * sig * 2 ^ (exp - q), ?_, ?_⟩
  · rw [signOf_bne, mul_assoc _ ((2 : ℚ) ^ _), ← zpow_add₀ two_ne_zero, sub_add_cancel]
    linear_combination (-(signOf s * sig * 2 ^ exp)) * signOf_mul_self neg
  · rcases le_or_gt q exp with hq | hq
    · left
      obtain ⟨d, rfl⟩ := Int.le.dest hq
      refine ⟨(if (neg != s) then -1 else 1) * sig * 2 ^ d, ?_⟩
      rw [add_sub_cancel_left, zpow_natCast, signOf]
      push_cast
      rfl
    · right
      refine ⟨by omega, ?_⟩
      have hs : (sig : ℚ) < 2 ^ 53 := by exact_mod_cast hsig
      have hle : (2 : ℚ) ^ (exp - q) ≤ 2 ^ (-1 : ℤ) := zpow_le_zpow_right₀ one_le_two (by omega)
      calc |signOf (neg != s) * sig * 2 ^ (exp - q)| = sig * 2 ^ (exp - q) := by
            rw [abs_mul, abs_mul, abs_signOf, one_mul, Nat.abs_cast, abs_of_pos (by positivity)]
        _ < 2 ^ 53 * 2 ^ (exp - q) := by gcongr
        _ ≤ 2 ^ 53 * 2 ^ (-1 : ℤ) := by gcongr
        _ = 2 ^ 52 := by norm_num

theorem signed_toNat (neg : Bool) {k : ℕ} (hk : k < 2 ^ 63) :
    (signed neg k).toNat = (if neg then 2 ^ 63 else 0) + k := by
  cases neg <;> simp [signed] <;> omega

theorem signed_sign (neg : Bool) {k : ℕ} (hk : k < 2 ^ 63) : (signed neg k).getLsbD 63 = neg := by
  rw [BitVec.getLsbD, Nat.testBit_eq_decide_div_mod_eq, signed_toNat neg hk]
  cases neg <;> simp <;> omega

theorem signed_last_bit (neg : Bool) {k : ℕ} (hk : k < 2 ^ 63) (heven : Even k) :
    (signed neg k).getLsbD 0 = false := by
  have := heven.two_dvd
  rw [BitVec.getLsbD, Nat.testBit_eq_decide_div_mod_eq, signed_toNat neg hk]
  cases neg <;> simp <;> omega

theorem signed_exponent (neg : Bool) {k : ℕ} (hk : k < 2 ^ 63) :
    ((signed neg k).extractLsb' 52 11).toNat = k / 2 ^ 52 := by
  rw [BitVec.extractLsb'_toNat, signed_toNat neg hk, Nat.shiftRight_eq_div_pow]
  cases neg <;> simp <;> omega

theorem signed_fraction (neg : Bool) {k : ℕ} (hk : k < 2 ^ 63) :
    ((signed neg k).extractLsb' 0 52).toNat = k % 2 ^ 52 := by
  rw [BitVec.extractLsb'_toNat, signed_toNat neg hk, Nat.shiftRight_eq_div_pow]
  cases neg <;> simp
  omega

theorem unpack_signed_infMag (neg : Bool) : unpack (signed neg infMag) = .inf neg := by
  cases neg <;> decide

theorem unpack_signed_subnormal (neg : Bool) {f : ℕ} (hf : f < 2 ^ 52) :
    unpack (signed neg f) = .fin neg f (-1074) := by
  have hk : f < 2 ^ 63 := by omega
  simp only [unpack, signed_sign neg hk, signed_exponent neg hk, signed_fraction neg hk,
    Nat.div_eq_of_lt hf, Nat.mod_eq_of_lt hf]
  rfl

theorem unpack_signed_normal (neg : Bool) {E f : ℕ} (hE : 0 < E) (hE' : E < 2047) (hf : f < 2 ^ 52) :
    unpack (signed neg (E * 2 ^ 52 + f)) = .fin neg (2 ^ 52 + f) ((E : ℤ) - 1075) := by
  have hk : E * 2 ^ 52 + f < 2 ^ 63 := by omega
  have hdiv : (E * 2 ^ 52 + f) / 2 ^ 52 = E := by omega
  have hmod : (E * 2 ^ 52 + f) % 2 ^ 52 = f := by omega
  simp only [unpack, signed_sign neg hk, signed_exponent neg hk, signed_fraction neg hk, hdiv, hmod]
  rw [if_neg (by omega), if_neg (by omega)]

@[simp] theorem value_signed_infMag (neg : Bool) : value (signed neg infMag) = none := by
  simp [value, unpack_signed_infMag]

/-- The pattern that `round` builds from `n` units of `2^q` stands for that number: a subnormal, a normal,
or the carry of `n = 2^53` into the next binade. -/
theorem value_signed_units (neg : Bool) {q : ℤ} {n : ℕ} (hq : -1074 ≤ q) (hn : n ≤ 2 ^ 53)
    (hnormal : q = -1074 ∨ 2 ^ 52 ≤ n) (hfin : (q + 1074).toNat * 2 ^ 52 + n < infMag) :
    value (signed neg ((q + 1074).toNat * 2 ^ 52 + n)) = some (signOf neg * n * 2 ^ q) := by
  obtain ⟨Q, rfl⟩ : ∃ Q : ℕ, q = (Q : ℤ) - 1074 := ⟨(q + 1074).toNat, by omega⟩
  rw [show ((Q : ℤ) - 1074 + 1074).toNat = Q by omega] at hfin ⊢
  unfold infMag at hfin
  rcases lt_or_ge n (2 ^ 52) with hsub | hnorm
  · obtain rfl : Q = 0 := by omega
    simpa using value_of_unpack (unpack_signed_subnormal neg hsub)
  · rcases hn.lt_or_eq with hlt | rfl
    · obtain ⟨f, rfl⟩ := Nat.exists_eq_add_of_le hnorm
      rw [show Q * 2 ^ 52 + (2 ^ 52 + f) = (Q + 1) * 2 ^ 52 + f by ring,
        value_of_unpack (unpack_signed_normal neg (Nat.succ_pos Q) (by omega) (by omega))]
      congr 3
      push_cast
      ring
    · rw [show Q * 2 ^ 52 + 2 ^ 53 = (Q + 2) * 2 ^ 52 + 0 by ring,
        value_of_unpack (unpack_signed_normal neg (by omega) (by omega) (by omega)),
        show ((Q + 2 : ℕ) : ℤ) - 1075 = (Q : ℤ) - 1074 + 1 by push_cast; ring, zpow_add_one₀ two_ne_zero]
      congr 1
      push_cast
      ring

end Sys2Proof.Machine.Binary64
end

section
/-! The rounding of binary64 results: `ulps` rounds to the nearest integer, ties to even, and the pattern
that `round` builds from it is the nearest one (00 R10). -/

namespace Sys2Proof.Machine.Binary64

/-- `n` is an integer nearest to `y`, the even one on a tie. -/
structure IsHalfEven (y : ℚ) (n : ℕ) : Prop where
  close : |y - n| ≤ 1 / 2
  tie_even : |y - n| = 1 / 2 → Even n

theorem isHalfEven_self (n : ℕ) : IsHalfEven n n where
  close := by norm_num
  tie_even h := by norm_num at h

theorem IsHalfEven.nearest {y : ℚ} {n : ℕ} (h : IsHalfEven y n) (k : ℤ) :
    |n - y| ≤ |k - y| ∧ (|n - y| = |k - y| → (k : ℚ) ≠ n → Even n) := by
  rw [abs_sub_comm (n : ℚ)]
  rcases eq_or_ne k n with rfl | hk
  · simp [abs_sub_comm]
  · have hone : (1 : ℚ) ≤ |(k : ℚ) - n| := by exact_mod_cast Int.one_le_abs (sub_ne_zero.mpr hk)
    have htri : |(k : ℚ) - n| ≤ |k - y| + |y - n| := abs_sub_le _ _ _
    have hclose := h.close
    exact ⟨by linarith, fun htie _ => h.tie_even (by linarith)⟩

theorem roundDiv_close (m d : ℕ) :
    2 * |(m : ℤ) - roundDiv m d * 2 ^ d| ≤ 2 ^ d ∧
      (2 * |(m : ℤ) - roundDiv m d * 2 ^ d| = 2 ^ d → Even (roundDiv m d)) := by
  have hm : 2 ^ d * (m / 2 ^ d) + m % 2 ^ d = m := Nat.div_add_mod m (2 ^ d)
  have hr : m % 2 ^ d < 2 ^ d := Nat.mod_lt m (by positivity)
  have hcast : (2 : ℤ) ^ d = ((2 ^ d : ℕ) : ℤ) := by push_cast; rfl
  unfold roundDiv
  rw [hcast]
  generalize m / 2 ^ d = q at *
  generalize m % 2 ^ d = r at *
  generalize 2 ^ d = D at *
  subst hm
  dsimp only
  split
  case isTrue hup =>
    rw [show ((D * q + r : ℕ) : ℤ) - (q + 1 : ℕ) * D = -((D : ℤ) - r) by push_cast; ring, abs_neg,
      abs_of_nonneg (by omega), Nat.even_iff]
    omega
  case isFalse hdown =>
    rw [show ((D * q + r : ℕ) : ℤ) - q * D = r by push_cast; ring, abs_of_nonneg (by omega), Nat.even_iff]
    omega

theorem isHalfEven_roundDiv (m d : ℕ) : IsHalfEven (m / 2 ^ d) (roundDiv m d) := by
  obtain ⟨hclose, htie⟩ := roundDiv_close m d
  have hpos : (0 : ℚ) < 2 ^ d := by positivity
  have heq : |(m : ℚ) / 2 ^ d - roundDiv m d| = (|(m : ℤ) - roundDiv m d * 2 ^ d| : ℤ) / 2 ^ d := by
    push_cast
    rw [div_sub' hpos.ne', abs_div, abs_of_pos hpos, mul_comm]
  constructor
  · rw [heq, div_le_div_iff₀ hpos two_pos]
    exact_mod_cast (by linarith : |(m : ℤ) - roundDiv m d * 2 ^ d| * 2 ≤ 1 * 2 ^ d)
  · rw [heq, div_eq_div_iff hpos.ne' two_ne_zero]
    intro h
    have h' : |(m : ℤ) - roundDiv m d * 2 ^ d| * 2 = 1 * 2 ^ d := by exact_mod_cast h
    exact htie (by linarith)

/-- An odd `m` is no tie of a division by `2^d`, `2 ≤ d`, and neither is any number less than 1 away from
it: the ties are even numbers. -/
theorem isHalfEven_roundDiv_of_odd {m d : ℕ} {t : ℚ} (hodd : Odd m) (hd : 2 ≤ d) (ht : |t - m| < 1) :
    IsHalfEven (t / 2 ^ d) (roundDiv m d) := by
  obtain ⟨c, rfl⟩ := Nat.exists_eq_add_of_le hd
  obtain ⟨hclose, -⟩ := roundDiv_close m (2 + c)
  generalize roundDiv m (2 + c) = n at *
  have hint : |(m : ℤ) - n * 2 ^ (2 + c)| ≤ 2 * 2 ^ c - 1 := by
    have hm : (m : ℤ) % 2 = 1 := by exact_mod_cast Nat.odd_iff.mp hodd
    rw [pow_add] at hclose ⊢
    rw [show (n : ℤ) * (2 ^ 2 * 2 ^ c) = 4 * (n * 2 ^ c) by ring] at hclose ⊢
    generalize (n : ℤ) * 2 ^ c = p at *
    generalize (2 : ℤ) ^ c = D at *
    rw [abs_le]
    have := abs_le.mp (by linarith : |(m : ℤ) - 4 * p| ≤ 2 * D)
    omega
  have hrat : |(m : ℚ) - n * 2 ^ (2 + c)| ≤ 2 * 2 ^ c - 1 := by exact_mod_cast hint
  have hlt : |t / 2 ^ (2 + c) - n| < 1 / 2 := by
    have hpos : (0 : ℚ) < 2 ^ (2 + c) := by positivity
    rw [div_sub' hpos.ne', abs_div, abs_of_pos hpos, div_lt_div_iff₀ hpos two_pos]
    have htri := abs_sub_le t m (2 ^ (2 + c) * n)
    rw [mul_comm ((2 : ℚ) ^ (2 + c))] at htri ⊢
    have hsplit : (2 : ℚ) ^ (2 + c) = 4 * 2 ^ c := by rw [pow_add]; norm_num
    linarith
  exact ⟨hlt.le, fun h => absurd h hlt.ne⟩

/-- The integer `m` stands for the number `t` where only its leading 53 bits are kept: it is `t`, or it is
long and its last bit says that `t` lies strictly beside it. -/
def RoundsAs (m : ℕ) (t : ℚ) : Prop := t = m ∨ (Odd m ∧ |t - m| < 1 ∧ 2 ^ 54 ≤ m)

theorem RoundsAs.log2_bounds {m : ℕ} {t : ℚ} (h : RoundsAs m t) (hm : m ≠ 0) :
    2 ^ m.log2 ≤ t ∧ t < 2 ^ (m.log2 + 1) := by
  have hlo : 2 ^ m.log2 ≤ m := Nat.log2_self_le hm
  have hhi : m < 2 ^ (m.log2 + 1) := Nat.lt_log2_self
  rcases h with rfl | ⟨hodd, ht, hlong⟩
  · exact ⟨by exact_mod_cast hlo, by exact_mod_cast hhi⟩
  · obtain ⟨hlt, hgt⟩ := abs_lt.mp ht
    have heven : Even (2 ^ m.log2) := even_two.pow_of_ne_zero
      (by have := (Nat.le_log2 hm).mpr hlong; omega)
    have hlo' : 2 ^ m.log2 + 1 ≤ m :=
      Nat.lt_of_le_of_ne hlo fun heq => Nat.not_even_iff_odd.mpr hodd (heq ▸ heven)
    have hloq : (2 : ℚ) ^ m.log2 + 1 ≤ m := by exact_mod_cast hlo'
    have hhiq : (m : ℚ) + 1 ≤ 2 ^ (m.log2 + 1) := by exact_mod_cast hhi
    exact ⟨by linarith, by linarith⟩

theorem isHalfEven_ulps {m : ℕ} {t : ℚ} (h : RoundsAs m t) (hm : m ≠ 0) (e : ℤ) :
    IsHalfEven (t * 2 ^ (e - ulpExp m e)) (ulps m e) := by
  unfold ulps
  split
  case isTrue hle =>
    rcases h with rfl | ⟨-, -, hlong⟩
    · have hexp : e - ulpExp m e = ((e - ulpExp m e).toNat : ℤ) := by omega
      rw [hexp, zpow_natCast, Int.toNat_natCast]
      exact_mod_cast isHalfEven_self (m * 2 ^ (e - ulpExp m e).toNat)
    · have := (Nat.le_log2 hm).mpr hlong
      unfold ulpExp at hle
      omega
  case isFalse hgt =>
    have hexp : e - ulpExp m e = -((ulpExp m e - e).toNat : ℤ) := by omega
    rw [hexp, zpow_neg, zpow_natCast, ← div_eq_mul_inv]
    rcases h with rfl | ⟨hodd, ht, hlong⟩
    · exact isHalfEven_roundDiv m _
    · have hlog := (Nat.le_log2 hm).mpr hlong
      have hd : 2 ≤ (ulpExp m e - e).toNat := by unfold ulpExp; omega
      exact isHalfEven_roundDiv_of_odd hodd hd ht

theorem IsHalfEven.nearest_unit {y : ℚ} {n : ℕ} (h : IsHalfEven y n) {u : ℚ}
    (hu : (∃ k : ℤ, u = k) ∨ (2 ^ 52 ≤ y ∧ |u| < 2 ^ 52)) :
    |n - y| ≤ |u - y| ∧ (|n - y| = |u - y| → u ≠ n → Even n) := by
  rcases hu with ⟨k, rfl⟩ | ⟨hy, hu⟩
  · exact h.nearest k
  · have hbinade := (h.nearest (2 ^ 52)).1
    push_cast at hbinade
    have hu' := (abs_lt.mp hu).2
    have hfar : |(2 : ℚ) ^ 52 - y| < |u - y| := by
      rw [abs_of_nonpos (by linarith), abs_of_neg (by linarith)]
      linarith
    exact ⟨(hbinade.trans_lt hfar).le, fun htie => absurd htie (hbinade.trans_lt hfar).ne⟩

/-- Of the finite patterns, none is nearer to `y` units of `2^q` than the pattern of the `n` units that `y`
rounds to. -/
theorem isNearest_signed_units (neg : Bool) {q : ℤ} {n : ℕ} {y : ℚ} (hq : -1074 ≤ q) (hn : n ≤ 2 ^ 53)
    (hnormal : q = -1074 ∨ 2 ^ 52 ≤ n) (hy : q = -1074 ∨ 2 ^ 52 ≤ y) (hround : IsHalfEven y n)
    (hfin : (q + 1074).toNat * 2 ^ 52 + n < infMag) :
    IsNearest (signOf neg * (y * 2 ^ q)) (signed neg ((q + 1074).toNat * 2 ^ 52 + n)) := by
  have hvalue := value_signed_units neg hq hn hnormal hfin
  refine ⟨_, hvalue, fun b w hw => ?_⟩
  obtain ⟨u, rfl, hu⟩ := value_in_units hw neg q
  have hpos : (0 : ℚ) < 2 ^ q := by positivity
  have hdist (z : ℚ) : |signOf neg * (z * 2 ^ q) - signOf neg * (y * 2 ^ q)| = |z - y| * 2 ^ q := by
    rw [← mul_sub, abs_mul, abs_signOf, one_mul, ← sub_mul, abs_mul, abs_of_pos hpos]
  rw [mul_assoc (signOf neg), hdist, hdist]
  obtain ⟨hnear, htie⟩ :=
    hround.nearest_unit (hu.imp_right fun ⟨hq', hu'⟩ => ⟨hy.resolve_left hq'.ne', hu'⟩)
  refine ⟨by gcongr, fun heq hne => signed_last_bit neg (by unfold infMag at hfin; omega) ?_⟩
  have heven : Even n :=
    htie (mul_right_cancel₀ hpos.ne' heq) fun hun => hne (by rw [hun])
  exact (even_two.pow_of_ne_zero (by decide : 52 ≠ 0)).mul_left _ |>.add heven

theorem IsHalfEven.le {y : ℚ} {n b : ℕ} (h : IsHalfEven y n) (hb : y ≤ b) : n ≤ b := by
  have hlt : (n : ℚ) < b + 1 := by linarith [(abs_le.mp h.close).1]
  exact Nat.lt_succ_iff.mp (by exact_mod_cast hlt)

theorem IsHalfEven.ge {y : ℚ} {n a : ℕ} (h : IsHalfEven y n) (ha : a ≤ y) : a ≤ n := by
  have hlt : (a : ℚ) < n + 1 := by linarith [(abs_le.mp h.close).2]
  exact Nat.lt_succ_iff.mp (by exact_mod_cast hlt)

/-- The exponent that `ulpExp` picks leaves a number of units below `2^53`, and at least `2^52` unless it is
the subnormal unit. -/
theorem RoundsAs.units_bounds {m : ℕ} {t : ℚ} (h : RoundsAs m t) (hm : m ≠ 0) (e : ℤ) :
    t * 2 ^ (e - ulpExp m e) ≤ 2 ^ 53 ∧
      (ulpExp m e = -1074 ∨ 2 ^ 52 ≤ t * 2 ^ (e - ulpExp m e)) := by
  obtain ⟨hlo, hhi⟩ := h.log2_bounds hm
  have hpos : (0 : ℚ) < 2 ^ (e - ulpExp m e) := by positivity
  constructor
  · calc t * 2 ^ (e - ulpExp m e) ≤ 2 ^ (m.log2 + 1) * 2 ^ (e - ulpExp m e) := by gcongr
      _ = 2 ^ ((m.log2 : ℤ) + 1 + (e - ulpExp m e)) := by
          rw [zpow_add₀ two_ne_zero]; norm_cast
      _ ≤ 2 ^ (53 : ℤ) := zpow_le_zpow_right₀ one_le_two (by unfold ulpExp; omega)
      _ = 2 ^ 53 := by norm_num
  · rcases eq_or_ne (ulpExp m e) (-1074) with hsub | hnormal
    · exact .inl hsub
    · right
      have hexp : (m.log2 : ℤ) + (e - ulpExp m e) = 52 := by unfold ulpExp at hnormal ⊢; omega
      calc (2 : ℚ) ^ 52 = 2 ^ ((m.log2 : ℤ) + (e - ulpExp m e)) := by rw [hexp]; norm_num
        _ = 2 ^ m.log2 * 2 ^ (e - ulpExp m e) := by rw [zpow_add₀ two_ne_zero, zpow_natCast]
        _ ≤ t * 2 ^ (e - ulpExp m e) := by gcongr

theorem ulps_bounds {m : ℕ} (hm : m ≠ 0) (e : ℤ) :
    ulps m e ≤ 2 ^ 53 ∧ (ulpExp m e = -1074 ∨ 2 ^ 52 ≤ ulps m e) := by
  have hexact : RoundsAs m m := .inl rfl
  have hround := isHalfEven_ulps hexact hm e
  obtain ⟨hle, hnormal⟩ := hexact.units_bounds hm e
  exact ⟨hround.le (by exact_mod_cast hle), hnormal.imp_right fun hge => hround.ge (by exact_mod_cast hge)⟩

end Sys2Proof.Machine.Binary64
end

section
/-! The operators of 00 R10: each is one `round` of an integer that rounds as the exact result does. -/

namespace Sys2Proof.Machine.Binary64

theorem round_zero (neg : Bool) (e : ℤ) : round neg 0 e = signed neg 0 := by simp [round]

theorem round_eq_signed_units (neg : Bool) {m : ℕ} (hm : m ≠ 0) {e : ℤ}
    (hlt : (ulpExp m e + 1074).toNat * 2 ^ 52 + ulps m e < infMag) :
    round neg m e = signed neg ((ulpExp m e + 1074).toNat * 2 ^ 52 + ulps m e) := by
  rw [round, if_neg hm, min_eq_left hlt.le]

theorem units_lt_infMag_of_isSome {neg : Bool} {m : ℕ} (hm : m ≠ 0) {e : ℤ}
    (hfin : (value (round neg m e)).isSome = true) :
    (ulpExp m e + 1074).toNat * 2 ^ 52 + ulps m e < infMag := by
  by_contra hge
  rw [round, if_neg hm, min_eq_right (not_lt.mp hge), value_signed_infMag] at hfin
  cases hfin

theorem neg_1074_le_ulpExp (m : ℕ) (e : ℤ) : -1074 ≤ ulpExp m e := le_max_right _ _

/-- The one rounding step of every operator: if `m` rounds as `t` does, then a finite `round neg m e` is
nearest to `(-1)^neg * t * 2^e`. -/
theorem round_isNearest (neg : Bool) {m : ℕ} {t : ℚ} (h : RoundsAs m t) {e : ℤ}
    (hfin : (value (round neg m e)).isSome = true) :
    IsNearest (signOf neg * (t * 2 ^ e)) (round neg m e) := by
  rcases eq_or_ne m 0 with rfl | hm
  · obtain rfl : t = 0 := by simpa [RoundsAs] using h
    rw [round_zero]
    simpa using isNearest_signed_units neg (q := -1074) le_rfl (by norm_num) (.inl rfl) (.inl rfl)
      (isHalfEven_self 0) (by decide)
  · have hlt := units_lt_infMag_of_isSome hm hfin
    have hexact : t * 2 ^ e = t * 2 ^ (e - ulpExp m e) * 2 ^ ulpExp m e := by
      rw [mul_assoc, ← zpow_add₀ two_ne_zero, sub_add_cancel]
    rw [round_eq_signed_units neg hm hlt, hexact]
    obtain ⟨hle, hnormal⟩ := ulps_bounds hm e
    exact isNearest_signed_units neg (neg_1074_le_ulpExp m e) hle hnormal (h.units_bounds hm e).2
      (isHalfEven_ulps h hm e) hlt

theorem round_int_isNearest {v : ℤ} {e : ℤ} (hfin : (value (round (decide (v < 0)) v.natAbs e)).isSome = true) :
    IsNearest (v * 2 ^ e) (round (decide (v < 0)) v.natAbs e) := by
  have h := round_isNearest (decide (v < 0)) (t := v.natAbs) (.inl rfl) hfin
  rwa [← mul_assoc, signOf_mul_natAbs] at h

theorem ofInt_isNearest {v : ℤ} (hfin : (value (ofInt v)).isSome = true) : IsNearest v (ofInt v) := by
  simpa [ofInt] using round_int_isNearest hfin

/-- Below `2^53` the unit of rounding is at most 1, so that the integer is a whole number of units. -/
theorem value_ofInt_of_abs_lt {v : ℤ} (hv : |v| < 2 ^ 53) : value (ofInt v) = some (v : ℚ) := by
  rcases eq_or_ne v 0 with rfl | hv0
  · simpa [ofInt, round_zero] using value_of_unpack (unpack_signed_subnormal false (f := 0) (by norm_num))
  · have hm : v.natAbs ≠ 0 := Int.natAbs_ne_zero.mpr hv0
    have hlog : v.natAbs.log2 < 53 := (Nat.log2_lt hm).mpr (by rw [Int.abs_eq_natAbs] at hv; omega)
    have hunit : ulpExp v.natAbs 0 ≤ 0 := by unfold ulpExp; omega
    obtain ⟨hle, hnormal⟩ := ulps_bounds hm 0
    have hlt : (ulpExp v.natAbs 0 + 1074).toNat * 2 ^ 52 + ulps v.natAbs 0 < infMag := by
      unfold infMag; omega
    have hwhole : (ulps v.natAbs 0 : ℚ) * 2 ^ ulpExp v.natAbs 0 = v.natAbs := by
      obtain ⟨d, hd⟩ := Int.eq_ofNat_of_zero_le (sub_nonneg.mpr hunit)
      rw [ulps, if_pos hunit, hd, show ulpExp v.natAbs 0 = -(d : ℤ) by omega, Int.toNat_natCast, zpow_neg,
        zpow_natCast]
      push_cast
      exact mul_inv_cancel_right₀ (by positivity) _
    rw [ofInt, round_eq_signed_units _ hm hlt,
      value_signed_units _ (neg_1074_le_ulpExp _ _) hle hnormal hlt, mul_assoc, hwhole, signOf_mul_natAbs]

theorem negate_sign (b : BitVec 64) : (negate b).getLsbD 63 = !b.getLsbD 63 := by
  simp [negate]

theorem negate_extractLsb' (b : BitVec 64) {start len : ℕ} (h : start + len ≤ 63) :
    (negate b).extractLsb' start len = b.extractLsb' start len := by
  ext i hi
  have hne : 63 ≠ start + i := by omega
  simp [negate, hne]

theorem unpack_negate {b : BitVec 64} {neg : Bool} {sig : ℕ} {exp : ℤ} (h : unpack b = .fin neg sig exp) :
    unpack (negate b) = .fin (!neg) sig exp := by
  simp only [unpack, negate_sign, negate_extractLsb' b (start := 52) (len := 11) (by decide),
    negate_extractLsb' b (start := 0) (len := 52) (by decide)] at h ⊢
  split at h
  · split at h <;> cases h
  · rw [if_neg ‹_›]
    split at h <;> cases h
    · rw [if_pos ‹_›]
    · rw [if_neg ‹_›]

theorem value_negate {b : BitVec 64} {y : ℚ} (h : value b = some y) : value (negate b) = some (-y) := by
  obtain ⟨neg, sig, exp, hu, rfl⟩ := value_eq_some h
  rw [value_of_unpack (unpack_negate hu), signOf_not, neg_mul, neg_mul]

theorem scaled_mul_zpow (neg : Bool) (sig : ℕ) {exp base : ℤ} (hbase : base ≤ exp) :
    (scaled neg sig exp base : ℚ) * 2 ^ base = signOf neg * sig * 2 ^ exp := by
  obtain ⟨d, rfl⟩ := Int.le.dest hbase
  rw [zpow_add₀ two_ne_zero, zpow_natCast, scaled, add_sub_cancel_left, Int.toNat_natCast]
  cases neg <;> push_cast <;> simp <;> ring

theorem add_isNearest {a b : BitVec 64} {x y : ℚ} (ha : value a = some x) (hb : value b = some y)
    (hfin : (value (add a b)).isSome = true) : IsNearest (x + y) (add a b) := by
  obtain ⟨s, m, e, hu, rfl⟩ := value_eq_some ha
  obtain ⟨t, n, f, hv, rfl⟩ := value_eq_some hb
  rw [← scaled_mul_zpow s m (min_le_left e f), ← scaled_mul_zpow t n (min_le_right e f), ← add_mul,
    ← Int.cast_add]
  simp only [add, hu, hv] at hfin ⊢
  split at hfin
  case isTrue hzero =>
    rw [if_pos hzero, hzero]
    rw [← round_zero _ 0] at hfin ⊢
    simpa using round_isNearest (s && t) (m := 0) (t := 0) (.inl (by simp)) hfin
  case isFalse hsum =>
    rw [if_neg hsum]
    exact round_int_isNearest hfin

theorem sub_isNearest {a b : BitVec 64} {x y : ℚ} (ha : value a = some x) (hb : value b = some y)
    (hfin : (value (sub a b)).isSome = true) : IsNearest (x - y) (sub a b) := by
  rw [sub_eq_add_neg]
  exact add_isNearest ha (value_negate hb) hfin

theorem mul_isNearest {a b : BitVec 64} {x y : ℚ} (ha : value a = some x) (hb : value b = some y)
    (hfin : (value (mul a b)).isSome = true) : IsNearest (x * y) (mul a b) := by
  obtain ⟨s, m, e, hu, rfl⟩ := value_eq_some ha
  obtain ⟨t, n, f, hv, rfl⟩ := value_eq_some hb
  have hmul : mul a b = round (s != t) (m * n) (e + f) := by simp only [mul, hu, hv]
  rw [hmul] at hfin ⊢
  have hexact : signOf s * m * 2 ^ e * (signOf t * n * 2 ^ f) =
      signOf (s != t) * ((m * n : ℕ) * 2 ^ (e + f)) := by
    rw [signOf_bne, zpow_add₀ two_ne_zero]
    push_cast
    ring
  rw [hexact]
  exact round_isNearest _ (.inl rfl) hfin

theorem divShift_long {m n : ℕ} (hm : m ≠ 0) (hn : n ≠ 0) : 2 ^ 55 ≤ m * 2 ^ divShift n / n :=
  (Nat.le_div_iff_mul_le (Nat.pos_of_ne_zero hn)).mpr <|
    calc 2 ^ 55 * n ≤ 2 ^ 55 * 2 ^ (n.log2 + 1) := Nat.mul_le_mul_left _ Nat.lt_log2_self.le
      _ = 2 ^ divShift n := by rw [divShift]; ring
      _ ≤ m * 2 ^ divShift n := Nat.le_mul_of_pos_left _ (Nat.pos_of_ne_zero hm)

/-- The integer quotient with the bit for a dropped remainder rounds as twice the exact quotient does. -/
theorem divSig_roundsAs (m : ℕ) {n : ℕ} (hn : n ≠ 0) :
    RoundsAs (divSig m n) (2 * (m * 2 ^ divShift n / n)) := by
  have hlong : m * 2 ^ divShift n % n ≠ 0 → 2 ^ 55 ≤ m * 2 ^ divShift n / n := fun hr =>
    divShift_long (by rintro rfl; simp at hr) hn
  have hcast : (m : ℚ) * 2 ^ divShift n = (m * 2 ^ divShift n : ℕ) := by push_cast; rfl
  have hn0 : (n : ℚ) ≠ 0 := Nat.cast_ne_zero.mpr hn
  unfold divSig
  rw [hcast]
  generalize m * 2 ^ divShift n = N at *
  have hquot : (N : ℚ) / n = (N / n : ℕ) + (N % n : ℕ) / n := by
    rw [eq_comm, ← eq_sub_iff_add_eq', div_eq_iff hn0, sub_mul, div_mul_cancel₀ _ hn0, eq_sub_iff_add_eq]
    exact_mod_cast Nat.mod_add_div' N n
  have hrem : N % n < n := Nat.mod_lt N (Nat.pos_of_ne_zero hn)
  rw [hquot]
  split
  case isTrue hzero => simp [RoundsAs, hzero]
  case isFalse hnonzero =>
    refine .inr ⟨odd_two_mul_add_one _, ?_, by have := hlong hnonzero; omega⟩
    have hn' : (0 : ℚ) < n := by positivity
    have hpos : (0 : ℚ) < (N % n : ℕ) / n := div_pos (by exact_mod_cast Nat.pos_of_ne_zero hnonzero) hn'
    have hlt : ((N % n : ℕ) : ℚ) / n < 1 := (div_lt_one hn').mpr (by exact_mod_cast hrem)
    rw [Nat.cast_add, Nat.cast_mul, Nat.cast_two, Nat.cast_one, abs_lt]
    constructor <;> linarith

theorem div_isNearest {a b : BitVec 64} {x y : ℚ} (ha : value a = some x) (hb : value b = some y) (hy : y ≠ 0)
    (hfin : (value (div a b)).isSome = true) : IsNearest (x / y) (div a b) := by
  obtain ⟨s, m, e, hu, rfl⟩ := value_eq_some ha
  obtain ⟨t, n, f, hv, rfl⟩ := value_eq_some hb
  have hn : n ≠ 0 := by rintro rfl; simp at hy
  have hdiv : div a b = round (s != t) (divSig m n) (e - f - divShift n - 1) := by
    simp only [div, hu, hv, if_neg hn]
  rw [hdiv] at hfin ⊢
  have hexact : signOf s * m * 2 ^ e / (signOf t * n * 2 ^ f) =
      signOf (s != t) * (2 * (m * 2 ^ divShift n / n) * 2 ^ (e - f - divShift n - 1)) := by
    rw [← signOf_div, zpow_sub_one₀ two_ne_zero, zpow_sub₀ two_ne_zero, zpow_sub₀ two_ne_zero, zpow_natCast]
    field_simp
  rw [hexact]
  exact round_isNearest _ (divSig_roundsAs m hn) hfin

/-- Settles O44: every operator rounds once, by `round`, whose result is nearest; the quotient's extra bit
keeps its rounding that of the exact quotient. -/
theorem binary64OperationsRoundToNearestEven : Obligations.Binary64OperationsRoundToNearestEven :=
  ⟨fun _ => ⟨ofInt_isNearest, value_ofInt_of_abs_lt⟩, fun _ _ _ _ ha hb =>
    ⟨add_isNearest ha hb, sub_isNearest ha hb, mul_isNearest ha hb, div_isNearest ha hb⟩⟩

end Sys2Proof.Machine.Binary64
end

section
/-! STATUS as its eight bits: two equal in every bit are equal, and writes of bits can be reordered. -/

namespace Sys2Proof.Machine

theorem Status.ext_get {st st' : Status} (h : ∀ b, Status.get st b = Status.get st' b) : st = st' := by
  have hbit : ∀ n < 8, ∃ b : StatusBit, b.pos = n := by
    intro n hn
    interval_cases n
    exacts [⟨.calValid, rfl⟩, ⟨.rawValid, rfl⟩, ⟨.tfineValid, rfl⟩, ⟨.tempFresh, rfl⟩, ⟨.pressFresh, rfl⟩,
      ⟨.humFresh, rfl⟩, ⟨.gasFresh, rfl⟩, ⟨.lastFault, rfl⟩]
  apply BitVec.eq_of_getLsbD_eq
  intro n hn
  obtain ⟨b, rfl⟩ := hbit n hn
  exact h b

@[simp] theorem Status.put_put_same (st : Status) (b : StatusBit) (v w : Bool) :
    Status.put (Status.put st b v) b w = Status.put st b w :=
  Status.ext_get fun x => by by_cases h : b = x <;> simp [h]

theorem Status.put_comm (st : Status) {a b : StatusBit} (hab : a ≠ b) (v w : Bool) :
    Status.put (Status.put st a v) b w = Status.put (Status.put st b w) a v :=
  Status.ext_get fun x => by
    by_cases hb : b = x
    · simp [← hb, hab]
    · simp [hb]

end Sys2Proof.Machine
end

section
/-! T_OFFSET reaches only TEMP_OUT and its FRESH bit (10 R19): a block with another offset, temperature and
TEMP_FRESH does what the block does, and ends as the same block with another such triple. -/

namespace Sys2Proof.Machine

/-- The block with another T_OFFSET, TEMP_OUT and TEMP_FRESH. -/
def Ccb.withOffset (c : Ccb) (offset : BitVec 16) (temp : BitVec 32) (fresh : Bool) : Ccb :=
  { c with tOffset := offset, tempOut := temp, status := Status.put c.status .tempFresh fresh }

theorem sameButOffset_iff {c d : Ccb} : SameButOffset c d ↔ ∃ o v b, d = c.withOffset o v b := by
  constructor
  · exact fun h => ⟨_, _, _, h⟩
  · rintro ⟨o, v, b, rfl⟩
    simp [SameButOffset, Ccb.withOffset, Ccb.flag]

@[simp] theorem withOffset_flag (c : Ccb) (o : BitVec 16) (v : BitVec 32) (b : Bool) (x : StatusBit) :
    Ccb.flag (c.withOffset o v b) x = if .tempFresh = x then b else Ccb.flag c x := by
  simp [Ccb.flag, Ccb.withOffset]

theorem withOffset_calWMask (c : Ccb) (o : BitVec 16) (v : BitVec 32) (b : Bool) :
    (c.withOffset o v b).calWMask = c.calWMask := rfl

theorem withOffset_rawWMask (c : Ccb) (o : BitVec 16) (v : BitVec 32) (b : Bool) :
    (c.withOffset o v b).rawWMask = c.rawWMask := rfl

theorem withOffset_rseW (c : Ccb) (o : BitVec 16) (v : BitVec 32) (b : Bool) :
    (c.withOffset o v b).rseW = c.rseW := rfl

theorem pressureOf_withOffset (c : Ccb) (o : BitVec 16) (v : BitVec 32) (b : Bool) :
    pressureOf (c.withOffset o v b) = pressureOf c := rfl

theorem humidityOf_withOffset (c : Ccb) (o : BitVec 16) (v : BitVec 32) (b : Bool) :
    humidityOf (c.withOffset o v b) = humidityOf c := rfl

theorem gasOf_withOffset (c : Ccb) (o : BitVec 16) (v : BitVec 32) (b : Bool) :
    gasOf (c.withOffset o v b) = gasOf c := rfl

/-- In a block with another offset, a command gives the same answer, up to such another triple. -/
def OffsetBlind (f : Command) : Prop :=
  ∀ c o v b, ∃ o' v' b', f (c.withOffset o v b) = (f c).map (·.withOffset o' v' b')

theorem offsetBlind_nop : OffsetBlind nop := fun c o v b => by
  refine ⟨o, v, b, ?_⟩
  simp [Ccb.withOffset, Except.map, Status.put_comm c.status (a := .tempFresh) (b := .lastFault)]

theorem offsetBlind_clrStatus : OffsetBlind clrStatus := fun c o v b => by
  refine ⟨o, v, b, ?_⟩
  simp [Ccb.withOffset, Except.map, Status.put_comm c.status (a := .tempFresh) (b := .lastFault)]

theorem offsetBlind_softReset : OffsetBlind softReset := fun _ _ _ _ => ⟨0, 0, false, rfl⟩

theorem offsetBlind_illegalCommand : OffsetBlind illegalCommand := fun _ _ _ _ => ⟨0, 0, false, rfl⟩

theorem afterCalLoad_put_tempFresh (st : Status) (b : Bool) :
    Status.afterCalLoad (Status.put st .tempFresh b) = Status.put (Status.afterCalLoad st) .tempFresh false :=
  Status.ext_get fun x => by cases x <;> simp

theorem afterUnpack_put_tempFresh (st : Status) (b : Bool) :
    Status.afterUnpack (Status.put st .tempFresh b) = Status.put (Status.afterUnpack st) .tempFresh false :=
  Status.ext_get fun x => by cases x <;> simp

theorem afterCompT_put_tempFresh (st : Status) (b : Bool) :
    Status.afterCompT (Status.put st .tempFresh b) = Status.put (Status.afterCompT st) .tempFresh true :=
  Status.ext_get fun x => by cases x <;> simp

theorem afterComp_put_tempFresh (st : Status) (b : Bool) {fresh : StatusBit} (hf : .tempFresh ≠ fresh) :
    Status.afterComp (Status.put st .tempFresh b) fresh = Status.put (Status.afterComp st fresh) .tempFresh b := by
  unfold Status.afterComp
  rw [Status.put_comm st hf, Status.put_comm _ (a := .tempFresh) (b := .lastFault) (by decide)]

theorem offsetBlind_calLoad : OffsetBlind calLoad := fun c o v b => by
  refine ⟨o, v, false, ?_⟩
  unfold calLoad
  rw [withOffset_calWMask]
  split_ifs
  · rfl
  · simp [Ccb.withOffset, Except.map, afterCalLoad_put_tempFresh]

theorem offsetBlind_unpackSample : OffsetBlind unpackSample := fun c o v b => by
  refine ⟨o, v, false, ?_⟩
  unfold unpackSample
  rw [withOffset_rawWMask]
  split_ifs
  · rfl
  · simp [Ccb.withOffset, Except.map, afterUnpack_put_tempFresh]

theorem offsetBlind_compTemperature : OffsetBlind compTemperature := fun c o v b => by
  refine ⟨o, BitVec.ofInt 32 (temperatureOf (c.withOffset o v b)).2, true, ?_⟩
  unfold compTemperature
  simp only [withOffset_flag, reduceCtorEq, if_false]
  split_ifs
  · rfl
  · rfl
  · simp [Ccb.withOffset, Except.map, afterCompT_put_tempFresh, temperatureOf, compT]

theorem offsetBlind_compPressure : OffsetBlind compPressure := fun c o v b => by
  refine ⟨o, v, b, ?_⟩
  unfold compPressure
  simp only [withOffset_flag, reduceCtorEq, if_false, pressureOf_withOffset]
  split_ifs
  · rfl
  · rfl
  · rfl
  · cases pressureOf c with
    | error e => rfl
    | ok p => simp [Ccb.withOffset, Except.map, afterComp_put_tempFresh]

theorem offsetBlind_compHumidity : OffsetBlind compHumidity := fun c o v b => by
  refine ⟨o, v, b, ?_⟩
  unfold compHumidity
  simp only [withOffset_flag, reduceCtorEq, if_false, humidityOf_withOffset]
  split_ifs
  · rfl
  · rfl
  · rfl
  · simp [Ccb.withOffset, Except.map, afterComp_put_tempFresh]

theorem offsetBlind_compGas : OffsetBlind compGas := fun c o v b => by
  refine ⟨o, v, b, ?_⟩
  unfold compGas
  simp only [withOffset_flag, reduceCtorEq, if_false, gasOf_withOffset]
  rw [withOffset_rseW]
  split_ifs
  · rfl
  · rfl
  · cases gasOf c with
    | error e => rfl
    | ok g => simp [Ccb.withOffset, Except.map, afterComp_put_tempFresh]

theorem offsetBlind_commandsOf (d : Byte) : ∀ f ∈ commandsOf d, OffsetBlind f := by
  intro f hf
  rcases commandsOf_mem d f hf with hm | rfl
  · simp only [readCycle, List.cons_append, List.nil_append, List.mem_cons, List.not_mem_nil, or_false] at hm
    rcases hm with rfl | rfl | rfl | rfl | rfl | rfl | rfl | rfl | rfl
    exacts [offsetBlind_nop, offsetBlind_calLoad, offsetBlind_clrStatus, offsetBlind_softReset,
      offsetBlind_unpackSample, offsetBlind_compTemperature, offsetBlind_compPressure, offsetBlind_compHumidity,
      offsetBlind_compGas]
  · exact offsetBlind_illegalCommand

theorem faultEntry_withOffset (e : Err) (c : Ccb) (o : BitVec 16) (v : BitVec 32) (b : Bool) :
    faultEntry e (c.withOffset o v b) = (faultEntry e c).withOffset o v b := by
  simp [faultEntry, Ccb.withOffset, Status.put_comm c.status (a := .tempFresh) (b := .lastFault)]

theorem runCommands_withOffset {fs : List Command} (hfs : ∀ f ∈ fs, OffsetBlind f) (c : Ccb) (o : BitVec 16)
    (v : BitVec 32) (b : Bool) :
    ∃ o' v' b', runCommands fs (c.withOffset o v b) = (runCommands fs c).withOffset o' v' b' := by
  induction fs generalizing c o v b with
  | nil => exact ⟨o, v, b, rfl⟩
  | cons f rest ih =>
    obtain ⟨o', v', b', hf⟩ := hfs f (List.mem_cons_self ..) c o v b
    cases hc : f c with
    | error e =>
      rw [hc] at hf
      rw [runCommands_cons_error hc, runCommands_cons_error hf]
      exact ⟨o, v, b, faultEntry_withOffset e c o v b⟩
    | ok c' =>
      rw [hc] at hf
      rw [runCommands_cons_ok hc, runCommands_cons_ok hf]
      exact ih (fun g hg => hfs g (List.mem_cons_of_mem _ hg)) c' o' v' b'

theorem memWrite_withOffset (a : Addr) (d : Byte) (c : Ccb) (o : BitVec 16) (v : BitVec 32) (b : Bool) :
    ∃ o' v' b', memWrite executeCommand a d (c.withOffset o v b) =
      (memWrite executeCommand a d c).withOffset o' v' b' := by
  unfold memWrite
  cases locate a with
  | calbuf i => exact ⟨o, v, b, rfl⟩
  | heatRangeRaw => exact ⟨o, v, b, rfl⟩
  | heatValRaw => exact ⟨o, v, b, rfl⟩
  | rseRaw =>
    refine ⟨o, v, b, ?_⟩
    simp [Ccb.withOffset, Status.put_comm c.status (a := .tempFresh) (b := .gasFresh)]
  | rawbuf i => exact ⟨o, v, b, rfl⟩
  | tOffsetLo => exact ⟨o.extractLsb' 8 8 ++ d, v, false, by simp [Ccb.withOffset]⟩
  | tOffsetHi => exact ⟨d ++ o.extractLsb' 0 8, v, false, by simp [Ccb.withOffset]⟩
  | cmd => exact runCommands_withOffset (offsetBlind_commandsOf d) c o v b
  | readOnly row k => exact ⟨o, v, b, rfl⟩
  | reserved => exact ⟨o, v, b, rfl⟩

theorem afterRead_withOffset (a : Addr) (c : Ccb) (o : BitVec 16) (v : BitVec 32) (b : Bool) :
    afterRead a (c.withOffset o v b) = (afterRead a c).withOffset o v b := by
  rw [afterRead_eq, afterRead_eq]
  split <;> rfl

/-- The instruction keeps two blocks equal but for the offset, the temperature and TEMP_FRESH. -/
def KeepsSameButOffset (i : Instr) : Prop :=
  ∀ s s' t t' : State, SameButOffset s.ccb s'.ccb → exec i s = .next t → exec i s' = .next t' →
    SameButOffset t.ccb t'.ccb

theorem keepsSameButOffset_wr (a : Addr) (d : Byte) : KeepsSameButOffset (.wr a d) := by
  intro s s' t t' hs ht ht'
  obtain ⟨o, v, b, hd⟩ := sameButOffset_iff.1 hs
  cases ht
  cases ht'
  rw [hd]
  exact sameButOffset_iff.2 (memWrite_withOffset a d s.ccb o v b)

theorem keepsSameButOffset_rd (a : Addr) : KeepsSameButOffset (.rd a) := by
  intro s s' t t' hs ht ht'
  obtain ⟨o, v, b, hd⟩ := sameButOffset_iff.1 hs
  cases ht
  cases ht'
  rw [hd]
  exact sameButOffset_iff.2 ⟨o, v, b, afterRead_withOffset a s.ccb o v b⟩

theorem keepsSameButOffset_command {d : Byte} {i : Instr} (hi : decodeCommand d = some i) :
    KeepsSameButOffset i := by
  intro s s' t t' hs ht ht'
  obtain ⟨o, v, b, hd⟩ := sameButOffset_iff.1 hs
  rw [exec_command hi] at ht ht'
  cases ht
  cases ht'
  rw [hd]
  exact sameButOffset_iff.2 (runCommands_withOffset (offsetBlind_commandsOf d) s.ccb o v b)

/-- Settles O34: an instruction is a bus write, a bus read or the run of a command's code, and each takes
a block with another offset to one that differs in the same three places. -/
theorem theOffsetReachesOnlyTempOut : Obligations.TheOffsetReachesOnlyTempOut :=
  forall_instr (P := KeepsSameButOffset) (fun a d _ => keepsSameButOffset_wr a d)
    (fun d _ => keepsSameButOffset_wr cmdAddr d)
    (fun d _ hi => ⟨keepsSameButOffset_command hi, keepsSameButOffset_wr cmdAddr d⟩) keepsSameButOffset_rd

end Sys2Proof.Machine
end

section
/-! The 26 readback addresses (10 R21, 30 R48): the two bytes of a row put together are the value modulo 2^16. -/

namespace Sys2Proof.Machine

theorem u16_extractLsb' (x : BitVec 16) : u16 (x.extractLsb' 0 8) (x.extractLsb' 8 8) = x := by
  apply BitVec.eq_of_toNat_eq
  have hx := x.isLt
  rw [u16_toNat, BitVec.extractLsb'_toNat, BitVec.extractLsb'_toNat, Nat.shiftRight_eq_div_pow]
  omega

theorem imageByte_two_append (v : Int) : (imageByte 2 v 1 ++ imageByte 2 v 0 : BitVec 16) = BitVec.ofInt 16 v :=
  u16_extractLsb' (BitVec.ofInt 16 v)

theorem coefRow_mem_roRows : ∀ row ∈ roCoefRows, row ∈ roRows ∧ row.width = 2 := by decide

theorem readByte_coefRow {row : RoRow} (hr : row ∈ roCoefRows) (c : Ccb) :
    (readByte (BitVec.ofNat 8 row.base + 1) c ++ readByte (BitVec.ofNat 8 row.base) c : BitVec 16) =
      BitVec.ofInt 16 (roValue c row.reg) := by
  obtain ⟨hm, hw⟩ := coefRow_mem_roRows row hr
  have hlo := readByte_readOnly hm (k := 0) (by omega) c
  have hhi := readByte_readOnly hm (k := 1) (by omega) c
  rw [BitVec.ofNat_add] at hhi
  rw [hw] at hlo hhi
  calc (readByte (BitVec.ofNat 8 row.base + 1) c ++ readByte (BitVec.ofNat 8 row.base) c : BitVec 16)
      = imageByte 2 (roValue c row.reg) 1 ++ imageByte 2 (roValue c row.reg) 0 := congrArg₂ _ hhi hlo
    _ = BitVec.ofInt 16 (roValue c row.reg) := imageByte_two_append _

theorem ofInt_resHeatRange (raw : Byte) :
    BitVec.ofInt 16 (resHeatRange raw) = (raw.extractLsb' 4 2).setWidth 16 := by
  rw [resHeatRange, BitVec.ofInt_natCast, BitVec.ofNat_toNat]

theorem ofInt_resHeatVal (raw : Byte) : BitVec.ofInt 16 (resHeatVal raw) = raw.signExtend 16 := rfl

/-- RANGE_SW_ERR as 16 bits, by RSE_SIGNED whatever it is (30 R48). -/
theorem ofInt_rangeSwErr (isSigned : Bool) (raw : Byte) :
    BitVec.ofInt 16 (rangeSwErr isSigned raw) =
      if isSigned then (raw.extractLsb' 4 4).signExtend 16 else (raw.extractLsb' 4 4).setWidth 16 := by
  rw [rangeSwErr_eq_spec]
  cases isSigned
  · exact (BitVec.ofInt_natCast ..).trans (BitVec.ofNat_toNat ..)
  · rfl

/-- Settles O20: the list is that of the readback rows, each with its register's value as 16 bits. -/
theorem coefficientsReadBackAsImages : Obligations.CoefficientsReadBackAsImages := by
  intro c p hp
  have hrow : ∃ row ∈ roCoefRows, (BitVec.ofNat 8 row.base, BitVec.ofInt 16 (roValue c row.reg)) = p := by
    rw [← List.mem_map]
    simpa [roCoefRows, roValue, BitVec.signExtend, ofInt_resHeatRange, ofInt_resHeatVal, ofInt_rangeSwErr] using hp
  obtain ⟨row, hr, rfl⟩ := hrow
  exact readByte_coefRow hr c

end Sys2Proof.Machine
end

section
/-! What a transaction that completes no command leaves. Two relations between the block before and after:
`SameReading`, for the writes that touch no input of a compensation function, and the weaker `SameResults`. -/

namespace Sys2Proof.Machine

/-- The raw codes (10 R22). -/
def Ccb.codes (c : Ccb) : BitVec 20 × BitVec 20 × BitVec 16 × BitVec 10 × BitVec 4 :=
  (c.adcT, c.adcP, c.adcH, c.adcG, c.gasRange)

/-- The output registers (10 R23). -/
def Ccb.outputs (c : Ccb) : BitVec 32 × BitVec 32 × BitVec 32 × BitVec 32 × BitVec 64 :=
  (c.tFine, c.tempOut, c.pressOut, c.humOut, c.gasOut)

/-- Everything that is computed, all that it is computed from, and every flag about it are the same; ERR,
LAST_FAULT, the buffers with their masks and the heater bytes may differ. -/
structure SameReading (c c' : Ccb) : Prop where
  coef : c'.coef = c.coef
  codes : c'.codes = c.codes
  outputs : c'.outputs = c.outputs
  rseRaw : c'.rseRaw = c.rseRaw
  rseW : c'.rseW = c.rseW
  tOffset : c'.tOffset = c.tOffset
  flag : ∀ b, .lastFault ≠ b → Ccb.flag c' b = Ccb.flag c b

/-- The latched inputs, the outputs and the two valid flags are the same, and no ERR bit is lost. -/
structure SameResults (c c' : Ccb) : Prop where
  codes : c'.codes = c.codes
  outputs : c'.outputs = c.outputs
  calValid : Ccb.flag c' .calValid = Ccb.flag c .calValid
  rawValid : Ccb.flag c' .rawValid = Ccb.flag c .rawValid
  err : ∀ n, c.err.getLsbD n = true → c'.err.getLsbD n = true

theorem SameReading.sameResults {c c' : Ccb} (h : SameReading c c')
    (herr : ∀ n, c.err.getLsbD n = true → c'.err.getLsbD n = true) : SameResults c c' :=
  ⟨h.codes, h.outputs, h.flag .calValid (by decide), h.flag .rawValid (by decide), herr⟩

theorem Status.get_put_of_ne (st : Status) {a b : StatusBit} (v : Bool) (hab : a ≠ b) :
    Status.get (Status.put st a v) b = Status.get st b := by
  rw [Status.get_put, if_neg hab]

theorem ErrReg.raise_keeps {r : ErrReg} {e : Err} {n : Nat} (h : r.getLsbD n = true) :
    (ErrReg.raise r e).getLsbD n = true := by
  rw [ErrReg.raise_getLsbD, h, Bool.true_or]

theorem sameReading_faultEntry (e : Err) (c : Ccb) : SameReading c (faultEntry e c) :=
  ⟨rfl, rfl, rfl, rfl, rfl, rfl, fun _ => Status.get_put_of_ne _ _⟩

theorem sameReading_busError (c : Ccb) : SameReading c (busError c) :=
  ⟨rfl, rfl, rfl, rfl, rfl, rfl, fun _ _ => rfl⟩

theorem sameReading_nop (c : Ccb) : SameReading c { c with status := Status.put c.status .lastFault false } :=
  ⟨rfl, rfl, rfl, rfl, rfl, rfl, fun _ => Status.get_put_of_ne _ _⟩

theorem sameReading_clrStatus (c : Ccb) :
    SameReading c { c with err := 0x0000, status := Status.put c.status .lastFault false } :=
  ⟨rfl, rfl, rfl, rfl, rfl, rfl, fun _ => Status.get_put_of_ne _ _⟩

theorem sameReading_calbuf (c : Ccb) (b : Vector Byte 41) (m : BitVec 41) :
    SameReading c { c with calbuf := b, calWMask := m } := ⟨rfl, rfl, rfl, rfl, rfl, rfl, fun _ _ => rfl⟩

theorem sameReading_rawbuf (c : Ccb) (b : Vector Byte 10) (m : BitVec 10) :
    SameReading c { c with rawbuf := b, rawWMask := m } := ⟨rfl, rfl, rfl, rfl, rfl, rfl, fun _ _ => rfl⟩

theorem sameReading_heatRange (c : Ccb) (d : Byte) : SameReading c { c with heatRangeRaw := d } :=
  ⟨rfl, rfl, rfl, rfl, rfl, rfl, fun _ _ => rfl⟩

theorem sameReading_heatVal (c : Ccb) (d : Byte) : SameReading c { c with heatValRaw := d } :=
  ⟨rfl, rfl, rfl, rfl, rfl, rfl, fun _ _ => rfl⟩

theorem sameResults_faultEntry (e : Err) (c : Ccb) : SameResults c (faultEntry e c) :=
  (sameReading_faultEntry e c).sameResults fun _ => ErrReg.raise_keeps

theorem sameResults_busError (c : Ccb) : SameResults c (busError c) :=
  (sameReading_busError c).sameResults fun _ => ErrReg.raise_keeps

theorem sameResults_memWrite {a : Addr} (ha : a ≠ cmdAddr) (d : Byte) (c : Ccb) :
    SameResults c (memWrite executeCommand a d c) := by
  rcases memWrite_cases executeCommand a d c with ⟨hc, _⟩ | ⟨i, _, h⟩ | ⟨i, _, h⟩ | ⟨_, h⟩ | ⟨_, h⟩ | ⟨_, h⟩ |
    ⟨_, h⟩ | ⟨_, h⟩ | ⟨_, h⟩
  · exact absurd hc ha
  · exact h ▸ (sameReading_calbuf c _ _).sameResults fun _ => id
  · exact h ▸ (sameReading_rawbuf c _ _).sameResults fun _ => id
  · exact h ▸ (sameReading_heatRange c d).sameResults fun _ => id
  · exact h ▸ (sameReading_heatVal c d).sameResults fun _ => id
  · exact h ▸ ⟨rfl, rfl, Status.get_put_of_ne _ _ (by decide),
      Status.get_put_of_ne _ _ (by decide), fun _ => id⟩
  · exact h ▸ ⟨rfl, rfl, Status.get_put_of_ne _ _ (by decide),
      Status.get_put_of_ne _ _ (by decide), fun _ => id⟩
  · exact h ▸ ⟨rfl, rfl, Status.get_put_of_ne _ _ (by decide),
      Status.get_put_of_ne _ _ (by decide), fun _ => id⟩
  · exact h ▸ sameResults_busError c

theorem sameResults_afterRead (a : Addr) (c : Ccb) : SameResults c (afterRead a c) := by
  rw [afterRead_eq]
  split
  · exact sameResults_busError c
  · exact ⟨rfl, rfl, rfl, rfl, fun _ => id⟩

end Sys2Proof.Machine
end

section
/-! What an instruction can do to the block: complete a command, or leave the results. The frame statements
are read off case by case. -/

namespace Sys2Proof.Machine

/-- What an instruction can do to a block `c`: each command that changes results, when it completes
(COMP_ALL when it gets past its UNPACK), and everything else. -/
inductive Effect (c : Ccb) (i : Instr) (c' : Ccb) : Prop
  | none (h : SameResults c c')
  | calLoad (hi : i = .calLoad ∨ i = .wr 0x3C 0x01) (h : calLoad c = .ok c')
  | unpack (hi : i = .unpack ∨ i = .wr 0x3C 0x02) (h : unpackSample c = .ok c')
  | compT (hi : i = .compT ∨ i = .wr 0x3C 0x03) (h : compTemperature c = .ok c')
  | compP (hi : i = .compP ∨ i = .wr 0x3C 0x04) (h : compPressure c = .ok c')
  | compH (hi : i = .compH ∨ i = .wr 0x3C 0x05) (h : compHumidity c = .ok c')
  | compG (hi : i = .compG ∨ i = .wr 0x3C 0x06) (h : compGas c = .ok c')
  | compAll (hi : i = .compAll ∨ i = .wr 0x3C 0x07) (hm : c.rawWMask = BitVec.allOnes 10)
      (h : c' = runCommands readCycle c)
  | clrStatus (hi : i = .clrStatus ∨ i = .wr 0x3C 0x08)
      (h : c' = { c with err := 0x0000, status := Status.put c.status .lastFault false })
  | srst (hi : i = .srst ∨ i = .wr 0x3C 0x0F) (h : c' = Ccb.reset)

theorem effect_single {f : Command} {c : Ccb} {i : Instr} (hok : ∀ c', f c = .ok c' → Effect c i c') :
    Effect c i (runCommands [f] c) := by
  rw [runCommands_single]
  cases h : f c with
  | ok c' => exact hok c' h
  | error e => exact .none (sameResults_faultEntry e c)

theorem effect_readCycle {c : Ccb} {i : Instr} (hi : i = .compAll ∨ i = .wr 0x3C 0x07) :
    Effect c i (runCommands readCycle c) := by
  by_cases hm : c.rawWMask = BitVec.allOnes 10
  · exact .compAll hi hm rfl
  · have hf : runCommands readCycle c = faultEntry .rawPartial c :=
      runCommands_cons_error (unpackSample_error_iff.2 ⟨hm, rfl⟩)
    exact hf ▸ .none (sameResults_faultEntry .rawPartial c)

/-- A command, or the write of its code, has its effect. -/
theorem effect_of_command {d : Byte} {j : Instr} (hj : decodeCommand d = some j) {i : Instr}
    (hi : i = j ∨ i = .wr 0x3C d) (c : Ccb) : Effect c i (runCommands (commandsOf d) c) := by
  have hm := (decodeCommand_iff_mem d j).1 hj
  simp only [commandTable, List.mem_cons, Prod.mk.injEq, List.not_mem_nil, or_false] at hm
  rcases hm with ⟨rfl, rfl⟩ | ⟨rfl, rfl⟩ | ⟨rfl, rfl⟩ | ⟨rfl, rfl⟩ | ⟨rfl, rfl⟩ | ⟨rfl, rfl⟩ | ⟨rfl, rfl⟩ |
    ⟨rfl, rfl⟩ | ⟨rfl, rfl⟩ | ⟨rfl, rfl⟩
  · exact .none ((sameReading_nop c).sameResults fun _ => id)
  · exact effect_single fun _ => .calLoad hi
  · exact effect_single fun _ => .unpack hi
  · exact effect_single fun _ => .compT hi
  · exact effect_single fun _ => .compP hi
  · exact effect_single fun _ => .compH hi
  · exact effect_single fun _ => .compG hi
  · exact effect_readCycle hi
  · exact .clrStatus hi rfl
  · exact .srst hi rfl

theorem commandsOf_reserved {d : Byte} (hd : decodeCommand d = none) : commandsOf d = [illegalCommand] := by
  simp [commandsOf, hd]

/-- The inversion lemma of exec: every instruction has an effect of the list. -/
theorem exec_effect {i : Instr} {s t : State} (h : exec i s = .next t) : Effect s.ccb i t.ccb := by
  induction i using forall_instr generalizing s t with
  | write a d ha =>
    cases h
    exact .none (sameResults_memWrite ha d s.ccb)
  | illegal d hd =>
    cases h
    show Effect s.ccb _ (runCommands (commandsOf d) s.ccb)
    rw [commandsOf_reserved hd]
    exact effect_single nofun
  | command d i hd =>
    constructor
    · intro s t h
      rw [exec_command hd] at h
      cases h
      exact effect_of_command hd (.inl rfl) s.ccb
    · intro s t h
      cases h
      exact effect_of_command hd (.inr rfl) s.ccb
  | read a =>
    cases h
    exact .none (sameResults_afterRead a s.ccb)

/-- Settles O14: both run the commands of the code. -/
theorem writeToCmdRunsTheCommand : Obligations.WriteToCmdRunsTheCommand := by
  intro d i s hd
  rw [exec_command hd]
  rfl

end Sys2Proof.Machine
end

section
/-! The frame statements of 10 R22 to R25. -/

namespace Sys2Proof.Machine

/-- The commands of COMP_ALL after its UNPACK (43 R72). -/
def compensations : List Command := [compTemperature, compPressure, compHumidity, compGas]

theorem compensation_ok {f : Command} (hf : f ∈ compensations) {c c' : Ccb} (h : f c = .ok c') :
    c'.codes = c.codes ∧ c'.err = c.err ∧ Ccb.flag c' .calValid = Ccb.flag c .calValid ∧
      Ccb.flag c' .rawValid = Ccb.flag c .rawValid := by
  simp only [compensations, List.mem_cons, List.not_mem_nil, or_false] at hf
  rcases hf with rfl | rfl | rfl | rfl
  · obtain ⟨_, _, rfl⟩ := compTemperature_ok_iff.1 h
    simp [Ccb.flag, Ccb.codes]
  · obtain ⟨_, _, _, p, _, rfl⟩ := compPressure_ok_iff.1 h
    simp [Ccb.flag, Ccb.codes]
  · obtain ⟨_, _, _, rfl⟩ := compHumidity_ok_iff.1 h
    simp [Ccb.flag, Ccb.codes]
  · obtain ⟨_, _, g, _, rfl⟩ := compGas_ok_iff.1 h
    simp [Ccb.flag, Ccb.codes]

theorem unpackSample_ok {c c' : Ccb} (h : unpackSample c = .ok c') :
    c'.outputs = c.outputs ∧ c'.err = c.err ∧ Ccb.flag c' .calValid = Ccb.flag c .calValid ∧
      Ccb.flag c' .rawValid = true := by
  obtain ⟨_, rfl⟩ := unpackSample_ok_iff.1 h
  simp [Ccb.flag, Ccb.outputs]

theorem calLoad_ok {c c' : Ccb} (h : calLoad c = .ok c') :
    c'.codes = c.codes ∧ c'.outputs = c.outputs ∧ c'.err = c.err ∧ Ccb.flag c' .calValid = true ∧
      Ccb.flag c' .rawValid = Ccb.flag c .rawValid := by
  obtain ⟨_, rfl⟩ := calLoad_ok_iff.1 h
  simp [Ccb.flag, Ccb.codes, Ccb.outputs]

/-- COMP_ALL, wherever it ends, keeps CAL_VALID, every set ERR bit, and RAW_VALID if it is set. -/
theorem readCycle_keeps (c : Ccb) :
    Ccb.flag (runCommands readCycle c) .calValid = Ccb.flag c .calValid ∧
      (∀ n, c.err.getLsbD n = true → (runCommands readCycle c).err.getLsbD n = true) ∧
      (Ccb.flag c .rawValid = true → Ccb.flag (runCommands readCycle c) .rawValid = true) := by
  refine runCommands_keeps (fun c' => Ccb.flag c' .calValid = Ccb.flag c .calValid ∧
      (∀ n, c.err.getLsbD n = true → c'.err.getLsbD n = true) ∧
      (Ccb.flag c .rawValid = true → Ccb.flag c' .rawValid = true)) ?_ _ c ?_ ⟨rfl, fun _ => id, id⟩
  · rintro e c' ⟨hcal, herr, hraw⟩
    have hsame := sameResults_faultEntry e c'
    exact ⟨hsame.calValid.trans hcal, fun n hn => hsame.err n (herr n hn), fun h => hsame.rawValid.trans (hraw h)⟩
  · rintro f hf c₁ c₂ ⟨hcal, herr, hraw⟩ hok
    rcases List.mem_cons.1 hf with rfl | hf
    · obtain ⟨_, herr', hcal', hraw'⟩ := unpackSample_ok hok
      exact ⟨hcal'.trans hcal, herr' ▸ herr, fun _ => hraw'⟩
    · obtain ⟨_, herr', hcal', hraw'⟩ := compensation_ok hf hok
      exact ⟨hcal'.trans hcal, herr' ▸ herr, fun h => hraw'.trans (hraw h)⟩

/-- Settles O29: of the effects, only those of UNPACK, COMP_ALL and SRST write a raw code. -/
theorem rawCodesChangeOnlyByUnpackOrReset : Obligations.RawCodesChangeOnlyByUnpackOrReset := by
  intro i s t h hne
  change t.ccb.codes ≠ s.ccb.codes at hne
  cases exec_effect h with
  | none hsame => exact absurd hsame.codes hne
  | calLoad _ hok => exact absurd (calLoad_ok hok).1 hne
  | unpack hi hok =>
    obtain ⟨hm, _⟩ := unpackSample_ok_iff.1 hok
    exact .inl ⟨by rcases hi with rfl | rfl <;> simp, hm⟩
  | compT _ hok | compP _ hok | compH _ hok | compG _ hok =>
    exact absurd (compensation_ok (by simp [compensations]) hok).1 hne
  | compAll hi hm _ => exact .inl ⟨by rcases hi with rfl | rfl <;> simp, hm⟩
  | clrStatus _ ht => exact absurd (by rw [ht]; rfl) hne
  | srst hi _ => exact .inr hi

/-- Settles O53: a completed command other than CLR_STATUS and SRST keeps ERR, and a fault only sets a bit. -/
theorem errBitsAreSticky : Obligations.ErrBitsAreSticky := by
  intro i s t n h hn
  cases exec_effect h with
  | none hsame => exact .inl (hsame.err n hn)
  | calLoad _ hok =>
    obtain ⟨_, _, herr, _⟩ := calLoad_ok hok
    exact .inl (herr ▸ hn)
  | unpack _ hok =>
    obtain ⟨_, herr, _⟩ := unpackSample_ok hok
    exact .inl (herr ▸ hn)
  | compT _ hok | compP _ hok | compH _ hok | compG _ hok =>
    obtain ⟨_, herr, _⟩ := compensation_ok (by simp [compensations]) hok
    exact .inl (herr ▸ hn)
  | compAll _ _ ht =>
    obtain ⟨_, herr, _⟩ := readCycle_keeps s.ccb
    exact .inl (ht ▸ herr n hn)
  | clrStatus hi _ => exact .inr (by rcases hi with rfl | rfl <;> simp)
  | srst hi _ => exact .inr (by rcases hi with rfl | rfl <;> simp)

/-- What becomes of CAL_VALID: it is kept, a completed CAL_LOAD sets it, or SRST clears it. -/
theorem effect_calValid {c c' : Ccb} {i : Instr} (h : Effect c i c') :
    Ccb.flag c' .calValid = Ccb.flag c .calValid ∨
      ((i = .calLoad ∨ i = .wr 0x3C 0x01) ∧ c.calWMask = BitVec.allOnes 41 ∧ Ccb.flag c' .calValid = true) ∨
      ((i = .srst ∨ i = .wr 0x3C 0x0F) ∧ Ccb.flag c' .calValid = false) := by
  cases h with
  | none hsame => exact .inl hsame.calValid
  | calLoad hi hok =>
    obtain ⟨_, _, _, hcal, _⟩ := calLoad_ok hok
    exact .inr (.inl ⟨hi, (calLoad_ok_iff.1 hok).1, hcal⟩)
  | unpack _ hok =>
    obtain ⟨_, _, hcal, _⟩ := unpackSample_ok hok
    exact .inl hcal
  | compT _ hok | compP _ hok | compH _ hok | compG _ hok =>
    obtain ⟨_, _, hcal, _⟩ := compensation_ok (by simp [compensations]) hok
    exact .inl hcal
  | compAll _ _ ht => exact .inl (ht ▸ (readCycle_keeps c).1)
  | clrStatus _ ht => exact .inl (ht ▸ (sameReading_clrStatus c).flag .calValid (by decide))
  | srst hi ht => exact .inr (.inr ⟨hi, ht ▸ Ccb.reset_flag .calValid⟩)

/-- What becomes of RAW_VALID: it is kept, an UNPACK that completes sets it, or SRST clears it. COMP_ALL
leaves it set if it was. -/
theorem effect_rawValid {c c' : Ccb} {i : Instr} (h : Effect c i c') :
    Ccb.flag c' .rawValid = Ccb.flag c .rawValid ∨
      (i ∈ [Instr.unpack, .compAll, .wr 0x3C 0x02, .wr 0x3C 0x07] ∧ c.rawWMask = BitVec.allOnes 10 ∧
        (Ccb.flag c .rawValid = true → Ccb.flag c' .rawValid = true)) ∨
      ((i = .srst ∨ i = .wr 0x3C 0x0F) ∧ Ccb.flag c' .rawValid = false) := by
  cases h with
  | none hsame => exact .inl hsame.rawValid
  | calLoad _ hok =>
    obtain ⟨_, _, _, _, hraw⟩ := calLoad_ok hok
    exact .inl hraw
  | unpack hi hok =>
    obtain ⟨_, _, _, hraw⟩ := unpackSample_ok hok
    exact .inr (.inl ⟨by rcases hi with rfl | rfl <;> simp, (unpackSample_ok_iff.1 hok).1, fun _ => hraw⟩)
  | compT _ hok | compP _ hok | compH _ hok | compG _ hok =>
    obtain ⟨_, _, _, hraw⟩ := compensation_ok (by simp [compensations]) hok
    exact .inl hraw
  | compAll hi hm ht =>
    obtain ⟨_, _, hraw⟩ := readCycle_keeps c
    exact .inr (.inl ⟨by rcases hi with rfl | rfl <;> simp, hm, ht ▸ hraw⟩)
  | clrStatus _ ht => exact .inl (ht ▸ (sameReading_clrStatus c).flag .rawValid (by decide))
  | srst hi ht => exact .inr (.inr ⟨hi, ht ▸ Ccb.reset_flag .rawValid⟩)

/-- Settles O54, by what becomes of the two flags. -/
theorem validFlagsAreClearedOnlyByReset : Obligations.ValidFlagsAreClearedOnlyByReset := by
  intro i s t h
  have hcal := effect_calValid (exec_effect h)
  have hraw := effect_rawValid (exec_effect h)
  refine ⟨fun hs ht => ?_, fun hs ht => ?_, fun hs ht => ?_, fun hs ht => ?_⟩
  · rcases hcal with hkeep | ⟨_, _, hset⟩ | ⟨hi, _⟩
    · simp [hs, ht] at hkeep
    · simp [ht] at hset
    · exact hi
  · rcases hraw with hkeep | ⟨_, _, hset⟩ | ⟨hi, _⟩
    · simp [hs, ht] at hkeep
    · simp [hs, ht] at hset
    · exact hi
  · rcases hcal with hkeep | ⟨hi, hm, _⟩ | ⟨_, hclear⟩
    · simp [hs, ht] at hkeep
    · exact ⟨hi, hm⟩
    · simp [ht] at hclear
  · rcases hraw with hkeep | ⟨hi, hm, _⟩ | ⟨_, hclear⟩
    · simp [hs, ht] at hkeep
    · exact ⟨hi, hm⟩
    · simp [ht] at hclear

/-- Of the outputs, an instruction changes at most those of its own command (10 R23). -/
def ChangesOnlyItsOutput (i : Instr) (c c' : Ccb) : Prop :=
  (i ∉ [Instr.compT, .wr 0x3C 0x03] → c'.tFine = c.tFine ∧ c'.tempOut = c.tempOut) ∧
  (i ∉ [Instr.compP, .wr 0x3C 0x04] → c'.pressOut = c.pressOut) ∧
  (i ∉ [Instr.compH, .wr 0x3C 0x05] → c'.humOut = c.humOut) ∧
  (i ∉ [Instr.compG, .wr 0x3C 0x06] → c'.gasOut = c.gasOut)

theorem changesOnlyItsOutput_of_outputs_eq (i : Instr) {c c' : Ccb} (h : c'.outputs = c.outputs) :
    ChangesOnlyItsOutput i c c' := by
  simp only [Ccb.outputs, Prod.mk.injEq] at h
  obtain ⟨hfine, htemp, hpress, hhum, hgas⟩ := h
  exact ⟨fun _ => ⟨hfine, htemp⟩, fun _ => hpress, fun _ => hhum, fun _ => hgas⟩

/-- Settles O55: a completed COMP_T, COMP_P, COMP_H or COMP_G writes its own outputs, and CAL_LOAD, UNPACK
and CLR_STATUS write none. -/
theorem outputsChangeOnlyByTheirCommands : Obligations.OutputsChangeOnlyByTheirCommands := by
  intro i s t h
  change _ ∨ ChangesOnlyItsOutput i s.ccb t.ccb
  cases exec_effect h with
  | none hsame => exact .inr (changesOnlyItsOutput_of_outputs_eq i hsame.outputs)
  | calLoad _ hok => exact .inr (changesOnlyItsOutput_of_outputs_eq i (calLoad_ok hok).2.1)
  | unpack _ hok => exact .inr (changesOnlyItsOutput_of_outputs_eq i (unpackSample_ok hok).1)
  | compT hi hok =>
    obtain ⟨_, _, ht⟩ := compTemperature_ok_iff.1 hok
    exact .inr (ht ▸ ⟨fun hn => absurd (List.mem_pair.2 hi) hn, fun _ => rfl, fun _ => rfl, fun _ => rfl⟩)
  | compP hi hok =>
    obtain ⟨_, _, _, p, _, ht⟩ := compPressure_ok_iff.1 hok
    exact .inr (ht ▸ ⟨fun _ => ⟨rfl, rfl⟩, fun hn => absurd (List.mem_pair.2 hi) hn, fun _ => rfl, fun _ => rfl⟩)
  | compH hi hok =>
    obtain ⟨_, _, _, ht⟩ := compHumidity_ok_iff.1 hok
    exact .inr (ht ▸ ⟨fun _ => ⟨rfl, rfl⟩, fun _ => rfl, fun hn => absurd (List.mem_pair.2 hi) hn, fun _ => rfl⟩)
  | compG hi hok =>
    obtain ⟨_, _, g, _, ht⟩ := compGas_ok_iff.1 hok
    exact .inr (ht ▸ ⟨fun _ => ⟨rfl, rfl⟩, fun _ => rfl, fun _ => rfl, fun hn => absurd (List.mem_pair.2 hi) hn⟩)
  | compAll hi _ _ => exact .inl (by rcases hi with rfl | rfl <;> simp)
  | clrStatus _ ht => exact .inr (changesOnlyItsOutput_of_outputs_eq i (by rw [ht]; rfl))
  | srst hi _ => exact .inl (by rcases hi with rfl | rfl <;> simp)

end Sys2Proof.Machine
end

section
/-! The state invariant of 10 R26 and 10 R25, and that every write of the block keeps it. -/

namespace Sys2Proof.Machine

theorem ErrReg.raise_reserved {r : ErrReg} {e : Err} (h : ∀ n, 11 ≤ n → r.getLsbD n = false) :
    ∀ n, 11 ≤ n → (ErrReg.raise r e).getLsbD n = false := by
  intro n hn
  have hcode := e.code_lt
  rw [ErrReg.raise_getLsbD, h n hn, Bool.false_or, decide_eq_false_iff_not]
  omega

/-- The invariant speaks of no more than the reading and ERR. -/
theorem Ccb.Inv.of_sameReading {c c' : Ccb} (h : c.Inv) (hs : SameReading c c')
    (herr : ∀ n, 11 ≤ n → c'.err.getLsbD n = false) : c'.Inv := by
  obtain ⟨hcoef, hcodes, _, _, hrse, _, hflag⟩ := hs
  simp only [Ccb.codes, Prod.mk.injEq] at hcodes
  obtain ⟨hadcT, hadcP, hadcH, hadcG, hrange⟩ := hcodes
  obtain ⟨htf, ht, hp, hh, hg, hcal, hraw, _⟩ := h
  constructor
  case reserved_err_bits => exact herr
  all_goals simpa [hflag, hcoef, hrse, hadcT, hadcP, hadcH, hadcG, hrange]

theorem Ccb.Inv.calLoad {c c' : Ccb} (h : c.Inv) (hc : calLoad c = .ok c') : c'.Inv := by
  obtain ⟨_, rfl⟩ := calLoad_ok_iff.1 hc
  exact {
    tfine_needs_inputs := by simp [Ccb.flag]
    temp_needs_tfine := by simp [Ccb.flag]
    press_needs_tfine := by simp [Ccb.flag]
    hum_needs_tfine := by simp [Ccb.flag]
    gas_needs_inputs := by simpa [Ccb.flag] using h.gas_needs_inputs
    no_cal_no_coef := by simp [Ccb.flag]
    no_raw_no_codes := by simpa [Ccb.flag] using h.no_raw_no_codes
    reserved_err_bits := h.reserved_err_bits }

theorem Ccb.Inv.unpackSample {c c' : Ccb} (h : c.Inv) (hc : unpackSample c = .ok c') : c'.Inv := by
  obtain ⟨_, rfl⟩ := unpackSample_ok_iff.1 hc
  exact {
    tfine_needs_inputs := by simp [Ccb.flag]
    temp_needs_tfine := by simp [Ccb.flag]
    press_needs_tfine := by simp [Ccb.flag]
    hum_needs_tfine := by simp [Ccb.flag]
    gas_needs_inputs := by simp [Ccb.flag]
    no_cal_no_coef := by simpa [Ccb.flag] using h.no_cal_no_coef
    no_raw_no_codes := by simp [Ccb.flag]
    reserved_err_bits := h.reserved_err_bits }

theorem Ccb.Inv.compTemperature {c c' : Ccb} (h : c.Inv) (hc : compTemperature c = .ok c') : c'.Inv := by
  obtain ⟨hcal, hraw, rfl⟩ := compTemperature_ok_iff.1 hc
  simp only [Ccb.flag] at hcal hraw
  exact {
    tfine_needs_inputs := by simp [Ccb.flag, hcal, hraw]
    temp_needs_tfine := by simp [Ccb.flag]
    press_needs_tfine := by simp [Ccb.flag]
    hum_needs_tfine := by simp [Ccb.flag]
    gas_needs_inputs := by simpa [Ccb.flag] using h.gas_needs_inputs
    no_cal_no_coef := by simp [Ccb.flag, hcal]
    no_raw_no_codes := by simp [Ccb.flag, hraw]
    reserved_err_bits := h.reserved_err_bits }

theorem Ccb.Inv.compPressure {c c' : Ccb} (h : c.Inv) (hc : compPressure c = .ok c') : c'.Inv := by
  obtain ⟨_, _, htfine, p, _, rfl⟩ := compPressure_ok_iff.1 hc
  simp only [Ccb.flag] at htfine
  exact {
    tfine_needs_inputs := by simpa [Ccb.flag] using h.tfine_needs_inputs
    temp_needs_tfine := by simpa [Ccb.flag] using h.temp_needs_tfine
    press_needs_tfine := by simp [Ccb.flag, htfine]
    hum_needs_tfine := by simpa [Ccb.flag] using h.hum_needs_tfine
    gas_needs_inputs := by simpa [Ccb.flag] using h.gas_needs_inputs
    no_cal_no_coef := by simpa [Ccb.flag] using h.no_cal_no_coef
    no_raw_no_codes := by simpa [Ccb.flag] using h.no_raw_no_codes
    reserved_err_bits := h.reserved_err_bits }

theorem Ccb.Inv.compHumidity {c c' : Ccb} (h : c.Inv) (hc : compHumidity c = .ok c') : c'.Inv := by
  obtain ⟨_, _, htfine, rfl⟩ := compHumidity_ok_iff.1 hc
  simp only [Ccb.flag] at htfine
  exact {
    tfine_needs_inputs := by simpa [Ccb.flag] using h.tfine_needs_inputs
    temp_needs_tfine := by simpa [Ccb.flag] using h.temp_needs_tfine
    press_needs_tfine := by simpa [Ccb.flag] using h.press_needs_tfine
    hum_needs_tfine := by simp [Ccb.flag, htfine]
    gas_needs_inputs := by simpa [Ccb.flag] using h.gas_needs_inputs
    no_cal_no_coef := by simpa [Ccb.flag] using h.no_cal_no_coef
    no_raw_no_codes := by simpa [Ccb.flag] using h.no_raw_no_codes
    reserved_err_bits := h.reserved_err_bits }

theorem Ccb.Inv.compGas {c c' : Ccb} (h : c.Inv) (hc : compGas c = .ok c') : c'.Inv := by
  obtain ⟨hraw, hrse, g, _, rfl⟩ := compGas_ok_iff.1 hc
  simp only [Ccb.flag] at hraw
  exact {
    tfine_needs_inputs := by simpa [Ccb.flag] using h.tfine_needs_inputs
    temp_needs_tfine := by simpa [Ccb.flag] using h.temp_needs_tfine
    press_needs_tfine := by simpa [Ccb.flag] using h.press_needs_tfine
    hum_needs_tfine := by simpa [Ccb.flag] using h.hum_needs_tfine
    gas_needs_inputs := by simp [Ccb.flag, hraw, hrse]
    no_cal_no_coef := by simpa [Ccb.flag] using h.no_cal_no_coef
    no_raw_no_codes := by simp [Ccb.flag, hraw]
    reserved_err_bits := h.reserved_err_bits }

theorem Ccb.Inv.writeRse {c : Ccb} (h : c.Inv) (d : Byte) :
    Ccb.Inv { c with rseRaw := d, rseW := true, status := Status.put c.status .gasFresh false } where
  tfine_needs_inputs := by simpa [Ccb.flag] using h.tfine_needs_inputs
  temp_needs_tfine := by simpa [Ccb.flag] using h.temp_needs_tfine
  press_needs_tfine := by simpa [Ccb.flag] using h.press_needs_tfine
  hum_needs_tfine := by simpa [Ccb.flag] using h.hum_needs_tfine
  gas_needs_inputs := by simp [Ccb.flag]
  no_cal_no_coef := by simpa [Ccb.flag] using h.no_cal_no_coef
  no_raw_no_codes := by simpa [Ccb.flag] using h.no_raw_no_codes
  reserved_err_bits := h.reserved_err_bits

theorem Ccb.Inv.writeOffset {c : Ccb} (h : c.Inv) (v : BitVec 16) :
    Ccb.Inv { c with tOffset := v, status := Status.put c.status .tempFresh false } where
  tfine_needs_inputs := by simpa [Ccb.flag] using h.tfine_needs_inputs
  temp_needs_tfine := by simp [Ccb.flag]
  press_needs_tfine := by simpa [Ccb.flag] using h.press_needs_tfine
  hum_needs_tfine := by simpa [Ccb.flag] using h.hum_needs_tfine
  gas_needs_inputs := by simpa [Ccb.flag] using h.gas_needs_inputs
  no_cal_no_coef := by simpa [Ccb.flag] using h.no_cal_no_coef
  no_raw_no_codes := by simpa [Ccb.flag] using h.no_raw_no_codes
  reserved_err_bits := h.reserved_err_bits

theorem Ccb.inv_reset : Ccb.reset.Inv := by
  constructor <;> simp

theorem inv_kept : KeptByBlock Ccb.Inv where
  fault e c h := h.of_sameReading (sameReading_faultEntry e c) (ErrReg.raise_reserved h.reserved_err_bits)
  busFault c h := h.of_sameReading (sameReading_busError c) (ErrReg.raise_reserved h.reserved_err_bits)
  nop c h := h.of_sameReading (sameReading_nop c) h.reserved_err_bits
  clrStatus c h := h.of_sameReading (sameReading_clrStatus c) fun _ _ => BitVec.getLsbD_zero
  reset := Ccb.inv_reset
  calLoad _ _ h := h.calLoad
  unpack _ _ h := h.unpackSample
  compT _ _ h := h.compTemperature
  compP _ _ h := h.compPressure
  compH _ _ h := h.compHumidity
  compG _ _ h := h.compGas
  calbuf c _ _ h := h.of_sameReading (sameReading_calbuf c _ _) h.reserved_err_bits
  rawbuf c _ _ h := h.of_sameReading (sameReading_rawbuf c _ _) h.reserved_err_bits
  heatRange c d h := h.of_sameReading (sameReading_heatRange c d) h.reserved_err_bits
  heatVal c d h := h.of_sameReading (sameReading_heatVal c d) h.reserved_err_bits
  rse _ d h := h.writeRse d
  offset _ v h := h.writeOffset v

/-- Settles O57: at reset every flag, every ERR bit, and every coefficient and raw code is 0. -/
theorem resetHasTheStateInvariant : Obligations.ResetHasTheStateInvariant := Ccb.inv_reset

/-- Settles O56: each write of the block keeps the invariant. -/
theorem everyStepKeepsTheStateInvariant : Obligations.EveryStepKeepsTheStateInvariant :=
  fun _ _ hs hst => inv_kept.step hst hs

/-- Settles O58: the six implications are those of the invariant, which holds in every reachable state. -/
theorem reachableStatesHaveTheStateInvariant : Obligations.ReachableStatesHaveTheStateInvariant := by
  intro s hr
  have h := inv_kept.reachable hr
  exact ⟨h.tfine_needs_inputs, h.temp_needs_tfine, fun hf => hf.elim h.press_needs_tfine h.hum_needs_tfine,
    h.gas_needs_inputs, h.no_cal_no_coef, h.no_raw_no_codes⟩

end Sys2Proof.Machine
end

section
/-! Fine temperature, temperature and humidity fit their registers (42 R69, R64), so that what is stored is the
exact value. -/

namespace Sys2Proof.Machine

theorem abs_asr_le {a b : Int} {n : Nat} (h : |a| ≤ b * 2 ^ n) : |asr a n| ≤ b := by
  have hpow : (0 : Int) < 2 ^ n := by positivity
  obtain ⟨hlo, hhi⟩ := abs_le.1 h
  rw [asr_eq, abs_le]
  exact ⟨(Int.le_ediv_iff_mul_le hpow).2 (by linarith), Int.ediv_le_of_le_mul hpow hhi⟩

theorem abs_mul_le {a b x y : Int} (ha : |a| ≤ x) (hb : |b| ≤ y) : |a * b| ≤ x * y := by
  rw [abs_mul]
  exact mul_le_mul ha hb (abs_nonneg b) ((abs_nonneg a).trans ha)

theorem abs_fineTemp_le (adcT : BitVec 20) (t1 t2 : BitVec 16) (t3 : BitVec 8) :
    |fineTemp adcT.toNat t1.toNat t2.toInt t3.toInt| ≤ 2228204 := by
  have hadc := adcT.isLt
  have ht1 := t1.isLt
  have ht2 : |t2.toInt| ≤ 32768 := abs_le.2 ⟨BitVec.le_toInt t2, (BitVec.toInt_lt (x := t2)).le⟩
  have ht3 : |shl t3.toInt 4| ≤ 2048 := by
    have hlo := BitVec.le_toInt t3
    have hhi := BitVec.toInt_lt (x := t3)
    rw [shl_eq, abs_le]
    omega
  unfold fineTemp
  set var1 := asr (adcT.toNat : Int) 3 - shl (t1.toNat : Int) 1 with hdef
  have hvar1 : -131070 ≤ var1 ∧ var1 ≤ 131071 := by
    rw [hdef, asr_eq, shl_eq]
    omega
  have hwhole : |var1| ≤ 131071 := abs_le.2 ⟨by omega, hvar1.2⟩
  have hhalf : |asr var1 1| ≤ 65535 := by
    rw [asr_eq, abs_le]
    omega
  have hvar2 : |asr (var1 * t2.toInt) 11| ≤ 2097136 :=
    abs_asr_le ((abs_mul_le hwhole ht2).trans (by norm_num))
  have hsquare : |asr (asr var1 1 * asr var1 1) 12| ≤ 1048544 := by
    have hle := abs_mul_le hhalf hhalf
    have hnonneg := mul_self_nonneg (asr var1 1)
    rw [abs_le] at hle ⊢
    rw [asr_eq]
    omega
  have hvar3 : |asr (asr (asr var1 1 * asr var1 1) 12 * shl t3.toInt 4) 14| ≤ 131068 :=
    abs_asr_le ((abs_mul_le hsquare ht3).trans (by norm_num))
  exact (abs_add_le _ _).trans (add_le_add hvar2 hvar3)

theorem toInt_ofInt_of_abs_lt {x : Int} (h : |x| < 2 ^ 31) : (BitVec.ofInt 32 x).toInt = x :=
  BitVec.toInt_ofInt_eq_self (by norm_num) (abs_lt.1 h).1.le (abs_lt.1 h).2

theorem toInt_ofInt_temperatureOf_fst (c : Ccb) :
    (BitVec.ofInt 32 (temperatureOf c).1).toInt = (temperatureOf c).1 :=
  toInt_ofInt_of_abs_lt ((abs_fineTemp_le c.adcT c.coef.t1 c.coef.t2 c.coef.t3).trans_lt (by norm_num))

theorem abs_temperatureOf_snd_le (c : Ccb) : |(temperatureOf c).2| ≤ 76288 := by
  have hfine : |(temperatureOf c).1| ≤ 2228204 := abs_fineTemp_le c.adcT c.coef.t1 c.coef.t2 c.coef.t3
  have hlo := BitVec.le_toInt c.tOffset
  have hhi := BitVec.toInt_lt (x := c.tOffset)
  rw [abs_le] at hfine
  rw [temperatureOf_snd, centiDegrees, asr_eq, abs_le]
  omega

theorem toInt_ofInt_temperatureOf_snd (c : Ccb) :
    (BitVec.ofInt 32 (temperatureOf c).2).toInt = (temperatureOf c).2 :=
  toInt_ofInt_of_abs_lt ((abs_temperatureOf_snd_le c).trans_lt (by norm_num))

/-- The clamp keeps the humidity a percentage, in hundredths (42 R70 (b)). -/
theorem compH_bounds (tFine adcH h1 h2 h3 h4 h5 h6 h7 : Int) :
    0 ≤ compH tFine adcH h1 h2 h3 h4 h5 h6 h7 ∧ compH tFine adcH h1 h2 h3 h4 h5 h6 h7 ≤ 10000 := by
  have hclamp := clamp_bounds (humidityUnclamped tFine adcH h1 h2 h3 h4 h5 h6 h7) 0 102400 (by norm_num)
  unfold compH
  simp only [asr_eq]
  omega

theorem toNat_ofInt_humidityOf (c : Ccb) : ((BitVec.ofInt 32 (humidityOf c)).toNat : Int) = humidityOf c := by
  obtain ⟨hlo, hhi⟩ : 0 ≤ humidityOf c ∧ humidityOf c ≤ 10000 := compH_bounds ..
  rw [BitVec.toNat_ofInt]
  norm_num
  omega

end Sys2Proof.Machine
end

section
/-! A fresh output is the value of its function (10 R24, 70 R100), and every write of the block keeps it so. -/

namespace Sys2Proof.Machine

/-- Each compensation function reads what the reading holds, and nothing else. -/
theorem SameReading.functions {c c' : Ccb} (h : SameReading c c') :
    temperatureOf c' = temperatureOf c ∧ pressureOf c' = pressureOf c ∧ humidityOf c' = humidityOf c ∧
      gasOf c' = gasOf c := by
  obtain ⟨hcoef, hcodes, houtputs, hrse, _, hoffset, _⟩ := h
  simp only [Ccb.codes, Ccb.outputs, Prod.mk.injEq] at hcodes houtputs
  obtain ⟨hadcT, hadcP, hadcH, hadcG, hrange⟩ := hcodes
  obtain ⟨htfine, _⟩ := houtputs
  simp only [temperatureOf, pressureOf, humidityOf, gasOf, hcoef, hadcT, hadcP, hadcH, hadcG, hrange, htfine, hrse,
    hoffset, and_self]

theorem Ccb.Truthful.of_sameReading {c c' : Ccb} (h : c.Truthful) (hs : SameReading c c') : c'.Truthful := by
  obtain ⟨htemp, hpress, hhum, hgas⟩ := hs.functions
  have houtputs := hs.outputs
  simp only [Ccb.outputs, Prod.mk.injEq] at houtputs
  obtain ⟨htfine, htempOut, hpressOut, hhumOut, hgasOut⟩ := houtputs
  exact {
    tfine := by simpa [hs.flag, htfine, htemp] using h.tfine
    temp := by simpa [hs.flag, htempOut, htemp] using h.temp
    press := by simpa [hs.flag, hpressOut, hpress] using h.press
    hum := by simpa [hs.flag, hhumOut, hhum] using h.hum
    gas := by simpa [hs.flag, hgasOut, hgas] using h.gas }

theorem Ccb.truthful_reset : Ccb.reset.Truthful := by
  constructor <;> simp

/-- CAL_LOAD ends the promise of everything but the gas resistance, which uses no coefficient. -/
theorem Ccb.Truthful.calLoad {c c' : Ccb} (h : c.Truthful) (hc : calLoad c = .ok c') : c'.Truthful := by
  obtain ⟨_, rfl⟩ := calLoad_ok_iff.1 hc
  exact {
    tfine := by simp [Ccb.flag]
    temp := by simp [Ccb.flag]
    press := by simp [Ccb.flag]
    hum := by simp [Ccb.flag]
    gas hf := h.gas (by simpa [Ccb.flag] using hf) }

/-- UNPACK ends every promise. -/
theorem Ccb.truthful_of_unpackSample {c c' : Ccb} (hc : unpackSample c = .ok c') : c'.Truthful := by
  obtain ⟨_, rfl⟩ := unpackSample_ok_iff.1 hc
  constructor <;> simp [Ccb.flag]

/-- A valid T_FINE is the one COMP_T computes again from the same sample. -/
theorem Ccb.Truthful.tFine_eq {c : Ccb} (h : c.Truthful) (hv : Ccb.flag c .tfineValid = true) :
    BitVec.ofInt 32 (temperatureOf c).1 = c.tFine := by
  rw [← h.tfine hv, BitVec.ofInt_toInt]

/-- COMP_T promises its own two values, and leaves T_FINE where a fresh pressure or humidity rests on it. -/
theorem Ccb.Truthful.compTemperature {c c' : Ccb} (h : c.Truthful) (hi : c.Inv)
    (hc : compTemperature c = .ok c') : c'.Truthful := by
  obtain ⟨_, _, rfl⟩ := compTemperature_ok_iff.1 hc
  refine ⟨fun _ => toInt_ofInt_temperatureOf_fst c, fun _ => toInt_ofInt_temperatureOf_snd c, fun hf => ?_,
    fun hf => ?_, fun hf => h.gas (by simpa [Ccb.flag] using hf)⟩
  · have hf : Ccb.flag c .pressFresh = true := by simpa [Ccb.flag] using hf
    simp only [h.tFine_eq (hi.press_needs_tfine hf)]
    exact h.press hf
  · have hf : Ccb.flag c .humFresh = true := by simpa [Ccb.flag] using hf
    simp only [h.tFine_eq (hi.hum_needs_tfine hf)]
    exact h.hum hf

theorem Ccb.Truthful.compPressure {c c' : Ccb} (h : c.Truthful) (hc : compPressure c = .ok c') : c'.Truthful := by
  obtain ⟨_, _, _, p, hp, rfl⟩ := compPressure_ok_iff.1 hc
  exact {
    tfine hf := h.tfine (by simpa [Ccb.flag] using hf)
    temp hf := h.temp (by simpa [Ccb.flag] using hf)
    press := fun _ => hp.trans (congrArg Except.ok (pressureOf_toInt hp).symm)
    hum hf := h.hum (by simpa [Ccb.flag] using hf)
    gas hf := h.gas (by simpa [Ccb.flag] using hf) }

theorem Ccb.Truthful.compHumidity {c c' : Ccb} (h : c.Truthful) (hc : compHumidity c = .ok c') : c'.Truthful := by
  obtain ⟨_, _, _, rfl⟩ := compHumidity_ok_iff.1 hc
  exact {
    tfine hf := h.tfine (by simpa [Ccb.flag] using hf)
    temp hf := h.temp (by simpa [Ccb.flag] using hf)
    press hf := h.press (by simpa [Ccb.flag] using hf)
    hum := fun _ => (toNat_ofInt_humidityOf c).symm
    gas hf := h.gas (by simpa [Ccb.flag] using hf) }

theorem Ccb.Truthful.compGas {c c' : Ccb} (h : c.Truthful) (hc : compGas c = .ok c') : c'.Truthful := by
  obtain ⟨_, _, g, hg, rfl⟩ := compGas_ok_iff.1 hc
  exact {
    tfine hf := h.tfine (by simpa [Ccb.flag] using hf)
    temp hf := h.temp (by simpa [Ccb.flag] using hf)
    press hf := h.press (by simpa [Ccb.flag] using hf)
    hum hf := h.hum (by simpa [Ccb.flag] using hf)
    gas := fun _ => hg }

/-- A new range switching error ends the promise of the gas resistance, the one function that reads it. -/
theorem Ccb.Truthful.writeRse {c : Ccb} (h : c.Truthful) (d : Byte) :
    Ccb.Truthful { c with rseRaw := d, rseW := true, status := Status.put c.status .gasFresh false } where
  tfine hf := h.tfine (by simpa [Ccb.flag] using hf)
  temp hf := h.temp (by simpa [Ccb.flag] using hf)
  press hf := h.press (by simpa [Ccb.flag] using hf)
  hum hf := h.hum (by simpa [Ccb.flag] using hf)
  gas := by simp [Ccb.flag]

/-- A new offset ends the promise of the temperature, the one value that depends on it. -/
theorem Ccb.Truthful.writeOffset {c : Ccb} (h : c.Truthful) (v : BitVec 16) :
    Ccb.Truthful { c with tOffset := v, status := Status.put c.status .tempFresh false } where
  tfine hf := by
    rw [temperatureOf_fst]
    exact (h.tfine (by simpa [Ccb.flag] using hf)).trans (temperatureOf_fst c)
  temp := by simp [Ccb.flag]
  press hf := h.press (by simpa [Ccb.flag] using hf)
  hum hf := h.hum (by simpa [Ccb.flag] using hf)
  gas hf := h.gas (by simpa [Ccb.flag] using hf)

/-- Truth is kept together with the invariant, which COMP_T needs. -/
theorem inv_truthful_kept : KeptByBlock fun c => Ccb.Inv c ∧ Ccb.Truthful c where
  fault e c h := ⟨inv_kept.fault e c h.1, h.2.of_sameReading (sameReading_faultEntry e c)⟩
  busFault c h := ⟨inv_kept.busFault c h.1, h.2.of_sameReading (sameReading_busError c)⟩
  nop c h := ⟨inv_kept.nop c h.1, h.2.of_sameReading (sameReading_nop c)⟩
  clrStatus c h := ⟨inv_kept.clrStatus c h.1, h.2.of_sameReading (sameReading_clrStatus c)⟩
  reset := ⟨Ccb.inv_reset, Ccb.truthful_reset⟩
  calLoad _ _ h hc := ⟨h.1.calLoad hc, h.2.calLoad hc⟩
  unpack _ _ h hc := ⟨h.1.unpackSample hc, Ccb.truthful_of_unpackSample hc⟩
  compT _ _ h hc := ⟨h.1.compTemperature hc, h.2.compTemperature h.1 hc⟩
  compP _ _ h hc := ⟨h.1.compPressure hc, h.2.compPressure hc⟩
  compH _ _ h hc := ⟨h.1.compHumidity hc, h.2.compHumidity hc⟩
  compG _ _ h hc := ⟨h.1.compGas hc, h.2.compGas hc⟩
  calbuf c i d h := ⟨inv_kept.calbuf c i d h.1, h.2.of_sameReading (sameReading_calbuf c _ _)⟩
  rawbuf c i d h := ⟨inv_kept.rawbuf c i d h.1, h.2.of_sameReading (sameReading_rawbuf c _ _)⟩
  heatRange c d h := ⟨inv_kept.heatRange c d h.1, h.2.of_sameReading (sameReading_heatRange c d)⟩
  heatVal c d h := ⟨inv_kept.heatVal c d h.1, h.2.of_sameReading (sameReading_heatVal c d)⟩
  rse _ d h := ⟨h.1.writeRse d, h.2.writeRse d⟩
  offset _ v h := ⟨h.1.writeOffset v, h.2.writeOffset v⟩

/-- Settles O60: at reset every flag is 0, so nothing is promised. -/
theorem resetIsTruthful : Obligations.ResetIsTruthful := Ccb.truthful_reset

/-- Settles O59: each write of the block keeps the invariant and, with it, what the fresh outputs promise. -/
theorem freshOutputsStayTruthful : Obligations.FreshOutputsStayTruthful :=
  fun _ _ hi ht hst => (inv_truthful_kept.step hst ⟨hi, ht⟩).2

end Sys2Proof.Machine
end

section
/-! The bus write in full (20 R33, R34): each location's next state in the numbers and masks of the rule. -/

namespace Sys2Proof.Machine

theorem twoPow_eq_ofNat (w i : Nat) : BitVec.twoPow w i = BitVec.ofNat w (2 ^ i) := by
  apply BitVec.eq_of_toNat_eq
  rw [BitVec.toNat_twoPow, BitVec.toNat_ofNat]

theorem vector_set_eq_setIfInBounds {n : Nat} (xs : Vector Byte n) (i : Fin n) (d : Byte) :
    xs.set i d = xs.setIfInBounds i d := by
  ext j hj
  rw [Vector.getElem_set, Vector.getElem_setIfInBounds]

/-- A new low byte of T_OFFSET under the old high byte. -/
theorem offset_setLow (t : BitVec 16) (d : Byte) :
    (t.extractLsb' 8 8 ++ d : BitVec 16) = BitVec.ofNat 16 (t.toNat / 256 * 256 + d.toNat) := by
  apply BitVec.eq_of_toNat_eq
  have ht := t.isLt
  have hd := d.isLt
  have h := u16_toNat d (t.extractLsb' 8 8)
  rw [BitVec.extractLsb'_toNat, Nat.shiftRight_eq_div_pow] at h
  rw [BitVec.toNat_ofNat]
  exact h.trans (by omega)

/-- A new high byte of T_OFFSET over the old low byte. -/
theorem offset_setHigh (t : BitVec 16) (d : Byte) :
    (d ++ t.extractLsb' 0 8 : BitVec 16) = BitVec.ofNat 16 (d.toNat * 256 + t.toNat % 256) := by
  apply BitVec.eq_of_toNat_eq
  have hd := d.isLt
  have h := u16_toNat (t.extractLsb' 0 8) d
  rw [BitVec.extractLsb'_toNat, Nat.shiftRight_zero] at h
  rw [BitVec.toNat_ofNat]
  exact h.trans (by omega)

theorem Status.put_gasFresh_false_eq_mask (st : Status) : Status.put st .gasFresh false = st &&& 0xBF := by
  revert st
  decide

theorem Status.put_tempFresh_false_eq_mask (st : Status) : Status.put st .tempFresh false = st &&& 0xF7 := by
  revert st
  decide

/-- E_BUS is ERR bit 10 (60 R78). -/
theorem busError_eq_mask (c : Ccb) : busError c = { c with err := c.err ||| 0x0400 } := rfl

/-- A write to no input register and not to CMD is a bus error (20 R33). -/
theorem memWrite_busError (execute : Byte → Ccb → Ccb) {a : Addr}
    (ha : 0x3D ≤ a.toNat ∨ (0x2C ≤ a.toNat ∧ a.toNat ≤ 0x2F)) (d : Byte) (c : Ccb) :
    memWrite execute a d c = busError c := by
  rcases memWrite_cases execute a d c with ⟨rfl, _⟩ | ⟨i, hi, _⟩ | ⟨i, hi, _⟩ | ⟨rfl, _⟩ | ⟨rfl, _⟩ | ⟨rfl, _⟩ |
    ⟨rfl, _⟩ | ⟨rfl, _⟩ | ⟨_, h⟩
  · exact absurd ha (by decide)
  · omega
  · omega
  iterate 5
    · exact absurd ha (by decide)
  · exact h

/-- Settles O13: in each case of a bus write the address picks the branch of the rule. -/
theorem writeFollowsTheMap : Obligations.WriteFollowsTheMap := by
  intro a d s
  refine ⟨_, rfl, ?_⟩
  rcases memWrite_cases executeCommand a d s.ccb with ⟨rfl, h⟩ | ⟨i, hi, h⟩ | ⟨i, hi, h⟩ | ⟨rfl, h⟩ | ⟨rfl, h⟩ |
    ⟨rfl, h⟩ | ⟨rfl, h⟩ | ⟨rfl, h⟩ | ⟨ha, h⟩ <;> rw [h]
  · rfl
  · have hi' := i.isLt
    rw [if_pos (show a.toNat ≤ 0x28 by omega), hi, vector_set_eq_setIfInBounds, twoPow_eq_ofNat]
  · have hi' := i.isLt
    iterate 4 rw [if_neg (by omega)]
    rw [if_pos (show 0x30 ≤ a.toNat ∧ a.toNat ≤ 0x39 by omega), hi, Nat.add_sub_cancel_left,
      vector_set_eq_setIfInBounds, twoPow_eq_ofNat]
  · rfl
  · rfl
  · rw [Status.put_gasFresh_false_eq_mask]
    rfl
  · rw [Status.put_tempFresh_false_eq_mask, offset_setLow]
    rfl
  · rw [Status.put_tempFresh_false_eq_mask, offset_setHigh]
    rfl
  · iterate 8 rw [if_neg (by omega)]
    exact busError_eq_mask s.ccb

/-- Settles O16: both ranges lie above CMD, where a write is a bus error. -/
theorem readOnlyWritesAreIgnored : Obligations.ReadOnlyWritesAreIgnored := by
  intro a d s ha
  show Host.Outcome.next { s with ccb := memWrite executeCommand a d s.ccb } = _
  rw [memWrite_busError executeCommand (by omega) d s.ccb, busError_eq_mask]

end Sys2Proof.Machine
end

section
/-! The bus read in full (20 R30): the byte at each location, and the reserved addresses. -/

namespace Sys2Proof.Machine

theorem eq_ofNat_of_toNat_eq {a : Addr} {n : Nat} (h : a.toNat = n) : a = BitVec.ofNat 8 n := by
  rw [← h, BitVec.ofNat_toNat, BitVec.setWidth_eq]

theorem isReserved_iff (a : Addr) :
    isReserved a = true ↔
      (0x2C ≤ a.toNat ∧ a.toNat ≤ 0x2F) ∨ (0x65 ≤ a.toNat ∧ a.toNat ≤ 0x7F) ∨ 0xB4 ≤ a.toNat := by
  simp [isReserved, or_assoc]

theorem readByte_calbuf {a : Addr} (i : Fin 41) (ha : a.toNat = i) (c : Ccb) : readByte a c = c.calbuf[i] := by
  simp [readByte, readLoc, locate_calbuf a (ha ▸ i.isLt), ha]

theorem readByte_rawbuf {a : Addr} (i : Fin 10) (ha : a.toNat = 0x30 + i) (c : Ccb) :
    readByte a c = c.rawbuf[i] := by
  have hi := i.isLt
  simp [readByte, readLoc, locate_rawbuf a (by omega), ha]

theorem readByte_reserved {a : Addr} (ha : isReserved a = true) (c : Ccb) : readByte a c = 0x00 := by
  rw [readByte, (locate_reserved a).2 ha]
  rfl

/-- Byte `k` of an image as the rule writes it: bits 8k+7:8k of `v mod 2^(8w)` (20 R30). -/
theorem imageByte_toNat (w : Nat) (v : Int) (k : Nat) :
    ((imageByte w v k).toNat : Int) = v % 2 ^ (8 * w) / 2 ^ (8 * k) % 256 := by
  rw [imageByte, BitVec.extractLsb'_toNat, BitVec.toNat_ofInt, Nat.shiftRight_eq_div_pow]
  push_cast
  rw [Int.toNat_of_nonneg (Int.emod_nonneg _ (by positivity))]

/-- What a read does to the block, with the reserved addresses and E_BUS as numbers (20 R30). -/
theorem afterRead_eq_mask (a : Addr) (c : Ccb) :
    afterRead a c =
      if (0x2C ≤ a.toNat ∧ a.toNat ≤ 0x2F) ∨ (0x65 ≤ a.toNat ∧ a.toNat ≤ 0x7F) ∨ 0xB4 ≤ a.toNat then
        { c with err := c.err ||| 0x0400 }
      else c := by
  simp only [afterRead_eq, isReserved_iff, busError_eq_mask]

/-- Settles O17: the byte is `readByte`'s, and each clause is its value at one kind of location. -/
theorem readFollowsTheMap : Obligations.ReadFollowsTheMap := by
  intro a s
  refine ⟨readByte a s.ccb, ?_, fun i h => readByte_calbuf i h _, fun h => ?_, fun h => ?_, fun h => ?_,
    fun i h => readByte_rawbuf i h _, fun h => ?_, fun h => ?_, fun h => ?_, fun row hrow k hk h => ?_,
    fun h => readByte_reserved ((isReserved_iff a).2 h) _⟩
  · rw [← afterRead_eq_mask]
    rfl
  · obtain rfl := eq_ofNat_of_toNat_eq h
    rfl
  · obtain rfl := eq_ofNat_of_toNat_eq h
    rfl
  · obtain rfl := eq_ofNat_of_toNat_eq h
    rfl
  · obtain rfl := eq_ofNat_of_toNat_eq h
    exact (BitVec.extractLsb'_toNat ..).trans (by rw [Nat.shiftRight_zero])
  · obtain rfl := eq_ofNat_of_toNat_eq h
    have ht := s.ccb.tOffset.isLt
    refine (BitVec.extractLsb'_toNat ..).trans ?_
    rw [Nat.shiftRight_eq_div_pow]
    omega
  · obtain rfl := eq_ofNat_of_toNat_eq h
    rfl
  · obtain rfl := eq_ofNat_of_toNat_eq h
    rw [readByte_readOnly hrow hk, imageByte_toNat]

end Sys2Proof.Machine
end

section
/-! The read-only rows of the map (20 R29): they lie end to end in two runs, and a row's bytes put together are
its register (20 R31). -/

namespace Sys2Proof.Machine

/-- Rows that follow one another without gap or overlap and fill the addresses from `lo` up to, not
including, `hi`. -/
def Tiles (lo : Nat) (rows : List RoRow) (hi : Nat) : Prop :=
  match rows with
  | [] => lo = hi
  | r :: rest => r.base = lo ∧ Tiles (lo + r.width) rest hi

theorem Tiles.lo_le_hi {rows : List RoRow} {lo hi : Nat} (h : Tiles lo rows hi) : lo ≤ hi := by
  induction rows generalizing lo with
  | nil => exact Nat.le_of_eq h
  | cons r rest ih => exact (Nat.le_add_right ..).trans (ih h.2)

theorem RoRow.covers_iff (r : RoRow) (a : Nat) : r.covers a = true ↔ r.base ≤ a ∧ a < r.base + r.width := by
  simp [RoRow.covers]

/-- Each address of the run lies in exactly one row, every other in none. -/
theorem Tiles.length_filter_covers {rows : List RoRow} {lo hi : Nat} (h : Tiles lo rows hi) (a : Nat) :
    (rows.filter (fun r => r.covers a)).length = if lo ≤ a ∧ a < hi then 1 else 0 := by
  induction rows generalizing lo with
  | nil =>
    obtain rfl : lo = hi := h
    rw [if_neg (by omega), List.filter_nil, List.length_nil]
  | cons r rest ih =>
    obtain ⟨rfl, hrest⟩ := h
    have hle := hrest.lo_le_hi
    rw [List.filter_cons]
    by_cases hc : r.covers a = true
    · have ⟨_, _⟩ := (r.covers_iff a).1 hc
      rw [if_pos hc, List.length_cons, ih hrest, if_neg (by omega), if_pos (by omega)]
    · have := mt (r.covers_iff a).2 hc
      rw [if_neg hc, ih hrest]
      exact if_congr (by omega) rfl rfl

theorem tiles_roOutputRows : Tiles 0x3D roOutputRows 0x65 := by
  simp [Tiles, roOutputRows]

theorem tiles_roCoefRows : Tiles 0x80 roCoefRows 0xB4 := by
  simp [Tiles, roCoefRows]

/-- Settles O18: the output rows fill the first range and the readback rows the second. -/
theorem addressMapHasNoOverlap : Obligations.AddressMapHasNoOverlap := by
  intro a _
  rw [roRows, List.filter_append, List.length_append, tiles_roOutputRows.length_filter_covers,
    tiles_roCoefRows.length_filter_covers]
  split_ifs <;> omega

/-- A byte of an image under the bytes above it. -/
theorem extractLsb'_append_imageByte (w : Nat) (v : Int) (k n : Nat) :
    (BitVec.ofInt (8 * w) v).extractLsb' (8 * (k + 1)) n ++ imageByte w v k =
      (BitVec.ofInt (8 * w) v).extractLsb' (8 * k) (n + 8) :=
  BitVec.extractLsb'_append_extractLsb'_eq_extractLsb' rfl

/-- The four bytes of an image, the highest first, are the value modulo 2^32. -/
theorem imageByte_four_append (v : Int) :
    (imageByte 4 v 3 ++ imageByte 4 v 2 ++ imageByte 4 v 1 ++ imageByte 4 v 0 : BitVec 32) = BitVec.ofInt 32 v := by
  have h2 : imageByte 4 v 3 ++ imageByte 4 v 2 = (BitVec.ofInt (8 * 4) v).extractLsb' (8 * 2) (8 + 8) :=
    extractLsb'_append_imageByte 4 v 2 8
  rw [h2, extractLsb'_append_imageByte, extractLsb'_append_imageByte]
  exact BitVec.extractLsb'_eq_self

/-- The eight bytes of an image, the highest first, are the value modulo 2^64. -/
theorem imageByte_eight_append (v : Int) :
    (imageByte 8 v 7 ++ imageByte 8 v 6 ++ imageByte 8 v 5 ++ imageByte 8 v 4 ++
      imageByte 8 v 3 ++ imageByte 8 v 2 ++ imageByte 8 v 1 ++ imageByte 8 v 0 : BitVec 64) =
        BitVec.ofInt 64 v := by
  have h6 : imageByte 8 v 7 ++ imageByte 8 v 6 = (BitVec.ofInt (8 * 8) v).extractLsb' (8 * 6) (8 + 8) :=
    extractLsb'_append_imageByte 8 v 6 8
  rw [h6]
  iterate 6 rw [extractLsb'_append_imageByte]
  exact BitVec.extractLsb'_eq_self

section RowBytes

variable (base : Nat) (reg : RoReg) (c : Ccb)

/-- The one byte of a row is its register modulo 2^8. -/
theorem readByte_row_one (hr : ⟨base, 1, reg⟩ ∈ roRows) :
    readByte (BitVec.ofNat 8 (base + 0)) c = BitVec.ofInt 8 (roValue c reg) :=
  (readByte_readOnly hr Nat.one_pos c).trans BitVec.extractLsb'_eq_self

/-- The two bytes of a row are its register modulo 2^16. -/
theorem readByte_row_two (hr : ⟨base, 2, reg⟩ ∈ roRows) :
    (readByte (BitVec.ofNat 8 (base + 1)) c ++ readByte (BitVec.ofNat 8 (base + 0)) c : BitVec 16) =
      BitVec.ofInt 16 (roValue c reg) := by
  have hbyte (k : Nat) (hk : k < 2) := readByte_readOnly hr hk c
  simp only [hbyte, Nat.reduceLT]
  exact imageByte_two_append _

/-- The four bytes of a row are its register modulo 2^32. -/
theorem readByte_row_four (hr : ⟨base, 4, reg⟩ ∈ roRows) :
    (readByte (BitVec.ofNat 8 (base + 3)) c ++ readByte (BitVec.ofNat 8 (base + 2)) c ++
      readByte (BitVec.ofNat 8 (base + 1)) c ++ readByte (BitVec.ofNat 8 (base + 0)) c : BitVec 32) =
      BitVec.ofInt 32 (roValue c reg) := by
  have hbyte (k : Nat) (hk : k < 4) := readByte_readOnly hr hk c
  simp only [hbyte, Nat.reduceLT]
  exact imageByte_four_append _

/-- The eight bytes of a row are its register modulo 2^64. -/
theorem readByte_row_eight (hr : ⟨base, 8, reg⟩ ∈ roRows) :
    (readByte (BitVec.ofNat 8 (base + 7)) c ++ readByte (BitVec.ofNat 8 (base + 6)) c ++
      readByte (BitVec.ofNat 8 (base + 5)) c ++ readByte (BitVec.ofNat 8 (base + 4)) c ++
      readByte (BitVec.ofNat 8 (base + 3)) c ++ readByte (BitVec.ofNat 8 (base + 2)) c ++
      readByte (BitVec.ofNat 8 (base + 1)) c ++ readByte (BitVec.ofNat 8 (base + 0)) c : BitVec 64) =
      BitVec.ofInt 64 (roValue c reg) := by
  have hbyte (k : Nat) (hk : k < 8) := readByte_readOnly hr hk c
  simp only [hbyte, Nat.reduceLT]
  exact imageByte_eight_append _

end RowBytes

theorem ofInt_toNat_eq_setWidth {n : Nat} (w : Nat) (x : BitVec n) :
    BitVec.ofInt w (x.toNat : Int) = x.setWidth w := by
  rw [BitVec.ofInt_natCast, BitVec.ofNat_toNat]

theorem ofInt_toNat_eq_self {n : Nat} (x : BitVec n) : BitVec.ofInt n (x.toNat : Int) = x := by
  rw [ofInt_toNat_eq_setWidth, BitVec.setWidth_eq]

/-- Settles O19: T_OFFSET is its two bytes, and each other clause is one row of the map, whose bytes are its
register at the row's width. -/
theorem multiByteRegistersAreLittleEndian : Obligations.MultiByteRegistersAreLittleEndian := by
  intro c
  refine ⟨?status, u16_extractLsb' c.tOffset, ?err, ?tFine, ?tempOut, ?pressOut, ?humOut, ?gasOut, ?adcT, ?adcP,
    ?adcH, ?adcG, ?gasRange⟩
  case status => exact (readByte_row_one 0x3D .status c (by decide)).trans (ofInt_toNat_eq_self _)
  case err => exact (readByte_row_two 0x3E .err c (by decide)).trans (ofInt_toNat_eq_self _)
  case tFine => exact (readByte_row_four 0x40 .tFine c (by decide)).trans BitVec.ofInt_toInt
  case tempOut => exact (readByte_row_four 0x44 .tempOut c (by decide)).trans BitVec.ofInt_toInt
  case pressOut => exact (readByte_row_four 0x48 .pressOut c (by decide)).trans BitVec.ofInt_toInt
  case humOut => exact (readByte_row_four 0x4C .humOut c (by decide)).trans (ofInt_toNat_eq_self _)
  case gasOut => exact (readByte_row_eight 0x50 .gasOut c (by decide)).trans (ofInt_toNat_eq_self _)
  case adcT => exact (readByte_row_four 0x58 .adcT c (by decide)).trans (ofInt_toNat_eq_setWidth ..)
  case adcP => exact (readByte_row_four 0x5C .adcP c (by decide)).trans (ofInt_toNat_eq_setWidth ..)
  case adcH => exact (readByte_row_two 0x60 .adcH c (by decide)).trans (ofInt_toNat_eq_self _)
  case adcG => exact (readByte_row_two 0x62 .adcG c (by decide)).trans (ofInt_toNat_eq_setWidth ..)
  case gasRange => exact (readByte_row_one 0x64 .gasRange c (by decide)).trans (ofInt_toNat_eq_setWidth ..)

end Sys2Proof.Machine
end

section
/-! What a write moves in the register space (20 R30, R33; 30 R48): which fields the byte at an address shows, and
the seven input writes against them. -/

namespace Sys2Proof.Machine

/-- The address of a location, lowest first; a reserved location has none of its own. -/
def Loc.addr : Loc → Nat
  | .calbuf i => i
  | .heatRangeRaw => 0x29
  | .heatValRaw => 0x2A
  | .rseRaw => 0x2B
  | .rawbuf i => 0x30 + i
  | .tOffsetLo => 0x3A
  | .tOffsetHi => 0x3B
  | .cmd => 0x3C
  | .readOnly row k => row.base + k
  | .reserved => 0

theorem toNat_eq_locate_addr : ∀ a : Addr, locate a ≠ .reserved → a.toNat = (locate a).addr := by decide

theorem toNat_eq_addr {a : Addr} {l : Loc} (h : locate a = l) (hl : l ≠ .reserved) : a.toNat = l.addr :=
  h ▸ toNat_eq_locate_addr a (h ▸ hl)

theorem roRows_reg_injective : ∀ r ∈ roRows, ∀ r' ∈ roRows, r.reg = r'.reg → r = r' := by decide

/-- The byte that address `b` shows has the same sources in two blocks: the field at `b` itself, the field whose
live view lies at `b` (30 R48), STATUS if `b` is its address, and all that the other read-only registers show. -/
structure SameAt (b : Addr) (c c' : Ccb) : Prop where
  calbuf : ∀ i : Fin 41, b.toNat = i → c'.calbuf[i] = c.calbuf[i] := by intros; rfl
  heatRangeRaw : b = 0x29 ∨ b = 0xAE ∨ b = 0xAF → c'.heatRangeRaw = c.heatRangeRaw := by intros; rfl
  heatValRaw : b = 0x2A ∨ b = 0xB0 ∨ b = 0xB1 → c'.heatValRaw = c.heatValRaw := by intros; rfl
  rseRaw : b = 0x2B ∨ b = 0xB2 ∨ b = 0xB3 → c'.rseRaw = c.rseRaw := by intros; rfl
  rawbuf : ∀ i : Fin 10, b.toNat = 0x30 + i → c'.rawbuf[i] = c.rawbuf[i] := by intros; rfl
  tOffsetLo : b = 0x3A → c'.tOffset.extractLsb' 0 8 = c.tOffset.extractLsb' 0 8 := by intros; rfl
  tOffsetHi : b = 0x3B → c'.tOffset.extractLsb' 8 8 = c.tOffset.extractLsb' 8 8 := by intros; rfl
  status : b = 0x3D → c'.status = c.status := by intros; rfl
  err : c'.err = c.err := by intros; rfl
  outputs : c'.outputs = c.outputs := by intros; rfl
  codes : c'.codes = c.codes := by intros; rfl
  coef : c'.coef = c.coef := by intros; rfl

/-- The value of a read-only register depends on STATUS and on each extra calibration byte only at its own row. -/
theorem roValue_congr {c c' : Ccb} {reg : RoReg} (hstatus : reg = .status → c'.status = c.status)
    (hrange : reg = .resHeatRange → c'.heatRangeRaw = c.heatRangeRaw)
    (hval : reg = .resHeatVal → c'.heatValRaw = c.heatValRaw) (hrse : reg = .rangeSwErr → c'.rseRaw = c.rseRaw)
    (herr : c'.err = c.err) (houtputs : c'.outputs = c.outputs) (hcodes : c'.codes = c.codes)
    (hcoef : c'.coef = c.coef) : roValue c' reg = roValue c reg := by
  simp only [Ccb.outputs, Prod.mk.injEq] at houtputs
  simp only [Ccb.codes, Prod.mk.injEq] at hcodes
  cases reg <;> simp_all only [roValue]

theorem SameAt.roValue_eq {b : Addr} {c c' : Ccb} (h : SameAt b c c') {row : RoRow} {k : Nat}
    (hrow : row ∈ roRows) (hk : k < row.width) (hb : b.toNat = row.base + k) :
    roValue c' row.reg = roValue c row.reg := by
  refine roValue_congr (fun hr => h.status ?_) (fun hr => h.heatRangeRaw ?_) (fun hr => h.heatValRaw ?_)
    (fun hr => h.rseRaw ?_) h.err h.outputs h.codes h.coef
  · obtain rfl := roRows_reg_injective row hrow ⟨0x3D, 1, .status⟩ (by decide) hr
    bv_omega
  · obtain rfl := roRows_reg_injective row hrow ⟨0xAE, 2, .resHeatRange⟩ (by decide) hr
    bv_omega
  · obtain rfl := roRows_reg_injective row hrow ⟨0xB0, 2, .resHeatVal⟩ (by decide) hr
    bv_omega
  · obtain rfl := roRows_reg_injective row hrow ⟨0xB2, 2, .rangeSwErr⟩ (by decide) hr
    bv_omega

theorem SameAt.readByte_eq {b : Addr} {c c' : Ccb} (h : SameAt b c c') : readByte b c' = readByte b c := by
  unfold readByte
  cases hl : locate b with
  | calbuf i => exact h.calbuf i (toNat_eq_addr hl nofun)
  | heatRangeRaw => exact h.heatRangeRaw (.inl (eq_ofNat_of_toNat_eq (toNat_eq_addr hl nofun)))
  | heatValRaw => exact h.heatValRaw (.inl (eq_ofNat_of_toNat_eq (toNat_eq_addr hl nofun)))
  | rseRaw => exact h.rseRaw (.inl (eq_ofNat_of_toNat_eq (toNat_eq_addr hl nofun)))
  | rawbuf i => exact h.rawbuf i (toNat_eq_addr hl nofun)
  | tOffsetLo => exact h.tOffsetLo (eq_ofNat_of_toNat_eq (toNat_eq_addr hl nofun))
  | tOffsetHi => exact h.tOffsetHi (eq_ofNat_of_toNat_eq (toNat_eq_addr hl nofun))
  | cmd => rfl
  | readOnly row k =>
    obtain ⟨hrow, hk, hb⟩ := locate_readOnly_row hl
    exact congrArg (imageByte row.width · k) (h.roValue_eq hrow hk hb)
  | reserved => rfl

/-- The input bytes of the register space (20 R29): the two buffers, the extra calibration bytes and T_OFFSET. -/
def IsInput (a : Addr) : Prop := a.toNat ≤ 0x2B ∨ (0x30 ≤ a.toNat ∧ a.toNat ≤ 0x3B)

/-- A write to an input byte is read back. -/
theorem readByte_memWrite_same (execute : Byte → Ccb → Ccb) {a : Addr} (ha : IsInput a) (d : Byte) (c : Ccb) :
    readByte a (memWrite execute a d c) = d := by
  rcases memWrite_cases execute a d c with ⟨rfl, _⟩ | ⟨i, hi, h⟩ | ⟨i, hi, h⟩ | ⟨rfl, h⟩ | ⟨rfl, h⟩ | ⟨rfl, h⟩ |
    ⟨rfl, h⟩ | ⟨rfl, h⟩ | ⟨hbus, _⟩
  · exact absurd ha (by unfold IsInput; decide)
  · rw [h, readByte_calbuf i hi]
    exact Vector.getElem_set_self i.isLt
  · rw [h, readByte_rawbuf i hi]
    exact Vector.getElem_set_self i.isLt
  · rw [h]
    rfl
  · rw [h]
    rfl
  · rw [h]
    rfl
  · rw [h]
    exact BitVec.extractLsb'_append_eq_right
  · rw [h]
    exact BitVec.extractLsb'_append_eq_left
  · unfold IsInput at ha
    omega

/-- A write to an input byte moves no other byte but STATUS and the live view of the byte written. -/
theorem sameAt_memWrite (execute : Byte → Ccb → Ccb) {a b : Addr} (ha : IsInput a) (d : Byte) (c : Ccb)
    (hba : b ≠ a) (hstatus : b ≠ 0x3D) (hrange : a = 0x29 → b ≠ 0xAE ∧ b ≠ 0xAF)
    (hval : a = 0x2A → b ≠ 0xB0 ∧ b ≠ 0xB1) (hrse : a = 0x2B → b ≠ 0xB2 ∧ b ≠ 0xB3) :
    SameAt b c (memWrite execute a d c) := by
  rcases memWrite_cases execute a d c with ⟨rfl, _⟩ | ⟨i, hi, h⟩ | ⟨i, hi, h⟩ | ⟨rfl, h⟩ | ⟨rfl, h⟩ | ⟨rfl, h⟩ |
    ⟨rfl, h⟩ | ⟨rfl, h⟩ | ⟨hbus, _⟩
  · exact absurd ha (by unfold IsInput; decide)
  · exact h ▸ { calbuf := fun j hj => Vector.getElem_set_ne i.isLt j.isLt (by bv_omega) }
  · exact h ▸ { rawbuf := fun j hj => Vector.getElem_set_ne i.isLt j.isLt (by bv_omega) }
  · exact h ▸ { heatRangeRaw := fun hb => absurd hb (not_or.2 ⟨hba, not_or.2 (hrange rfl)⟩) }
  · exact h ▸ { heatValRaw := fun hb => absurd hb (not_or.2 ⟨hba, not_or.2 (hval rfl)⟩) }
  · exact h ▸ { rseRaw := fun hb => absurd hb (not_or.2 ⟨hba, not_or.2 (hrse rfl)⟩), status := fun hb => absurd hb hstatus }
  · exact h ▸
      { tOffsetLo := fun hb => absurd hb hba
        tOffsetHi := fun _ => BitVec.extractLsb'_append_eq_left
        status := fun hb => absurd hb hstatus }
  · exact h ▸
      { tOffsetLo := fun _ => BitVec.extractLsb'_append_eq_right
        tOffsetHi := fun hb => absurd hb hba
        status := fun hb => absurd hb hstatus }
  · unfold IsInput at ha
    omega

/-- Settles O21: the byte written is read back, and no other address shows a field that the write changed. -/
theorem inputWriteIsReadBackAndNothingElseMoves : Obligations.InputWriteIsReadBackAndNothingElseMoves := by
  intro a d s t ha ht
  cases ht
  exact ⟨readByte_memWrite_same executeCommand ha d s.ccb, fun b hba hstatus hrange hval hrse =>
    (sameAt_memWrite executeCommand ha d s.ccb hba hstatus hrange hval hrse).readByte_eq⟩

end Sys2Proof.Machine
end

section
/-! A transaction repeated (20 R36), and what every transaction leaves of the host's side of the bus. -/

namespace Sys2Proof.Machine

theorem Status.put_put (st : Status) (b : StatusBit) (v w : Bool) :
    Status.put (Status.put st b v) b w = Status.put st b w := by
  refine Status.ext_get fun a => ?_
  simp only [Status.get_put]
  split_ifs <;> rfl

theorem bitVec_or_or_self {w : Nat} (x y : BitVec w) : x ||| y ||| y = x ||| y := by
  rw [BitVec.or_assoc, BitVec.or_self]

theorem busError_busError (c : Ccb) : busError (busError c) = busError c :=
  congrArg (fun e => { c with err := e }) (bitVec_or_or_self c.err _)

/-- A write elsewhere than CMD is idempotent. -/
theorem memWrite_memWrite (execute : Byte → Ccb → Ccb) {a : Addr} (ha : a ≠ cmdAddr) (d : Byte) (c : Ccb) :
    memWrite execute a d (memWrite execute a d c) = memWrite execute a d c := by
  unfold memWrite
  cases hl : locate a with
  | calbuf i => simp only [Vector.set_set, bitVec_or_or_self]
  | heatRangeRaw => rfl
  | heatValRaw => rfl
  | rseRaw => simp only [Status.put_put]
  | rawbuf i => simp only [Vector.set_set, bitVec_or_or_self]
  | tOffsetLo => simp only [Status.put_put, BitVec.extractLsb'_append_eq_left]
  | tOffsetHi => simp only [Status.put_put, BitVec.extractLsb'_append_eq_right]
  | cmd => exact absurd ((locate_cmd_iff a).1 hl) ha
  | readOnly row k => exact busError_busError c
  | reserved => exact busError_busError c

theorem afterRead_afterRead (a : Addr) (c : Ccb) : afterRead a (afterRead a c) = afterRead a c := by
  simp only [afterRead_eq]
  split
  · exact busError_busError c
  · rfl

/-- A read finds the same byte again: only at a reserved address does it change the block, and 0x00 is read
there. -/
theorem readByte_afterRead (a : Addr) (c : Ccb) : readByte a (afterRead a c) = readByte a c := by
  rw [afterRead_eq]
  split
  · next ha => rw [readByte_reserved ha, readByte_reserved ha]
  · rfl

/-- The two bits of a fault as masks (60 R79). -/
theorem faultEntry_eq_mask (e : Err) (c : Ccb) :
    faultEntry e c =
      { c with err := c.err ||| BitVec.ofNat 16 (2 ^ e.code), status := c.status ||| 0x80 } := by
  rw [faultEntry, ErrReg.raise_code_or, Status.put_lastFault_true_eq_mask]

/-- Whether it completed or faulted, CAL_LOAD leaves a mask that is not full (10 R17). -/
theorem calWMask_runCommands_calLoad (c : Ccb) : (runCommands [calLoad] c).calWMask ≠ BitVec.allOnes 41 := by
  rw [runCommands_single]
  split
  · next c' h =>
    obtain ⟨_, rfl⟩ := calLoad_ok_iff.1 h
    exact (by decide : (0 : BitVec 41) ≠ BitVec.allOnes 41)
  · next e h => exact (calLoad_error_iff.1 h).1

/-- Whether it completed or faulted, UNPACK leaves a mask that is not full (10 R17). -/
theorem rawWMask_runCommands_unpackSample (c : Ccb) :
    (runCommands [unpackSample] c).rawWMask ≠ BitVec.allOnes 10 := by
  rw [runCommands_single]
  split
  · next c' h =>
    obtain ⟨_, rfl⟩ := unpackSample_ok_iff.1 h
    exact (by decide : (0 : BitVec 10) ≠ BitVec.allOnes 10)
  · next e h => exact (unpackSample_error_iff.1 h).1

theorem exec_calLoad_partial {s : State} (h : s.ccb.calWMask ≠ BitVec.allOnes 41) :
    exec .calLoad s = .next { s with ccb := faultEntry .calPartial s.ccb } := by
  show commandStep [calLoad] s = _
  rw [commandStep, runCommands_cons_error (calLoad_error_iff.2 ⟨h, rfl⟩)]

theorem exec_unpack_partial {s : State} (h : s.ccb.rawWMask ≠ BitVec.allOnes 10) :
    exec .unpack s = .next { s with ccb := faultEntry .rawPartial s.ccb } := by
  show commandStep [unpackSample] s = _
  rw [commandStep, runCommands_cons_error (unpackSample_error_iff.2 ⟨h, rfl⟩)]

/-- Settles O22: a write and a read are idempotent on the block, and the first CAL_LOAD or UNPACK leaves a mask
at which the second faults. -/
theorem repeatedTransactions : Obligations.RepeatedTransactions := by
  refine ⟨fun a d s t ha ht => ?write, fun a s t ht => ?read, fun s t ht => ?calLoad, fun s t ht => ?unpack⟩ <;>
    cases ht
  case write =>
    show execWr a d { s with ccb := memWrite executeCommand a d s.ccb } = _
    rw [execWr, memWrite_memWrite executeCommand ha]
  case read =>
    show execRd a { s with ccb := afterRead a s.ccb, returned := _ } = _
    rw [execRd, afterRead_afterRead, readByte_afterRead]
  case calLoad =>
    rw [exec_calLoad_partial (calWMask_runCommands_calLoad s.ccb), faultEntry_eq_mask]
    rfl
  case unpack =>
    rw [exec_unpack_partial (rawWMask_runCommands_unpackSample s.ccb), faultEntry_eq_mask]
    rfl

/-- Only a read returns a byte to the host. -/
theorem exec_returned {i : Instr} {s t : State} (h : exec i s = .next t) (hi : ∀ a, i ≠ .rd a) :
    t.returned = s.returned := by
  rcases exec_cases h with ⟨_, _, rfl⟩ | ⟨_, _, _, rfl⟩ | ⟨a, rfl, _⟩
  · rfl
  · rfl
  · exact absurd rfl (hi a)

/-- Settles O9: the next state exists, and the host's two lists are as the rules above say. -/
theorem everyInstructionCompletes : Obligations.EveryInstructionCompletes := by
  intro i s
  obtain ⟨t, ht⟩ := exec_completes i s
  exact ⟨t, ht, exec_pending ht, exec_returned ht⟩

end Sys2Proof.Machine
end

section
/-! The decoder and the encoder (30 R41-R43, R53): what each kind of bus word decodes to, and the word of each
kind of instruction. -/

namespace Sys2Proof

open Sys2Proof.Machine

/-- A reserved code is one that 30 R43 does not assign (30 R44). -/
theorem decodeCommand_eq_none_iff (d : Byte) : decodeCommand d = none ↔ isCommandCode d = false := by
  rw [← decodeCommand_isSome, Option.isSome_eq_false_iff, Option.isNone_iff_eq_none]

/-- A bus word is a write elsewhere than CMD, a write to CMD of a reserved code or of a command's, a read, or
no transaction (30 R41-R44). -/
theorem forall_busWord {P : BusWord → Prop} (write : ∀ a d, a ≠ cmdAddr → P (busWord 1 a d))
    (reserved : ∀ d, decodeCommand d = none → P (busWord 1 cmdAddr d))
    (command : ∀ d i, decodeCommand d = some i → P (commandWord d)) (read : ∀ a, P (busWord 0 a 0x00))
    (readWithData : ∀ a d, d ≠ 0x00 → P (busWord 0 a d)) (b : BusWord) : P b := by
  rw [← busWord_fields b]
  generalize BusWord.addr b = a
  generalize BusWord.data b = d
  split
  · by_cases ha : a = cmdAddr
    · subst ha
      cases hd : decodeCommand d with
      | none => exact reserved d hd
      | some i => exact command d i hd
    · exact write a d ha
  · by_cases hd : d = 0x00
    · subst hd
      exact read a
    · exact readWithData a d hd

theorem decode_toNat (b : BusWord) : decode b.toNat = decodeBusWord b := by
  rw [decode, if_pos b.isLt, BitVec.ofNat_toNat, BitVec.setWidth_eq]

theorem decode_write {a : Addr} (ha : a ≠ cmdAddr) (d : Byte) : decode (busWord 1 a d).toNat = .ok (.wr a d) := by
  simp [decode_toNat, decodeBusWord, ha]

theorem decode_reserved {d : Byte} (hd : decodeCommand d = none) :
    decode (busWord 1 cmdAddr d).toNat = .ok (.wr cmdAddr d) := by
  simp [decode_toNat, decodeBusWord, hd]

theorem decode_command {d : Byte} {i : Instr} (hd : decodeCommand d = some i) :
    decode (commandWord d).toNat = .ok i := by
  simp [decode_toNat, decodeBusWord, commandWord, hd]

theorem decode_read (a : Addr) : decode (busWord 0 a 0x00).toNat = .ok (.rd a) := by
  simp [decode_toNat, decodeBusWord]

theorem decode_readWithData (a : Addr) {d : Byte} (hd : d ≠ 0x00) :
    decode (busWord 0 a d).toNat = .error .readWithData := by
  simpa [decode_toNat, decodeBusWord] using hd

theorem encode_command {d : Byte} {i : Instr} (hd : decodeCommand d = some i) : encode i = commandWord d := by
  have hm := (decodeCommand_iff_mem d i).1 hd
  unfold commandTable at hm
  fin_cases hm <;> rfl

theorem wellFormed_command {d : Byte} {i : Instr} (hd : decodeCommand d = some i) : i.wellFormed = true := by
  have hm := (decodeCommand_iff_mem d i).1 hd
  unfold commandTable at hm
  fin_cases hm <;> rfl

theorem wellFormed_wr {a : Addr} (ha : a ≠ cmdAddr) (d : Byte) : (Instr.wr a d).wellFormed = true := by
  simp [Instr.wellFormed, ha]

/-- A write to CMD is well formed exactly for the reserved codes. -/
theorem wellFormed_wr_cmd_iff (d : Byte) : (Instr.wr cmdAddr d).wellFormed = true ↔ decodeCommand d = none := by
  simp [Instr.wellFormed, decodeCommand_eq_none_iff]

/-- Settles O4, by the kinds of instruction: the decoder reads each kind's word, and a write to CMD that spells
a command is not well formed. -/
theorem decodeOfEncodeIsTheInstruction : Obligations.DecodeOfEncodeIsTheInstruction := by
  intro i
  induction i using forall_instr with
  | write a d ha => exact fun _ => decode_write ha d
  | illegal d hd => exact fun _ => decode_reserved hd
  | command d i hd =>
    refine ⟨fun _ => ?_, fun hwf => ?_⟩
    · rw [encode_command hd, decode_command hd]
    · rw [(wellFormed_wr_cmd_iff d).1 hwf] at hd
      cases hd
  | read a => exact fun _ => decode_read a

/-- What the decoder reads from a bus word is well formed and is encoded as that word. -/
theorem encode_of_decode_toNat {b : BusWord} {i : Instr} (h : decode b.toNat = .ok i) :
    i.wellFormed = true ∧ encode i = b := by
  induction b using forall_busWord with
  | write a d ha =>
    obtain rfl := Except.ok.inj ((decode_write ha d).symm.trans h)
    exact ⟨wellFormed_wr ha d, rfl⟩
  | reserved d hd =>
    obtain rfl := Except.ok.inj ((decode_reserved hd).symm.trans h)
    exact ⟨(wellFormed_wr_cmd_iff d).2 hd, rfl⟩
  | command d j hd =>
    obtain rfl := Except.ok.inj ((decode_command hd).symm.trans h)
    exact ⟨wellFormed_command hd, encode_command hd⟩
  | read a =>
    obtain rfl := Except.ok.inj ((decode_read a).symm.trans h)
    exact ⟨rfl, rfl⟩
  | readWithData a d hd => cases (decode_readWithData a hd).symm.trans h

/-- Settles O5: a number that decodes is below 2^17, so it is a bus word, whose kinds are gone through. -/
theorem encodeOfDecodeIsTheWord : Obligations.EncodeOfDecodeIsTheWord := by
  intro w i h
  have hw : (BitVec.ofNat 17 w).toNat = w := Nat.mod_eq_of_lt (decode_eq_ok_lt h)
  rw [← hw] at h
  obtain ⟨hwf, he⟩ := encode_of_decode_toNat h
  exact ⟨hwf, by rw [he, hw]⟩

/-- A write word decodes to an instruction that acts as the write, the command's for a command code (30 R42). -/
theorem decode_write_acts (a : Addr) (d : Byte) :
    ∃ i, decode (busWord 1 a d).toNat = .ok i ∧ ∀ s, exec i s = exec (.wr a d) s := by
  by_cases ha : a = cmdAddr
  · subst ha
    cases hd : decodeCommand d with
    | none => exact ⟨_, decode_reserved hd, fun _ => rfl⟩
    | some i => exact ⟨i, decode_command hd, fun s => (writeToCmdRunsTheCommand d i s hd).symm⟩
  · exact ⟨_, decode_write ha d, fun _ => rfl⟩

theorem decode_tooWide {w : Nat} (hw : 2 ^ 17 ≤ w) : decode w = .error .tooWide := if_neg (Nat.not_lt.2 hw)

/-- The word `1:A:D` as a number (30 R41). -/
theorem writeWord_toNat (a : Addr) (d : Byte) : (busWord 1 a d).toNat = 0x10000 + 0x100 * a.toNat + d.toNat := by
  rw [busWord_toNat]
  show 1 * 65536 + _ + _ = _
  omega

/-- The word `0:A:D` as a number (30 R41). -/
theorem readWord_toNat (a : Addr) (d : Byte) : (busWord 0 a d).toNat = 0x100 * a.toNat + d.toNat := by
  rw [busWord_toNat]
  show 0 * 65536 + _ + _ = _
  omega

/-- A number below 2^16 is a read word, with its two bytes as the fields (30 R41). -/
theorem eq_readWord_toNat {w : Nat} (hw : w < 0x10000) :
    w = (busWord 0 (BitVec.ofNat 8 (w / 0x100)) (BitVec.ofNat 8 w)).toNat := by
  rw [readWord_toNat, BitVec.toNat_ofNat, BitVec.toNat_ofNat]
  omega

/-- Settles O3: each clause's number is the word put together from its fields. -/
theorem transactionWordFormat : Obligations.TransactionWordFormat := by
  refine ⟨fun a d => ?write, fun a => ?read, fun w hw hd => ?readWithData, fun w hw => decode_tooWide hw⟩
  case write =>
    rw [← writeWord_toNat]
    exact decode_write_acts a d
  case read =>
    have h := decode_read a
    rwa [readWord_toNat] at h
  case readWithData =>
    have hdata : BitVec.ofNat 8 w ≠ 0x00 := fun h => hd (by simpa using congrArg BitVec.toNat h)
    rw [eq_readWord_toNat hw]
    exact decode_readWithData _ hdata

/-- Settles O1, byte by byte. -/
theorem commandMapIsExact : Obligations.CommandMapIsExact := by
  unfold Obligations.CommandMapIsExact
  decide

/-- A number that is the word of a well-formed instruction decodes to it. -/
theorem decode_eq_ok {w : Nat} {i : Instr} (hwf : i.wellFormed = true) (hw : (encode i).toNat = w) :
    decode w = .ok i := by
  rw [← hw]
  exact decodeOfEncodeIsTheInstruction i hwf

/-- Settles O2: fourteen of the words are encodings of well-formed instructions; of the other two, one is a read
word with data and one is too wide. -/
theorem specWordsDecode : Obligations.SpecWordsDecode := by
  refine ⟨?_, ?_, ?_, ?_, ?_, ?_, ?_, ?_, ?_, ?_, ?_, ?_, ?_, ?_,
    decode_readWithData 0x3C (d := 0x01) (by decide), decode_tooWide (le_refl _)⟩
  all_goals exact decode_eq_ok rfl rfl

end Sys2Proof
end

section
/-! Steps that run no instruction: a word that is no transaction is refused, and with no input the block waits. -/

namespace Sys2Proof.Machine

theorem step_badWord {s : State} {w : Nat} {rest : List Input} {why : BadWord} (hp : s.pending = .word w :: rest)
    (hd : decode w = .error why) : step s = .refused (.notATransaction why) := by
  simp [step, takeInput, hp, hd]

theorem step_idle {s : State} (hp : s.pending = []) : step s = .next s := by
  simp [step, takeInput, hp, idle]

/-- Settles O8. -/
theorem stepRefusesBadWordsAndWaits : Obligations.StepRefusesBadWordsAndWaits :=
  ⟨fun _ _ _ _ => step_badWord, fun _ => step_idle⟩

/-- A write to CMD of a reserved code is the fault entry of E_ILLEGAL_CMD (30 R44). -/
theorem exec_reserved {d : Byte} (hd : decodeCommand d = none) (s : State) :
    exec (.wr cmdAddr d) s = .next { s with ccb := faultEntry .illegalCmd s.ccb } := by
  show commandStep (commandsOf d) s = _
  rw [commandsOf_reserved hd, commandStep, runCommands_cons_error (illegalCommand_error s.ccb)]

/-- Settles O15: the codes of the two ranges are those that select no command. -/
theorem reservedCommandCodesFault : Obligations.ReservedCommandCodesFault := by
  intro d s hd
  have hnone : decodeCommand d = none := by
    simp [decodeCommand_eq_none_iff, isCommandCode]
    omega
  refine (exec_reserved hnone s).trans ?_
  rw [faultEntry_eq_mask]
  rfl

end Sys2Proof.Machine
end

section
/-! `WR16 T_OFFSET, v` (30 R52, 70 R97): the two words, and the offset after each of the two writes. -/

namespace Sys2Proof.Machine

theorem wr16_tOffset (v : Int) :
    Assembler.wr16 0x3A v = some [busWord 1 0x3A (imageByte 2 v 0), busWord 1 0x3B (imageByte 2 v 1)] := rfl

theorem exec_wr_tOffsetLo (d : Byte) (s : State) :
    exec (.wr 0x3A d) s = .next { s with ccb := { s.ccb with
      tOffset := s.ccb.tOffset.extractLsb' 8 8 ++ d, status := Status.put s.ccb.status .tempFresh false } } := rfl

theorem exec_wr_tOffsetHi (d : Byte) (s : State) :
    exec (.wr 0x3B d) s = .next { s with ccb := { s.ccb with
      tOffset := d ++ s.ccb.tOffset.extractLsb' 0 8, status := Status.put s.ccb.status .tempFresh false } } := rfl

/-- The new low byte beside the old high byte, as a number. -/
theorem toNat_offset_setLow (t : BitVec 16) (d : Byte) :
    (t.extractLsb' 8 8 ++ d : BitVec 16).toNat = t.toNat / 256 * 256 + d.toNat := by
  have ht := t.isLt
  have hd := d.isLt
  rw [offset_setLow, BitVec.toNat_ofNat]
  omega

/-- The low byte of v modulo 2^16 is v modulo 2^8. -/
theorem toNat_imageByte_two_zero (v : Int) : ((imageByte 2 v 0).toNat : Int) = v % 256 := by
  rw [imageByte_eq 2 v 0 (by decide), BitVec.toNat_ofInt, Int.toNat_of_nonneg (Int.emod_nonneg _ (by decide))]
  simp

/-- The high byte written over the low byte leaves the two bytes of v, which are v modulo 2^16. -/
theorem offset_setLow_setHigh (x : Byte) (v : Int) :
    (imageByte 2 v 1 ++ (x ++ imageByte 2 v 0 : BitVec 16).extractLsb' 0 8 : BitVec 16) = BitVec.ofInt 16 v := by
  rw [← imageByte_two_append v]
  congr 1
  exact BitVec.extractLsb'_append_eq_right

/-- Settles O6: the two words are the two writes, whose next states the rules above give. -/
theorem wr16SetsTheOffsetInTwoSteps : Obligations.Wr16SetsTheOffsetInTwoSteps := by
  intro v s
  refine ⟨_, _, _, _, _, _, wr16_tOffset v, decode_write (by decide) _, decode_write (by decide) _,
    exec_wr_tOffsetLo _ s, exec_wr_tOffsetHi _ _, ?halfWritten, ?written, ?_, ?_⟩
  case halfWritten =>
    rw [toNat_offset_setLow, ← toNat_imageByte_two_zero]
    push_cast
    rfl
  case written =>
    rw [offset_setLow_setHigh, BitVec.toNat_ofInt, Int.toNat_of_nonneg (Int.emod_nonneg _ (by decide))]
    rfl
  all_goals exact Status.get_put _ .tempFresh .tempFresh false

end Sys2Proof.Machine
end

section
/-! The unused calibration bytes (30 R47). -/

namespace Sys2Proof.Machine

/-- Settles O26: every index that the parser reads is a used one. -/
theorem unusedCalibrationBytesAreIgnored : Obligations.UnusedCalibrationBytesAreIgnored := by
  intro b b' h
  have used : ∀ (n : Nat) (hn : n < 41), n ∉ [0, 4, 10, 17, 18, 24, 39, 40] → b[n] = b'[n] :=
    fun n hn => h ⟨n, hn⟩
  simp (disch := decide) only [parseCalibration, used]

end Sys2Proof.Machine
end

section
/-! The calibration parser (30 R45, R46; 40 R54, R56): CAL_LOAD in full, the fields as numbers, and the buffer
rebuilt from its fields. -/

namespace Sys2Proof.Machine

/-- CAL_LOAD with every CALBUF byte written (40 R54). -/
theorem exec_calLoad_complete {s : State} (h : s.ccb.calWMask = BitVec.allOnes 41) :
    exec .calLoad s = .next { s with ccb := { s.ccb with
      coef := parseCalibration s.ccb.calbuf, calWMask := 0, status := Status.afterCalLoad s.ccb.status } } := by
  show commandStep [calLoad] s = _
  rw [commandStep, runCommands_cons_ok (calLoad_ok_iff.2 ⟨h, rfl⟩), runCommands_nil]

/-- Settles O24: the next state by whether the mask is full; each field is one byte, two bytes or a byte and a
nibble, read as a number. -/
theorem calLoadParsesTheBuffer : Obligations.CalLoadParsesTheBuffer := by
  refine fun s => ⟨fun h => ⟨parseCalibration s.ccb.calbuf, ?next, ?fields⟩, fun h => ?fault⟩
  case next =>
    rw [exec_calLoad_complete h, Status.afterCalLoad_eq_mask]
  case fields =>
    simp [parseCalibration, u16_toNat, u16_toInt, byte_toInt, lowNibble_toNat, highNibble_toNat]
  case fault =>
    rw [exec_calLoad_partial h, faultEntry_eq_mask]
    rfl

theorem u16_low (lo hi : Byte) : (u16 lo hi).extractLsb' 0 8 = lo := BitVec.extractLsb'_append_eq_right

theorem u16_high (lo hi : Byte) : (u16 lo hi).extractLsb' 8 8 = hi := BitVec.extractLsb'_append_eq_left

/-- A 12-bit field is its upper byte and its low nibble (30 R46). -/
theorem byte_append_nibble (x : BitVec 12) : (x.extractLsb' 4 8 ++ x.extractLsb' 0 4 : BitVec 12) = x :=
  BitVec.extractLsb'_append_extractLsb' (w := 8) (len := 4)

theorem lowNibble_append (x y : BitVec 4) : (x ++ y : Byte).extractLsb' 0 4 = y := BitVec.extractLsb'_append_eq_right

theorem highNibble_append (x y : BitVec 4) : (x ++ y : Byte).extractLsb' 4 4 = x := BitVec.extractLsb'_append_eq_left

/-- The buffer rebuilt from a buffer's fields is that buffer, with 0 at the unused indices. -/
theorem unparseCalibration_parseCalibration (b : Vector Byte 41) (i : Fin 41) :
    (unparseCalibration (parseCalibration b))[i] = if unusedIndex i then 0 else b[i] := by
  simp only [unparseCalibration, parseCalibration, u16_low, u16_high, BitVec.extractLsb'_append_eq_right,
    BitVec.extractLsb'_append_eq_left, BitVec.extractLsb'_append_extractLsb']
  fin_cases i <;> rfl

theorem parseCalibration_unparseCalibration (k : Coef) : parseCalibration (unparseCalibration k) = k := by
  simp [unparseCalibration, parseCalibration, u16_extractLsb', lowNibble_append, highNibble_append, byte_append_nibble]

/-- Settles O25: each of the two functions undoes the other, up to the unused bytes. -/
theorem calibrationParseIsABijection : Obligations.CalibrationParseIsABijection :=
  ⟨fun b i hi => by rw [unparseCalibration_parseCalibration, hi, if_neg Bool.false_ne_true],
    parseCalibration_unparseCalibration⟩

end Sys2Proof.Machine
end

section
/-! What the coefficients change by (40 R55). -/

namespace Sys2Proof.Machine

theorem coef_of_readCycle_ok {f : Command} (hf : f ∈ readCycle) {c c' : Ccb} (h : f c = .ok c') :
    c'.coef = c.coef := by
  simp only [readCycle, List.mem_cons, List.not_mem_nil, or_false] at hf
  rcases hf with rfl | rfl | rfl | rfl | rfl
  · obtain ⟨_, rfl⟩ := unpackSample_ok_iff.1 h
    rfl
  · obtain ⟨_, _, rfl⟩ := compTemperature_ok_iff.1 h
    rfl
  · obtain ⟨_, _, _, p, _, rfl⟩ := compPressure_ok_iff.1 h
    rfl
  · obtain ⟨_, _, _, rfl⟩ := compHumidity_ok_iff.1 h
    rfl
  · obtain ⟨_, _, g, _, rfl⟩ := compGas_ok_iff.1 h
    rfl

/-- COMP_ALL, wherever it ends, leaves the coefficients. -/
theorem coef_runCommands_readCycle (c : Ccb) : (runCommands readCycle c).coef = c.coef :=
  runCommands_keeps (fun c' => c'.coef = c.coef) (fun _ _ h => h) readCycle c
    (fun _ hf _ _ hc h => (coef_of_readCycle_ok hf h).trans hc) rfl

/-- So does each of its commands, whether it completes or faults. -/
theorem coef_runCommands_single {f : Command} (hf : f ∈ readCycle) (c : Ccb) :
    (runCommands [f] c).coef = c.coef := by
  rw [runCommands_single]
  split
  · next h => exact coef_of_readCycle_ok hf h
  · rfl

theorem coef_memWrite {a : Addr} (ha : a ≠ cmdAddr) (d : Byte) (c : Ccb) :
    (memWrite executeCommand a d c).coef = c.coef := by
  rcases memWrite_cases executeCommand a d c with ⟨hc, _⟩ | ⟨_, _, h⟩ | ⟨_, _, h⟩ | ⟨_, h⟩ | ⟨_, h⟩ | ⟨_, h⟩ |
    ⟨_, h⟩ | ⟨_, h⟩ | ⟨_, h⟩
  · exact absurd hc ha
  all_goals exact h ▸ rfl

theorem coef_afterRead (a : Addr) (c : Ccb) : (afterRead a c).coef = c.coef := by
  rw [afterRead_eq]
  split <;> rfl

theorem calWMask_full_of_coef_ne {c : Ccb} (h : (runCommands [calLoad] c).coef ≠ c.coef) :
    c.calWMask = BitVec.allOnes 41 := by
  by_contra hm
  exact h (by rw [runCommands_cons_error (calLoad_error_iff.2 ⟨hm, rfl⟩)]; rfl)

/-- A command that changes a coefficient, run by itself or by the write of its code, is CAL_LOAD with the mask
full or SRST. -/
theorem changesCoef_of_command {d : Byte} {j : Instr} (hj : decodeCommand d = some j) {i : Instr}
    (hi : i = j ∨ i = .wr 0x3C d) {c : Ccb} (hne : (runCommands (commandsOf d) c).coef ≠ c.coef) :
    (i = .calLoad ∨ i = .wr 0x3C 0x01) ∧ c.calWMask = BitVec.allOnes 41 ∨ i = .srst ∨ i = .wr 0x3C 0x0F := by
  have hm := (decodeCommand_iff_mem d j).1 hj
  simp only [commandTable, List.mem_cons, Prod.mk.injEq, List.not_mem_nil, or_false] at hm
  rcases hm with ⟨rfl, rfl⟩ | ⟨rfl, rfl⟩ | ⟨rfl, rfl⟩ | ⟨rfl, rfl⟩ | ⟨rfl, rfl⟩ | ⟨rfl, rfl⟩ | ⟨rfl, rfl⟩ |
    ⟨rfl, rfl⟩ | ⟨rfl, rfl⟩ | ⟨rfl, rfl⟩
  · exact absurd rfl hne
  · exact .inl ⟨hi, calWMask_full_of_coef_ne hne⟩
  iterate 5 exact absurd (coef_runCommands_single (by simp [readCycle]) c) hne
  · exact absurd (coef_runCommands_readCycle c) hne
  · exact absurd rfl hne
  · exact .inr hi

/-- Settles O27: a write elsewhere than CMD, a reserved code and a read leave the coefficients, and of the
commands only CAL_LOAD and SRST do not. -/
theorem coefficientsChangeOnlyByCalLoadOrReset : Obligations.CoefficientsChangeOnlyByCalLoadOrReset := by
  intro i
  induction i using forall_instr with
  | write a d ha =>
    rintro s t ⟨⟩ hne
    exact absurd (coef_memWrite ha d s.ccb) hne
  | illegal d hd =>
    intro s t h hne
    rw [exec_reserved hd] at h
    cases h
    exact absurd rfl hne
  | command d i hd =>
    constructor
    · intro s t h hne
      rw [exec_command hd] at h
      cases h
      exact changesCoef_of_command hd (.inl rfl) hne
    · rintro s t ⟨⟩ hne
      exact changesCoef_of_command hd (.inr rfl) hne
  | read a =>
    rintro s t ⟨⟩ hne
    exact absurd (coef_afterRead a s.ccb) hne

end Sys2Proof.Machine
end

section
/-! The raw sample (30 R49; 41 R57, R58): the codes as numbers, and UNPACK and COMP_ALL with and without a new
sample. -/

namespace Sys2Proof.Machine

/-- The humidity code, most significant byte first (41 R57). -/
theorem byte_append_byte_toNat (hi lo : Byte) : (hi ++ lo : BitVec 16).toNat = hi.toNat * 2 ^ 8 + lo.toNat := by
  have h := u16_toNat lo hi
  rw [u16] at h
  omega

/-- The gas code: a byte above the two highest bits of the next (41 R57). -/
theorem byte_append_highBits_toNat (a b : Byte) :
    (a ++ b.extractLsb' 6 2 : BitVec 10).toNat = a.toNat * 2 ^ 2 + b.toNat / 2 ^ 6 := by
  have hb : (b.extractLsb' 6 2).toNat = b.toNat / 2 ^ 6 := by
    rw [BitVec.extractLsb'_toNat, Nat.shiftRight_eq_div_pow]
    omega
  show (a ++ b.extractLsb' 6 2 : BitVec (8 + 2)).toNat = _
  rw [BitVec.toNat_append, ← Nat.shiftLeft_add_eq_or_of_lt (BitVec.isLt _), Nat.shiftLeft_eq, hb]

/-- UNPACK with every RAWBUF byte written (41 R57). -/
theorem exec_unpack_complete {s : State} (h : s.ccb.rawWMask = BitVec.allOnes 10) :
    exec .unpack s = .next { s with ccb := { s.ccb with
      adcT := code20 s.ccb.rawbuf[0] s.ccb.rawbuf[1] s.ccb.rawbuf[2]
      adcP := code20 s.ccb.rawbuf[3] s.ccb.rawbuf[4] s.ccb.rawbuf[5]
      adcH := s.ccb.rawbuf[6] ++ s.ccb.rawbuf[7]
      adcG := s.ccb.rawbuf[8] ++ s.ccb.rawbuf[9].extractLsb' 6 2
      gasRange := s.ccb.rawbuf[9].extractLsb' 0 4
      rawWMask := 0
      status := (s.ccb.status ||| 0x02) &&& 0x03 } } := by
  show commandStep [unpackSample] s = _
  rw [commandStep, runCommands_cons_ok (unpackSample_ok_iff.2 ⟨h, rfl⟩), runCommands_nil, Status.afterUnpack_eq_mask]

/-- Without a new sample COMP_ALL ends at its first command, as UNPACK alone does (43 R72). -/
theorem exec_compAll_partial {s : State} (h : s.ccb.rawWMask ≠ BitVec.allOnes 10) :
    exec .compAll s = .next { s with ccb := faultEntry .rawPartial s.ccb } := by
  show commandStep readCycle s = _
  rw [commandStep, readCycle, runCommands_cons_error (unpackSample_error_iff.2 ⟨h, rfl⟩)]

/-- Settles O30: the first command of both is UNPACK, whose fault ends them. -/
theorem noNewSampleLeavesTheReading : Obligations.NoNewSampleLeavesTheReading := by
  intro s h i hi
  have hfault : exec i s = .next { s with ccb := faultEntry .rawPartial s.ccb } := by
    simp only [List.mem_cons, List.not_mem_nil, or_false] at hi
    rcases hi with rfl | rfl
    · exact exec_unpack_partial h
    · exact exec_compAll_partial h
  rw [hfault, faultEntry_eq_mask]
  rfl

/-- Settles O28: the next state by whether the mask is full; each code is its bytes put together, read as a
number. -/
theorem unpackTakesTheSample : Obligations.UnpackTakesTheSample := by
  refine fun s => ⟨fun h => ⟨_, _, _, _, _, exec_unpack_complete h, ?codes⟩, fun h => ?fault⟩
  case codes =>
    exact ⟨code20_toNat .., code20_toNat .., byte_append_byte_toNat .., byte_append_highBits_toNat ..,
      BitVec.extractLsb'_toNat ..⟩
  case fault => exact noNewSampleLeavesTheReading s h .unpack (List.mem_cons_self ..)

end Sys2Proof.Machine
end

section
/-! When each compensation command faults, and with which fault (42 R60, R63, R65, R68; the order of the checks is
60 R81); and a command by itself as a step, with its masks. -/

namespace Sys2Proof.Machine

theorem compTemperature_error_iff {c : Ccb} {e : Err} :
    compTemperature c = .error e ↔
      (Ccb.flag c .calValid = false ∧ e = .notCal) ∨
      (Ccb.flag c .calValid = true ∧ Ccb.flag c .rawValid = false ∧ e = .noRaw) := by
  unfold compTemperature
  cases Ccb.flag c .calValid
  case false => simp [eq_comm (b := e)]
  case true => cases Ccb.flag c .rawValid <;> simp [eq_comm (b := e)]

theorem compPressure_error_iff {c : Ccb} {e : Err} :
    compPressure c = .error e ↔
      (Ccb.flag c .calValid = false ∧ e = .notCal) ∨
      (Ccb.flag c .calValid = true ∧ Ccb.flag c .rawValid = false ∧ e = .noRaw) ∨
      (Ccb.flag c .calValid = true ∧ Ccb.flag c .rawValid = true ∧ Ccb.flag c .tfineValid = false ∧ e = .noTfine) ∨
      (Ccb.flag c .calValid = true ∧ Ccb.flag c .rawValid = true ∧ Ccb.flag c .tfineValid = true ∧
        pressureOf c = .error e) := by
  unfold compPressure
  cases Ccb.flag c .calValid
  case false => simp [eq_comm (b := e)]
  case true =>
    cases Ccb.flag c .rawValid
    case false => simp [eq_comm (b := e)]
    case true =>
      cases Ccb.flag c .tfineValid
      case false => simp [eq_comm (b := e)]
      case true => cases pressureOf c <;> simp

theorem compHumidity_error_iff {c : Ccb} {e : Err} :
    compHumidity c = .error e ↔
      (Ccb.flag c .calValid = false ∧ e = .notCal) ∨
      (Ccb.flag c .calValid = true ∧ Ccb.flag c .rawValid = false ∧ e = .noRaw) ∨
      (Ccb.flag c .calValid = true ∧ Ccb.flag c .rawValid = true ∧ Ccb.flag c .tfineValid = false ∧ e = .noTfine) := by
  unfold compHumidity
  cases Ccb.flag c .calValid
  case false => simp [eq_comm (b := e)]
  case true =>
    cases Ccb.flag c .rawValid
    case false => simp [eq_comm (b := e)]
    case true => cases Ccb.flag c .tfineValid <;> simp [eq_comm (b := e)]

theorem compGas_error_iff {c : Ccb} {e : Err} :
    compGas c = .error e ↔
      (Ccb.flag c .rawValid = false ∧ e = .noRaw) ∨
      (Ccb.flag c .rawValid = true ∧ c.rseW = false ∧ e = .rseUnset) ∨
      (Ccb.flag c .rawValid = true ∧ c.rseW = true ∧ gasOf c = .error e) := by
  unfold compGas
  cases Ccb.flag c .rawValid
  case false => simp [eq_comm (b := e)]
  case true =>
    cases c.rseW
    case false => simp [eq_comm (b := e)]
    case true => cases gasOf c <;> simp

/-- compP faults on a zero divisor, and otherwise on a result that does not fit (42 R61). -/
theorem compP_error_iff {tFine adcP p1 p2 p3 p4 p5 p6 p7 p8 p9 p10 : Int} {e : Err} :
    compP tFine adcP p1 p2 p3 p4 p5 p6 p7 p8 p9 p10 = .error e ↔
      (pressDivisor tFine p1 p2 p3 = 0 ∧ e = .pDiv0) ∨
      (pressDivisor tFine p1 p2 p3 ≠ 0 ∧
        fitsSigned32 (pressCorrected (pressQuotient Config.pOvfThreshold (pressDividend tFine adcP p4 p5 p6)
          (pressDivisor tFine p1 p2 p3)) p7 p8 p9 p10) = false ∧ e = .pRange) := by
  unfold compP
  simp only
  by_cases hdiv : pressDivisor tFine p1 p2 p3 = 0
  · simp [hdiv, eq_comm (b := e)]
  · rw [if_neg hdiv]
    split
    · next hfits => simp [hdiv, hfits]
    · next hfits => simp [hdiv, Bool.eq_false_iff.2 hfits, eq_comm (b := e)]

/-- A command that faults, as a step (60 R79). -/
theorem commandStep_error {f : Command} {s : State} {e : Err} (h : f s.ccb = .error e) :
    commandStep [f] s = .next { s with ccb := { s.ccb with
      err := s.ccb.err ||| BitVec.ofNat 16 (2 ^ e.code), status := s.ccb.status ||| 0x80 } } := by
  rw [commandStep, runCommands_cons_error h, faultEntry_eq_mask]

/-- A command that completes, as a step. -/
theorem commandStep_ok {f : Command} {s : State} {c' : Ccb} (h : f s.ccb = .ok c') :
    commandStep [f] s = .next { s with ccb := c' } := by
  rw [commandStep, runCommands_cons_ok h, runCommands_nil]

theorem exec_compT (s : State) : exec .compT s = commandStep [compTemperature] s := rfl

theorem exec_compP (s : State) : exec .compP s = commandStep [compPressure] s := rfl

theorem exec_compH (s : State) : exec .compH s = commandStep [compHumidity] s := rfl

theorem exec_compG (s : State) : exec .compG s = commandStep [compGas] s := rfl

theorem exec_compT_complete {s : State} (hcal : Ccb.flag s.ccb .calValid = true)
    (hraw : Ccb.flag s.ccb .rawValid = true) :
    exec .compT s = .next { s with ccb := { s.ccb with
      tFine := BitVec.ofInt 32 (temperatureOf s.ccb).1
      tempOut := BitVec.ofInt 32 (temperatureOf s.ccb).2
      status := (s.ccb.status ||| 0x0C) &&& 0x7F } } := by
  rw [exec_compT, commandStep_ok (compTemperature_ok_iff.2 ⟨hcal, hraw, rfl⟩), Status.afterCompT_eq_mask]

theorem exec_compP_complete {s : State} (hcal : Ccb.flag s.ccb .calValid = true)
    (hraw : Ccb.flag s.ccb .rawValid = true) (hfine : Ccb.flag s.ccb .tfineValid = true) {p : Int}
    (hp : pressureOf s.ccb = .ok p) :
    exec .compP s = .next { s with ccb := { s.ccb with
      pressOut := BitVec.ofInt 32 p, status := (s.ccb.status ||| 0x10) &&& 0x7F } } := by
  rw [exec_compP, commandStep_ok (compPressure_ok_iff.2 ⟨hcal, hraw, hfine, p, hp, rfl⟩),
    Status.afterComp_press_eq_mask]

theorem exec_compH_complete {s : State} (hcal : Ccb.flag s.ccb .calValid = true)
    (hraw : Ccb.flag s.ccb .rawValid = true) (hfine : Ccb.flag s.ccb .tfineValid = true) :
    exec .compH s = .next { s with ccb := { s.ccb with
      humOut := BitVec.ofInt 32 (humidityOf s.ccb), status := (s.ccb.status ||| 0x20) &&& 0x7F } } := by
  rw [exec_compH, commandStep_ok (compHumidity_ok_iff.2 ⟨hcal, hraw, hfine, rfl⟩), Status.afterComp_hum_eq_mask]

theorem exec_compG_complete {s : State} (hraw : Ccb.flag s.ccb .rawValid = true) (hrse : s.ccb.rseW = true)
    {g : BitVec 64} (hg : gasOf s.ccb = .ok g) :
    exec .compG s = .next { s with ccb := { s.ccb with
      gasOut := g, status := (s.ccb.status ||| 0x40) &&& 0x7F } } := by
  rw [exec_compG, commandStep_ok (compGas_ok_iff.2 ⟨hraw, hrse, g, hg, rfl⟩), Status.afterComp_gas_eq_mask]

/-- Settles O31: the two faults are the first two checks; T_FINE and TEMP_OUT fit their registers, so the registers
hold the chain's integers, here with the shifts as arithmetic. -/
theorem compTComputesTheTemperature : Obligations.CompTComputesTheTemperature := by
  refine fun s => ⟨fun hcal => ?notCal, fun hcal hraw => ?noRaw, fun hcal hraw =>
    ⟨_, _, exec_compT_complete hcal hraw, ?value⟩⟩
  case notCal => exact commandStep_error (compTemperature_error_iff.2 (.inl ⟨hcal, rfl⟩))
  case noRaw => exact commandStep_error (compTemperature_error_iff.2 (.inr ⟨hcal, hraw, rfl⟩))
  case value =>
    rw [toInt_ofInt_temperatureOf_fst, toInt_ofInt_temperatureOf_snd]
    exact ⟨by simp only [temperatureOf_fst, fineTemp, asr_eq, shl_eq],
      by rw [temperatureOf_snd, centiDegrees, asr_eq]⟩

/-- Settles O35: the first three faults are COMP_P's checks of the flags, the other two are compP's; when neither
arises compP's result fits PRESS_OUT. -/
theorem compPComputesThePressure : Obligations.CompPComputesThePressure := by
  intro s fault k p1 p10 a0 b0 b1 b2 a1 a2 var1 pc q v1 v2 v3 p
  have hvar1 : pressDivisor s.ccb.tFine.toInt p1 k.p2.toInt k.p3.toInt = var1 := by
    simp only [pressDivisor, asr_eq, shl_eq]
    rfl
  have hpc : pressDividend s.ccb.tFine.toInt s.ccb.adcP.toNat k.p4.toInt k.p5.toInt k.p6.toInt = pc := by
    simp only [pressDividend, asr_eq, shl_eq]
    rfl
  have hp : pressCorrected (pressQuotient Config.pOvfThreshold pc var1) k.p7.toInt k.p8.toInt k.p9.toInt p10 = p := by
    simp only [pressCorrected, pressQuotient, pOvfThreshold_eq, asr_eq, shl_eq, tdiv]
    rfl
  refine ⟨fun hcal => ?notCal, fun hcal hraw => ?noRaw, fun hcal hraw hfine => ?noTfine, fun hcal hraw hfine =>
    ⟨fun h0 => ?pDiv0, fun hne hout => ?pRange, fun hne hlo hhi => ?complete⟩⟩
  case notCal => exact commandStep_error (compPressure_error_iff.2 (.inl ⟨hcal, rfl⟩))
  case noRaw => exact commandStep_error (compPressure_error_iff.2 (.inr (.inl ⟨hcal, hraw, rfl⟩)))
  case noTfine =>
    exact commandStep_error (compPressure_error_iff.2 (.inr (.inr (.inl ⟨hcal, hraw, hfine, rfl⟩))))
  case pDiv0 =>
    have herr : pressureOf s.ccb = .error .pDiv0 := compP_error_iff.2 (.inl ⟨hvar1.trans h0, rfl⟩)
    exact commandStep_error (compPressure_error_iff.2 (.inr (.inr (.inr ⟨hcal, hraw, hfine, herr⟩))))
  case pRange =>
    have hfits : fitsSigned32 p = false := by
      rw [Bool.eq_false_iff, Ne, fitsSigned32_iff]
      omega
    have herr : pressureOf s.ccb = .error .pRange :=
      compP_error_iff.2 (.inr ⟨hvar1.trans_ne hne, by rw [hvar1, hpc, hp, hfits], rfl⟩)
    exact commandStep_error (compPressure_error_iff.2 (.inr (.inr (.inr ⟨hcal, hraw, hfine, herr⟩))))
  case complete =>
    have hok : pressureOf s.ccb = .ok p :=
      compP_ok_iff.2 ⟨hvar1.trans_ne hne, by rw [hvar1, hpc, hp], by omega, by omega⟩
    exact ⟨_, exec_compP_complete hcal hraw hfine hok, pressureOf_toInt hok⟩

/-- Settles O38: the three faults are COMP_H's checks; the humidity fits HUM_OUT, which so holds the clamped and
rounded integer. -/
theorem compHComputesTheHumidity : Obligations.CompHComputesTheHumidity := by
  intro s fault k h1 h2 h6 ts var1 var2 var3 var4 var5 var6 hq
  refine ⟨fun hcal => ?notCal, fun hcal hraw => ?noRaw, fun hcal hraw hfine => ?noTfine, fun hcal hraw hfine =>
    ⟨_, exec_compH_complete hcal hraw hfine, ?value⟩⟩
  case notCal => exact commandStep_error (compHumidity_error_iff.2 (.inl ⟨hcal, rfl⟩))
  case noRaw => exact commandStep_error (compHumidity_error_iff.2 (.inr (.inl ⟨hcal, hraw, rfl⟩)))
  case noTfine => exact commandStep_error (compHumidity_error_iff.2 (.inr (.inr ⟨hcal, hraw, hfine, rfl⟩)))
  case value =>
    rw [toNat_ofInt_humidityOf]
    simp only [humidityOf, compH, humidityUnclamped, centiDegrees, clamp_eq_max_min _ 0 102400 (by norm_num), asr_eq,
      shl_eq, tdiv]
    rfl

/-- Settles O33: a floor shift keeps the order; the two calibrations are the spec's T-7 and T-8. -/
theorem temperatureIsMonotoneInFineTemperatureOnly : Obligations.TemperatureIsMonotoneInFineTemperatureOnly :=
  ⟨fun x y hxy => asr_mono 8 (by omega), by decide, by decide⟩

/-- Settles O39, by the clamp. -/
theorem humidityIsAPercentage : Obligations.HumidityIsAPercentage := compH_bounds

end Sys2Proof.Machine
end

section
/-! Interval arithmetic on the spec's operators: the ends between which a product, a floor shift and a truncating
division lie, from the ends of their operands. -/

namespace Sys2Proof.Machine

/-- A product with one factor fixed lies between its values at the ends of the other. -/
theorem mul_between_of_left {a al ah b lo hi : Int} (ha : al ≤ a ∧ a ≤ ah) (hl : lo ≤ al * b ∧ al * b ≤ hi)
    (hh : lo ≤ ah * b ∧ ah * b ≤ hi) : lo ≤ a * b ∧ a * b ≤ hi := by
  rcases le_total 0 b with hb | hb
  · exact ⟨hl.1.trans (mul_le_mul_of_nonneg_right ha.1 hb), (mul_le_mul_of_nonneg_right ha.2 hb).trans hh.2⟩
  · exact ⟨hh.1.trans (mul_le_mul_of_nonpos_right ha.2 hb), (mul_le_mul_of_nonpos_right ha.1 hb).trans hl.2⟩

/-- A product lies between any bounds of the four products of its factors' ends. -/
theorem mul_between {a al ah b bl bh lo hi : Int} (ha : al ≤ a ∧ a ≤ ah) (hb : bl ≤ b ∧ b ≤ bh)
    (hends : ∀ x ∈ [al, ah], ∀ y ∈ [bl, bh], lo ≤ y * x ∧ y * x ≤ hi) : lo ≤ a * b ∧ a * b ≤ hi := by
  have hend : ∀ x ∈ [al, ah], lo ≤ x * b ∧ x * b ≤ hi := fun x hx => by
    rw [mul_comm]
    exact mul_between_of_left hb (hends x hx bl (by simp)) (hends x hx bh (by simp))
  exact mul_between_of_left ha (hend al (by simp)) (hend ah (by simp))

theorem square_between {a b : Int} (ha : -b ≤ a ∧ a ≤ b) : 0 ≤ a * a ∧ a * a ≤ b * b :=
  ⟨mul_self_nonneg a, by linarith [mul_nonneg (sub_nonneg.2 ha.1) (sub_nonneg.2 ha.2)]⟩

theorem asr_between (n : Nat) {a lo hi : Int} (ha : lo ≤ a ∧ a ≤ hi) : asr lo n ≤ asr a n ∧ asr a n ≤ asr hi n :=
  ⟨asr_mono n ha.1, asr_mono n ha.2⟩

theorem tdiv_between {d : Int} (hd : 0 < d) {a lo hi : Int} (ha : lo ≤ a ∧ a ≤ hi) :
    tdiv lo d ≤ tdiv a d ∧ tdiv a d ≤ tdiv hi d :=
  ⟨Int.tdiv_le_tdiv hd ha.1, Int.tdiv_le_tdiv hd ha.2⟩

theorem abs_le_of_between {a lo hi b : Int} (ha : lo ≤ a ∧ a ≤ hi) (hlo : -b ≤ lo) (hhi : hi ≤ b) : |a| ≤ b :=
  abs_le.2 ⟨hlo.trans ha.1, ha.2.trans hhi⟩

theorem abs_tdiv_le (a b : Int) : |tdiv a b| ≤ |a| := by
  rw [tdiv, Int.abs_eq_natAbs, Int.abs_eq_natAbs, Int.natAbs_tdiv]
  exact_mod_cast Nat.div_le_self _ _

theorem toInt_between_8 (x : BitVec 8) : -128 ≤ x.toInt ∧ x.toInt ≤ 127 :=
  ⟨BitVec.le_toInt x, Int.le_of_lt_add_one BitVec.toInt_lt⟩

theorem toInt_between_16 (x : BitVec 16) : -32768 ≤ x.toInt ∧ x.toInt ≤ 32767 :=
  ⟨BitVec.le_toInt x, Int.le_of_lt_add_one BitVec.toInt_lt⟩

theorem toNat_between_8 (x : BitVec 8) : 0 ≤ (x.toNat : Int) ∧ (x.toNat : Int) ≤ 255 := by
  have := x.isLt
  omega

end Sys2Proof.Machine
end

section
/-! The bounds of the temperature chain (42 R69, the temperature rows). -/

namespace Sys2Proof.Machine

/-- `var1` of compT (42 R59). -/
def tempVar1 (adcT t1 : Int) : Int := asr adcT 3 - shl t1 1

theorem fineTemp_eq (adcT t1 t2 t3 : Int) :
    fineTemp adcT t1 t2 t3 =
      asr (tempVar1 adcT t1 * t2) 11 +
        asr (asr (asr (tempVar1 adcT t1) 1 * asr (tempVar1 adcT t1) 1) 12 * shl t3 4) 14 := rfl

theorem tempVar1_between (adcT : BitVec 20) (t1 : BitVec 16) :
    -131070 ≤ tempVar1 adcT.toNat t1.toNat ∧ tempVar1 adcT.toNat t1.toNat ≤ 131071 := by
  have hadc := adcT.isLt
  have ht1 := t1.isLt
  rw [tempVar1, asr_eq, shl_eq]
  omega

theorem tempProduct_between (adcT : BitVec 20) (t1 t2 : BitVec 16) :
    -4294934528 ≤ tempVar1 adcT.toNat t1.toNat * t2.toInt ∧
      tempVar1 adcT.toNat t1.toNat * t2.toInt ≤ 4294901760 :=
  mul_between (tempVar1_between adcT t1) (toInt_between_16 t2) (by decide)

theorem tempSquare_between (adcT : BitVec 20) (t1 : BitVec 16) :
    0 ≤ asr (tempVar1 adcT.toNat t1.toNat) 1 * asr (tempVar1 adcT.toNat t1.toNat) 1 ∧
      asr (tempVar1 adcT.toNat t1.toNat) 1 * asr (tempVar1 adcT.toNat t1.toNat) 1 ≤ 4294836225 :=
  square_between (b := 65535) (asr_between 1 (tempVar1_between adcT t1))

/-- The fine temperatures that COMP_T can give; the upper end is nearer to 0 than `abs_fineTemp_le` says. -/
theorem fineTemp_between (adcT : BitVec 20) (t1 t2 : BitVec 16) (t3 : BitVec 8) :
    -2228204 ≤ fineTemp adcT.toNat t1.toNat t2.toInt t3.toInt ∧
      fineTemp adcT.toNat t1.toNat t2.toInt t3.toInt ≤ 2227164 := by
  have hvar2 := asr_between 11 (tempProduct_between adcT t1 t2)
  have ht3 : -2048 ≤ shl t3.toInt 4 ∧ shl t3.toInt 4 ≤ 2032 := by
    have := toInt_between_8 t3
    rw [shl_eq]
    omega
  have hproduct := mul_between (lo := -2147418112) (hi := 2130641408)
    (asr_between 12 (tempSquare_between adcT t1)) ht3 (by decide)
  have hvar3 := asr_between 14 hproduct
  rw [fineTemp_eq]
  exact ⟨add_le_add hvar2.1 hvar3.1, add_le_add hvar2.2 hvar3.2⟩

/-- Settles O32: the ends of the two products, and the bounds of T_FINE and TEMP_OUT for a block that holds these
inputs. -/
theorem temperatureChainBounds : Obligations.TemperatureChainBounds := fun adcT t1 t2 t3 off =>
  ⟨abs_le_of_between (tempProduct_between adcT t1 t2) (by decide) (by decide),
    abs_le_of_between (tempSquare_between adcT t1) (by decide) (by decide),
    abs_fineTemp_le adcT t1 t2 t3,
    abs_temperatureOf_snd_le
      { Ccb.reset with adcT := adcT, tOffset := off, coef := { Coef.reset with t1 := t1, t2 := t2, t3 := t3 } }⟩

end Sys2Proof.Machine
end

section
/-! The bounds of the pressure chain (42 R69, the pressure rows), over every fine temperature COMP_T can give. -/

namespace Sys2Proof.Machine

/-- The first `var1` of compP (42 R61). -/
def pressOffset (tFine : Int) : Int := asr tFine 1 - 64000

/-- `(var1 >> 2)²` of compP (42 R61). -/
def pressSquare (tFine : Int) : Int := asr (pressOffset tFine) 2 * asr (pressOffset tFine) 2

/-- `var2` of compP after its third step (42 R61). -/
def pressVar2 (tFine p4 p5 p6 : Int) : Int :=
  asr (asr (asr (pressSquare tFine) 11 * p6) 2 + shl (pressOffset tFine * p5) 1) 2 + shl p4 16

theorem pressDividend_eq (tFine adcP p4 p5 p6 : Int) :
    pressDividend tFine adcP p4 p5 p6 = (1048576 - adcP - asr (pressVar2 tFine p4 p5 p6) 12) * 3125 := rfl

/-- The quadratic term of compP's correction of the quotient `q` (42 R61). -/
def pressQuadratic (q p9 : Int) : Int := p9 * asr (asr q 3 * asr q 3) 13

/-- The cubic term of compP's correction of the quotient `q` (42 R61). -/
def pressCubic (q p10 : Int) : Int := asr q 8 * asr q 8 * asr q 8 * p10

theorem pressCorrected_eq (q p7 p8 p9 p10 : Int) :
    pressCorrected q p7 p8 p9 p10 =
      q + asr (asr (pressQuadratic q p9) 12 + asr (asr q 2 * p8) 13 + asr (pressCubic q p10) 17 + shl p7 7) 4 := rfl

section FineTemperature
variable {tFine : Int} (ht : -2228204 ≤ tFine ∧ tFine ≤ 2227164)
include ht

theorem pressOffset_between : -1178102 ≤ pressOffset tFine ∧ pressOffset tFine ≤ 1049582 := by
  rw [pressOffset, asr_eq]
  omega

theorem pressSquare_between : 0 ≤ pressSquare tFine ∧ pressSquare tFine ≤ 86745564676 := by
  have hquarter := asr_between 2 (pressOffset_between ht)
  exact square_between (b := 294526) ⟨hquarter.1, hquarter.2.trans (by decide)⟩

theorem pressVar2_between (p4 p5 : BitVec 16) (p6 : BitVec 8) :
    -21787767621 ≤ pressVar2 tFine p4.toInt p5.toInt p6.toInt ∧
      pressVar2 tFine p4.toInt p5.toInt p6.toInt ≤ 21785643871 := by
  have hp6 := mul_between (lo := -5421597696) (hi := 5379241464) (asr_between 11 (pressSquare_between ht))
    (toInt_between_8 p6) (by decide)
  have hp5 := mul_between (lo := -38602868234) (hi := 38604046336) (pressOffset_between ht) (toInt_between_16 p5)
    (by decide)
  have hp4 := toInt_between_16 p4
  unfold pressVar2
  generalize asr (pressSquare tFine) 11 * p6.toInt = x at *
  generalize pressOffset tFine * p5.toInt = y at *
  simp only [asr_eq, shl_eq]
  omega

theorem pressDividend_between (adcP : BitVec 20) (p4 p5 : BitVec 16) (p6 : BitVec 8) :
    -16621121875 ≤ pressDividend tFine adcP.toNat p4.toInt p5.toInt p6.toInt ∧
      pressDividend tFine adcP.toNat p4.toInt p5.toInt p6.toInt ≤ 19899550000 := by
  have hadc := adcP.isLt
  have hvar2 := pressVar2_between ht p4 p5 p6
  rw [pressDividend_eq, asr_eq]
  omega

end FineTemperature

/-- The quotient is at most twice the dividend, in magnitude. -/
theorem abs_pressQuotient_le (threshold pc var1 : Int) : |pressQuotient threshold pc var1| ≤ |pc| * 2 := by
  unfold pressQuotient
  split
  · rw [shl_eq, abs_mul]
    exact mul_le_mul_of_nonneg_right (abs_tdiv_le pc var1) (abs_nonneg _)
  · refine (abs_tdiv_le _ _).trans_eq ?_
    rw [shl_eq, abs_mul]
    rfl

section Quotient
variable {q : Int} (hq : |q| ≤ 39799100000)
include hq

theorem pressQuadratic_between (p9 : BitVec 16) :
    -98998022550624993280 ≤ pressQuadratic q p9.toInt ∧ pressQuadratic q p9.toInt ≤ 98995001370737584070 :=
  mul_between (toInt_between_16 p9)
    (asr_between 13 (square_between (b := 4974887500) (asr_between 3 (abs_le.1 hq)))) (by decide)

theorem pressCubic_between (p10 : BitVec 8) :
    -958164427697635426972483125 ≤ pressCubic q p10.toNat ∧
      pressCubic q p10.toNat ≤ 958164421534428407103150750 := by
  have heighth := asr_between 8 (abs_le.1 hq)
  have hsquare := square_between (b := 155465235) ⟨heighth.1, heighth.2.trans (by decide)⟩
  have hcube := mul_between (lo := -3757507559598570301852875) (hi := 3757507535429131008247650) hsquare heighth
    (by decide)
  exact mul_between hcube (toNat_between_8 p10) (by decide)

theorem pressCorrected_between (p7 : BitVec 8) (p8 p9 : BitVec 16) (p10 : BitVec 8) :
    -456889913426894359073 ≤ pressCorrected q p7.toInt p8.toInt p9.toInt p10.toNat ∧
      pressCorrected q p7.toInt p8.toInt p9.toInt p10.toNat ≤ 456889910441948691670 := by
  have hquadratic := asr_between 12 (pressQuadratic_between hq p9)
  have hlinear := mul_between (lo := -326034227200000) (hi := 326034227200000) (asr_between 2 (abs_le.1 hq))
    (toInt_between_16 p8) (by decide)
  have hcubic := asr_between 17 (pressCubic_between hq p10)
  have hp7 := toInt_between_8 p7
  rw [abs_le] at hq
  rw [pressCorrected_eq]
  simp only [asr_eq, shl_eq] at hquadratic hcubic hlinear ⊢
  omega

end Quotient

end Sys2Proof.Machine
end

section
/-! The bounds of the humidity chain (42 R69, the humidity rows), over every fine temperature COMP_T can give. -/

namespace Sys2Proof.Machine

/-- `var1` of compH (42 R64). -/
def humVar1 (ts adcH h1 h3 : Int) : Int := (adcH - h1 * 16) - asr (tdiv (ts * h3) 100) 1

/-- `var2` of compH (42 R64). -/
def humVar2 (ts h2 h4 h5 : Int) : Int :=
  asr (h2 * (tdiv (ts * h4) 100 + tdiv (asr (ts * tdiv (ts * h5) 100) 6) 100 + 16384)) 10

/-- `var4` of compH (42 R64). -/
def humVar4 (ts h6 h7 : Int) : Int := asr (shl h6 7 + tdiv (ts * h7) 100) 4

/-- `var5` of compH, from `var3` (42 R64). -/
def humVar5 (var3 : Int) : Int := asr (asr var3 14 * asr var3 14) 10

theorem humidityUnclamped_eq (tFine adcH h1 h2 h3 h4 h5 h6 h7 : Int) :
    humidityUnclamped tFine adcH h1 h2 h3 h4 h5 h6 h7 =
      asr (humVar1 (centiDegrees tFine) adcH h1 h3 * humVar2 (centiDegrees tFine) h2 h4 h5 +
        asr (humVar4 (centiDegrees tFine) h6 h7 *
          humVar5 (humVar1 (centiDegrees tFine) adcH h1 h3 * humVar2 (centiDegrees tFine) h2 h4 h5)) 1) 12 := rfl

theorem centiDegrees_between {tFine : Int} (ht : -2228204 ≤ tFine ∧ tFine ≤ 2227164) :
    -43520 ≤ centiDegrees tFine ∧ centiDegrees tFine ≤ 43499 := by
  rw [centiDegrees, asr_eq]
  omega

section CentiDegrees
variable {ts : Int} (hts : -43520 ≤ ts ∧ ts ≤ 43499)
include hts

/-- The term `tdiv(ts * Hn, 100)` of a signed coefficient. -/
theorem humTerm_between (h : BitVec 8) : -55678 ≤ tdiv (ts * h.toInt) 100 ∧ tdiv (ts * h.toInt) 100 ≤ 55705 := by
  have hproduct := mul_between (lo := -5567872) (hi := 5570560) hts (toInt_between_8 h) (by decide)
  exact tdiv_between (by decide) hproduct

theorem humVar1_between (adcH : BitVec 16) (h1 : BitVec 12) (h3 : BitVec 8) :
    -93372 ≤ humVar1 ts adcH.toNat h1.toNat h3.toInt ∧ humVar1 ts adcH.toNat h1.toNat h3.toInt ≤ 93374 := by
  have hadc := adcH.isLt
  have hh1 := h1.isLt
  have hterm := asr_between 1 (humTerm_between hts h3)
  have hlo : -27839 ≤ asr (tdiv (ts * h3.toInt) 100) 1 := hterm.1
  have hhi : asr (tdiv (ts * h3.toInt) 100) 1 ≤ 27852 := hterm.2
  unfold humVar1
  omega

theorem humVar2_between (h2 : BitVec 12) (h4 h5 : BitVec 8) :
    -1671944 ≤ humVar2 ts h2.toNat h4.toInt h5.toInt ∧ humVar2 ts h2.toNat h4.toInt h5.toInt ≤ 1802359 := by
  have hh2 : 0 ≤ (h2.toNat : Int) ∧ (h2.toNat : Int) ≤ 4095 := by
    have := h2.isLt
    omega
  have hlinear := humTerm_between hts h4
  have hproduct := mul_between (lo := -2424281600) (hi := 2423111795) hts (humTerm_between hts h5) (by decide)
  have hsquare : -378794 ≤ tdiv (asr (ts * tdiv (ts * h5.toInt) 100) 6) 100 ∧
      tdiv (asr (ts * tdiv (ts * h5.toInt) 100) 6) 100 ≤ 378611 :=
    tdiv_between (by decide) (asr_between 6 hproduct)
  have hsum : -418088 ≤ tdiv (ts * h4.toInt) 100 + tdiv (asr (ts * tdiv (ts * h5.toInt) 100) 6) 100 + 16384 ∧
      tdiv (ts * h4.toInt) 100 + tdiv (asr (ts * tdiv (ts * h5.toInt) 100) 6) 100 + 16384 ≤ 450700 := by
    omega
  exact asr_between 10 (mul_between (lo := -1712070360) (hi := 1845616500) hh2 hsum (by decide))

theorem humVar3_between (adcH : BitVec 16) (h1 h2 : BitVec 12) (h3 h4 h5 : BitVec 8) :
    -168289864548 ≤ humVar1 ts adcH.toNat h1.toNat h3.toInt * humVar2 ts h2.toNat h4.toInt h5.toInt ∧
      humVar1 ts adcH.toNat h1.toNat h3.toInt * humVar2 ts h2.toNat h4.toInt h5.toInt ≤ 168293469266 :=
  mul_between (humVar1_between hts adcH h1 h3) (humVar2_between hts h2 h4 h5) (by decide)

theorem humVar4_between (h6 h7 : BitVec 8) :
    -3480 ≤ humVar4 ts h6.toNat h7.toInt ∧ humVar4 ts h6.toNat h7.toInt ≤ 5521 := by
  have hh6 := toNat_between_8 h6
  have hterm := humTerm_between hts h7
  rw [humVar4, asr_eq, shl_eq]
  omega

end CentiDegrees

theorem humVar5_between {var3 : Int} (h : -168289864548 ≤ var3 ∧ var3 ≤ 168293469266) :
    0 ≤ humVar5 var3 ∧ humVar5 var3 ≤ 103037348657 := by
  have hshift := asr_between 14 h
  exact asr_between 10 (square_between (b := 10271818) ⟨le_trans (by decide) hshift.1, hshift.2⟩)

/-- Settles O37: the ends of the fine temperature, and from them the ends of each step in turn. -/
theorem pressureAndHumidityChainBounds : Obligations.PressureAndHumidityChainBounds := by
  intro k adcT adcP adcH tFine a0 var2 pc divisor q ts var1 var2' var3 var4 var5
  have ht := fineTemp_between adcT k.t1 k.t2 k.t3
  have hpc : |pc| ≤ 19899550000 :=
    abs_le_of_between (pressDividend_between ht adcP k.p4 k.p5 k.p6) (by decide) (by decide)
  have hq : |q| ≤ 39799100000 := (abs_pressQuotient_le _ _ _).trans (mul_le_mul_of_nonneg_right hpc zero_le_two)
  have hts := centiDegrees_between ht
  have hvar3 : -168289864548 ≤ var3 ∧ var3 ≤ 168293469266 := humVar3_between hts adcH k.h1 k.h2 k.h3 k.h4 k.h5
  have hproduct : -358569973326360 ≤ var4 * var5 ∧ var4 * var5 ≤ 568869201935297 :=
    mul_between (humVar4_between hts k.h6 k.h7) (humVar5_between hvar3) (by decide)
  refine ⟨?square, ?var2, hpc, fun _ => ⟨hq, ?quadratic, ?cubic, ?corrected⟩, ?var3, ?product, ?humidity⟩
  case square => exact abs_le_of_between (pressSquare_between ht) (by decide) (by decide)
  case var2 => exact abs_le_of_between (pressVar2_between ht k.p4 k.p5 k.p6) (by decide) (by decide)
  case quadratic => exact abs_le_of_between (pressQuadratic_between hq k.p9) (by decide) (by decide)
  case cubic => exact abs_le_of_between (pressCubic_between hq k.p10) (by decide) (by decide)
  case corrected =>
    exact abs_le_of_between (pressCorrected_between hq k.p7 k.p8 k.p9 k.p10) (by decide) (by decide)
  case var3 => exact abs_le_of_between hvar3 (by decide) (by decide)
  case product => exact abs_le_of_between hproduct (by decide) (by decide)
  case humidity =>
    rw [humidityUnclamped_eq]
    show |asr (var3 + asr (var4 * var5) 1) 12| ≤ 69483128524
    rw [asr_eq, asr_eq, abs_le]
    omega

end Sys2Proof.Machine
end

section
/-! The two branches of compP's division (42 R62). -/

namespace Sys2Proof.Machine

/-- A doubled dividend doubles the quotient, up to one that the remainder carries. -/
theorem two_mul_div_eq (n d : Nat) : 2 * n / d = 2 * (n / d) ∨ 2 * n / d = 2 * (n / d) + 1 := by
  rcases Nat.eq_zero_or_pos d with rfl | hd
  · simp
  · have hlo : 2 * (n / d) ≤ 2 * n / d := by
      rw [Nat.le_div_iff_mul_le hd, mul_assoc]
      exact Nat.mul_le_mul_left 2 (Nat.div_mul_le_self n d)
    have hhi : 2 * n / d < 2 * (n / d) + 2 := by
      rw [Nat.div_lt_iff_lt_mul hd, ← mul_add_one, mul_assoc]
      exact Nat.mul_lt_mul_of_pos_left (Nat.lt_mul_of_div_lt (Nat.lt_succ_self _) hd) two_pos
    omega

/-- The two branches' quotients in magnitude: shifting after the truncation loses at most one. -/
theorem abs_tdiv_two_mul (pc var1 : Int) :
    |Int.tdiv (2 * pc) var1| = |2 * Int.tdiv pc var1| ∨ |Int.tdiv (2 * pc) var1| = |2 * Int.tdiv pc var1| + 1 := by
  simp only [Int.abs_eq_natAbs, Int.natAbs_mul, Int.natAbs_tdiv]
  exact_mod_cast two_mul_div_eq pc.natAbs var1.natAbs

/-- Settles O36: 2^31 is no multiple of 3125, as the dividend is. -/
theorem pressureBranchesDifferByAtMostOne : Obligations.PressureBranchesDifferByAtMostOne := by
  refine ⟨fun tFine adcP p4 p5 p6 => ?_, pOvfThreshold_eq, fun pc var1 _ => ⟨?_, abs_tdiv_two_mul pc var1⟩⟩
  · have hdvd : (3125 : Int) ∣ pressDividend tFine adcP p4 p5 p6 := Dvd.intro_left _ rfl
    have hne : pressDividend tFine adcP p4 p5 p6 ≠ Config.pOvfThreshold := by
      rw [pOvfThreshold_eq]
      omega
    exact ⟨hdvd, hne, ⟨le_of_lt, fun h => lt_of_le_of_ne h hne.symm⟩⟩
  · rw [pressQuotient, pOvfThreshold_eq, shl_eq, shl_eq, pow_one, mul_comm, mul_comm pc 2]
    rfl

end Sys2Proof.Machine
end

section
/-! Sums and products of binary64 patterns by the numbers they stand for (00 R10): when a result is finite, and that a
sum is positive where the exact sum is. -/

namespace Sys2Proof.Machine.Binary64

theorem isPositive_signed {k : ℕ} (hk : 0 < k) (hk' : k ≤ infMag) : isPositive (signed false k) = true := by
  unfold infMag at hk'
  have h63 : k < 2 ^ 63 := by omega
  simp only [isPositive, unpack, signed_sign false h63, signed_exponent false h63, signed_fraction false h63]
  by_cases hinf : k / 2 ^ 52 = 2047
  · have hfrac : k % 2 ^ 52 = 0 := by omega
    rw [if_pos hinf, if_pos hfrac]
    rfl
  · rw [if_neg hinf]
    by_cases hsub : k / 2 ^ 52 = 0
    · have hfrac : k % 2 ^ 52 ≠ 0 := by omega
      rw [if_pos hsub]
      simpa using hfrac
    · rw [if_neg hsub]
      simp

/-- A positive integer of units no finer than the subnormal one does not round to zero. -/
theorem isPositive_round {m : ℕ} (hm : m ≠ 0) {e : ℤ} (he : -1074 ≤ e) : isPositive (round false m e) = true := by
  rw [round, if_neg hm]
  refine isPositive_signed (lt_min ?_ (by decide)) (min_le_right _ _)
  have hulps : 0 < ulps m e := by
    rcases (ulps_bounds hm e).2 with hsub | hnormal
    · rw [ulps, if_pos (hsub.le.trans he)]
      positivity
    · omega
  omega

theorem isPositive_add {a b : BitVec 64} {x y : ℚ} (ha : value a = some x) (hb : value b = some y) (hpos : 0 < x + y) :
    isPositive (add a b) = true := by
  obtain ⟨s, m, e, hu, rfl⟩ := value_eq_some ha
  obtain ⟨t, n, f, hv, rfl⟩ := value_eq_some hb
  have hbase : -1074 ≤ min e f := le_min (unpack_fin_bounds hu).2 (unpack_fin_bounds hv).2
  have hsum : 0 < scaled s m e (min e f) + scaled t n f (min e f) := by
    rw [← scaled_mul_zpow s m (min_le_left e f), ← scaled_mul_zpow t n (min_le_right e f), ← add_mul] at hpos
    exact_mod_cast (mul_pos_iff_of_pos_right (by positivity)).1 hpos
  simp only [add, hu, hv]
  rw [if_neg hsum.ne', decide_eq_false hsum.not_gt]
  exact isPositive_round (Int.natAbs_ne_zero.2 hsum.ne') hbase

/-- Below `2^1023` no rounding overflows. -/
theorem value_round_isSome (neg : Bool) (m : ℕ) {e : ℤ} (hlt : (m : ℚ) * 2 ^ e < 2 ^ 1023) :
    (value (round neg m e)).isSome = true := by
  rcases eq_or_ne m 0 with rfl | hm
  · rw [round_zero, value_of_unpack (unpack_signed_subnormal neg (by norm_num))]
    rfl
  · obtain ⟨hle, hnormal⟩ := ulps_bounds hm e
    have hexp : (m.log2 : ℤ) + e < 1023 := by
      have hlog : (2 : ℚ) ^ m.log2 ≤ m := by exact_mod_cast Nat.log2_self_le hm
      have hpow : (2 : ℚ) ^ ((m.log2 : ℤ) + e) < 2 ^ (1023 : ℤ) := by
        rw [zpow_add₀ two_ne_zero, zpow_natCast]
        exact (mul_le_mul_of_nonneg_right hlog (by positivity)).trans_lt hlt
      exact (zpow_lt_zpow_iff_right₀ one_lt_two).1 hpow
    have hfin : (ulpExp m e + 1074).toNat * 2 ^ 52 + ulps m e < infMag := by
      unfold infMag ulpExp
      omega
    rw [round_eq_signed_units neg hm hfin, value_signed_units neg (neg_1074_le_ulpExp m e) hle hnormal hfin]
    rfl

theorem value_mul_isSome {a b : BitVec 64} {x y : ℚ} (ha : value a = some x) (hb : value b = some y)
    (hlt : |x * y| < 2 ^ 1023) : (value (mul a b)).isSome = true := by
  obtain ⟨s, m, e, hu, rfl⟩ := value_eq_some ha
  obtain ⟨t, n, f, hv, rfl⟩ := value_eq_some hb
  simp only [mul, hu, hv]
  refine value_round_isSome _ _ (lt_of_eq_of_lt ?_ hlt)
  rw [abs_mul, abs_mul, abs_mul, abs_mul, abs_mul, abs_signOf, abs_signOf, Nat.abs_cast, Nat.abs_cast,
    abs_of_pos (by positivity), abs_of_pos (by positivity), zpow_add₀ two_ne_zero]
  push_cast
  ring

/-- Rounding does not cross a number that has a pattern of its own. -/
theorem IsNearest.le_value {x v w : ℚ} {r b : BitVec 64} (h : IsNearest x r) (hr : value r = some v)
    (hb : value b = some w) (hw : w ≤ x) : w ≤ v := by
  obtain ⟨v', hv', hnear⟩ := h
  obtain rfl : v = v' := Option.some.inj (hr.symm.trans hv')
  have hle := (hnear b w hb).1
  rw [abs_of_nonpos (sub_nonpos.2 hw)] at hle
  linarith [neg_abs_le (v - x)]

end Sys2Proof.Machine.Binary64
end

section
/-! COMP_G (42 R67, R68): the first factor of the formula is more than 512, so that the denominator is positive for
every gas code. -/

namespace Sys2Proof.Machine

open Binary64

/-- The patterns from 0.5 to 1.0 stand for the numbers between the two. -/
theorem value_of_pattern_between {b : BitVec 64} (hlo : 0x3FE0000000000000 ≤ b.toNat)
    (hhi : b.toNat ≤ 0x3FF0000000000000) : ∃ y, value b = some y ∧ 1 / 2 ≤ y ∧ y ≤ 1 := by
  have hb : b = signed false b.toNat := by simp [signed]
  rcases hhi.lt_or_eq with hlt | hone
  · obtain ⟨f, hf⟩ := Nat.exists_eq_add_of_le hlo
    have hf52 : (f : ℚ) ≤ 2 ^ 52 := by exact_mod_cast (by omega : f ≤ 2 ^ 52)
    rw [hb, hf, show 0x3FE0000000000000 = 1022 * 2 ^ 52 by norm_num,
      value_of_unpack (unpack_signed_normal false (by norm_num) (by norm_num) (by omega))]
    refine ⟨_, rfl, ?_, ?_⟩ <;> push_cast <;> norm_num <;> linarith [(Nat.cast_nonneg f : (0 : ℚ) ≤ f)]
  · rw [hb, hone, show 0x3FF0000000000000 = 1023 * 2 ^ 52 + 0 by norm_num,
      value_of_unpack (unpack_signed_normal false (by norm_num) (by norm_num) (by norm_num))]
    exact ⟨_, rfl, by norm_num, by norm_num⟩

theorem gasK1_pattern_between :
    ∀ r : BitVec 4, 0x3FE0000000000000 ≤ (gasK1 r).toNat ∧ (gasK1 r).toNat ≤ 0x3FF0000000000000 := by decide

/-- Every entry of K1 is from 1/2 to 1. -/
theorem value_gasK1 (r : BitVec 4) : ∃ y, value (gasK1 r) = some y ∧ 1 / 2 ≤ y ∧ y ≤ 1 :=
  value_of_pattern_between (gasK1_pattern_between r).1 (gasK1_pattern_between r).2

/-- `var1` of compG is finite, and at least 513: so is the exact product, and 513 has a pattern of its own. -/
theorem value_gasVar1 (r : BitVec 4) {e : Int} (he : -8 ≤ e ∧ e ≤ 15) :
    ∃ v, value (gasVar1 r e) = some v ∧ 513 ≤ v := by
  obtain ⟨y, hy, hlo, hhi⟩ := value_gasK1 r
  have hfactor : value (ofInt (1340 + 5 * e)) = some ((1340 + 5 * e : Int) : ℚ) :=
    value_ofInt_of_abs_lt (by rw [abs_lt]; omega)
  have hx : (1300 : ℚ) ≤ (1340 + 5 * e : Int) ∧ ((1340 + 5 * e : Int) : ℚ) ≤ 1415 := by
    constructor <;> norm_cast <;> omega
  generalize ((1340 + 5 * e : Int) : ℚ) = x at *
  have hprod : 513 ≤ x * y ∧ x * y ≤ 1415 := by constructor <;> nlinarith
  have habs : |x * y| < 2 ^ 1023 := by
    rw [abs_of_nonneg (by linarith)]
    calc x * y ≤ 1415 := hprod.2
      _ < 2 ^ 11 := by norm_num
      _ ≤ 2 ^ 1023 := pow_le_pow_right₀ one_le_two (by norm_num)
  have hsome : (value (gasVar1 r e)).isSome = true := value_mul_isSome hfactor hy habs
  obtain ⟨v, hv⟩ := Option.isSome_iff_exists.1 hsome
  exact ⟨v, hv, (mul_isNearest hfactor hy hsome).le_value hv (value_ofInt_of_abs_lt (v := 513) (by decide)) hprod.1⟩

theorem isPositive_gasDenominator (adcG : BitVec 10) (r : BitVec 4) {e : Int} (he : -8 ≤ e ∧ e ≤ 15) :
    isPositive (gasDenominator adcG.toNat r e) = true := by
  obtain ⟨v, hv, hle⟩ := value_gasVar1 r he
  have hadc := adcG.isLt
  refine isPositive_add (value_ofInt_of_abs_lt (by rw [abs_lt]; omega)) hv ?_
  have hoffset : ((-512 : Int) : ℚ) ≤ ((adcG.toNat - 512 : Int) : ℚ) := Int.cast_le.2 (by omega)
  push_cast at hoffset ⊢
  linarith

theorem rangeSwErr_between (isSigned : Bool) (raw : Byte) :
    -8 ≤ rangeSwErr isSigned raw ∧ rangeSwErr isSigned raw ≤ 15 := by
  have h := rangeSwErr_bounds isSigned raw
  split at h <;> omega

/-- compG answers a value for every raw gas code, gas range and RSE_RAW byte, with either reading of its sign. -/
theorem compG_ok (adcG : BitVec 10) (r : BitVec 4) (raw : Byte) (isSigned : Bool) :
    compG adcG.toNat r (rangeSwErr isSigned raw) =
      .ok (div (mul (gasVar1 r (rangeSwErr isSigned raw)) (gasK2 r))
        (gasDenominator adcG.toNat r (rangeSwErr isSigned raw))) :=
  compG_ok_iff.2 ⟨isPositive_gasDenominator adcG r (rangeSwErr_between isSigned raw), rfl⟩

/-- Settles O41: the two faults are the first two checks; the third, of the denominator, always passes. -/
theorem compGComputesTheGasResistance : Obligations.CompGComputesTheGasResistance := by
  refine fun s => ⟨fun hraw => ?noRaw, fun hraw hrse => ?rseUnset, fun hraw hrse => ?complete⟩
  case noRaw => exact commandStep_error (compGas_error_iff.2 (.inl ⟨hraw, rfl⟩))
  case rseUnset => exact commandStep_error (compGas_error_iff.2 (.inr (.inl ⟨hraw, hrse, rfl⟩)))
  case complete =>
    intro field e k1 k2 var1 num den
    have he : rangeSwErr Config.rseSigned s.ccb.rseRaw = e := rangeSwErr_eq_spec _ _
    have hok : gasOf s.ccb = .ok (div num den) := by
      rw [gasOf, compG_ok, he]
      rfl
    have hden : den = gasDenominator s.ccb.adcG.toNat s.ccb.gasRange (rangeSwErr Config.rseSigned s.ccb.rseRaw) := by
      rw [he]
      rfl
    exact ⟨hden ▸ isPositive_gasDenominator _ _ (rangeSwErr_between _ _), exec_compG_complete hraw hrse hok⟩

end Sys2Proof.Machine
end

section
/-! E_GAS_DENOM is never raised (42 R67): no command faults with it, and nothing else writes ERR bit 9. -/

namespace Sys2Proof.Machine

/-- What each command of a sequence, run by itself, keeps, the sequence keeps. -/
theorem runCommands_keeps_of_single {P : Ccb → Prop} {fs : List Command}
    (hfs : ∀ f ∈ fs, ∀ c, P c → P (runCommands [f] c)) {c : Ccb} (hc : P c) : P (runCommands fs c) := by
  induction fs generalizing c with
  | nil => exact hc
  | cons f rest ih =>
    have hfirst := hfs f (List.mem_cons_self ..) c hc
    cases h : f c with
    | ok c' =>
      rw [runCommands_cons_ok h, runCommands_nil] at hfirst
      rw [runCommands_cons_ok h]
      exact ih (fun g hg => hfs g (List.mem_cons_of_mem _ hg)) hfirst
    | error e =>
      rw [runCommands_cons_error h] at hfirst ⊢
      exact hfirst

/-- ERR bit 9 is clear. -/
def NoGasDenom (c : Ccb) : Prop := ErrReg.get c.err .gasDenom = false

theorem ErrReg.get_zero (e : Err) : ErrReg.get 0 e = false := BitVec.getLsbD_zero

theorem noGasDenom_faultEntry {c : Ccb} (h : NoGasDenom c) {e : Err} (he : e ≠ .gasDenom) :
    NoGasDenom (faultEntry e c) := by
  show ErrReg.get (ErrReg.raise c.err e) .gasDenom = false
  rw [ErrReg.get_raise, decide_eq_false he, h]
  rfl

theorem noGasDenom_busError {c : Ccb} (h : NoGasDenom c) : NoGasDenom (busError c) := by
  show ErrReg.get (ErrReg.raise c.err .bus) .gasDenom = false
  rw [ErrReg.get_raise, h]
  rfl

/-- A command that completes clears ERR or leaves it. -/
theorem noGasDenom_of_ok {f : Command} (hf : f ∈ [nop, calLoad, clrStatus, softReset] ++ readCycle) {c c' : Ccb}
    (h : NoGasDenom c) (hok : f c = .ok c') : NoGasDenom c' := by
  have hkept : c'.err = c.err → NoGasDenom c' := fun herr => by rwa [NoGasDenom, herr]
  simp only [readCycle, List.cons_append, List.nil_append, List.mem_cons, List.not_mem_nil, or_false] at hf
  rcases hf with rfl | rfl | rfl | rfl | rfl | hf
  · cases hok
    exact h
  · exact hkept (calLoad_ok hok).2.2.1
  · cases hok
    exact ErrReg.get_zero _
  · cases hok
    exact ErrReg.get_zero _
  · exact hkept (unpackSample_ok hok).2.1
  · exact hkept (compensation_ok (by simpa [compensations] using hf) hok).2.1

theorem pressureOf_ne_gasDenom {c : Ccb} : pressureOf c ≠ .error .gasDenom := fun h => by
  rcases compP_error_iff.1 h with ⟨_, he⟩ | ⟨_, _, he⟩ <;> cases he

theorem gasOf_ne_error (c : Ccb) (e : Err) : gasOf c ≠ .error e := by
  rw [gasOf, compG_ok]
  exact nofun

/-- No command faults with E_GAS_DENOM: COMP_G alone has that check, and its function always answers a value. -/
theorem ne_gasDenom_of_error {f : Command} (hf : f ∈ [nop, calLoad, clrStatus, softReset] ++ readCycle) {c : Ccb}
    {e : Err} (herr : f c = .error e) : e ≠ .gasDenom := by
  rintro rfl
  simp only [readCycle, List.cons_append, List.nil_append, List.mem_cons, List.not_mem_nil, or_false] at hf
  rcases hf with rfl | rfl | rfl | rfl | rfl | rfl | rfl | rfl | rfl
  · cases herr
  · exact absurd (calLoad_error_iff.1 herr).2 nofun
  · cases herr
  · cases herr
  · exact absurd (unpackSample_error_iff.1 herr).2 nofun
  · rcases compTemperature_error_iff.1 herr with ⟨_, he⟩ | ⟨_, _, he⟩ <;> cases he
  · rcases compPressure_error_iff.1 herr with ⟨_, he⟩ | ⟨_, _, he⟩ | ⟨_, _, _, he⟩ | ⟨_, _, _, hp⟩
    · cases he
    · cases he
    · cases he
    · exact pressureOf_ne_gasDenom hp
  · rcases compHumidity_error_iff.1 herr with ⟨_, he⟩ | ⟨_, _, he⟩ | ⟨_, _, _, he⟩ <;> cases he
  · rcases compGas_error_iff.1 herr with ⟨_, he⟩ | ⟨_, _, he⟩ | ⟨_, _, hg⟩
    · cases he
    · cases he
    · exact gasOf_ne_error c _ hg

theorem noGasDenom_runCommands {fs : List Command}
    (hfs : ∀ f ∈ fs, f ∈ [nop, calLoad, clrStatus, softReset] ++ readCycle ∨ f = illegalCommand) {c : Ccb}
    (hc : NoGasDenom c) : NoGasDenom (runCommands fs c) := by
  refine runCommands_keeps_of_single (fun f hf c hc => ?_) hc
  rw [runCommands_single]
  rcases hfs f hf with hm | rfl
  · split
    · next c' hok => exact noGasDenom_of_ok hm hc hok
    · next e herr => exact noGasDenom_faultEntry hc (ne_gasDenom_of_error hm herr)
  · exact noGasDenom_faultEntry hc (by decide)

theorem noGasDenom_memWrite (a : Addr) (d : Byte) {c : Ccb} (hc : NoGasDenom c) :
    NoGasDenom (memWrite executeCommand a d c) := by
  rcases memWrite_cases executeCommand a d c with ⟨_, h⟩ | ⟨i, _, h⟩ | ⟨i, _, h⟩ | ⟨_, h⟩ | ⟨_, h⟩ | ⟨_, h⟩ |
    ⟨_, h⟩ | ⟨_, h⟩ | ⟨_, h⟩ <;> rw [h]
  · exact noGasDenom_runCommands (commandsOf_mem d) hc
  iterate 7 exact hc
  · exact noGasDenom_busError hc

/-- Settles O42: compG always answers a value, and neither a command, nor a write, nor a read sets ERR bit 9. -/
theorem gasDenominatorFaultIsUnreachable : Obligations.GasDenominatorFaultIsUnreachable := by
  refine ⟨fun adcG r raw isSigned => ⟨_, compG_ok adcG r raw isSigned⟩, fun i s t h hs => ?_⟩
  rcases exec_cases h with ⟨fs, hfs, rfl⟩ | ⟨a, d, _, rfl⟩ | ⟨a, _, rfl⟩
  · exact noGasDenom_runCommands (fun f hf => .inl (hfs f hf)) hs
  · exact noGasDenom_memWrite a d hs
  · show NoGasDenom (afterRead a s.ccb)
    rw [afterRead_eq]
    split
    · exact noGasDenom_busError hs
    · exact hs

end Sys2Proof.Machine
end

section
/-! Computed values of the gas path: the tables (42 R66) and the source's example (95 E6). -/

namespace Sys2Proof.Machine

/-- Settles O40, by computing the quotients of each table. -/
theorem gasTablesAreTheLiterals : Obligations.GasTablesAreTheLiterals := ⟨by decide, by decide⟩

/-- Settles O43, by computing the denominator and the quotient. -/
theorem sourceGasExample : Obligations.SourceGasExample := compG_ok_iff.2 ⟨by decide, by decide⟩

end Sys2Proof.Machine
end

section
/-! The control commands (43 R71, R73, R74), each by itself as a step. -/

namespace Sys2Proof.Machine

/-- Settles O12: SRST cannot fault, and what it writes is the reset block. -/
theorem srstResetsTheBlock : Obligations.SrstResetsTheBlock := fun s =>
  commandStep_ok (softReset_ok s.ccb)

/-- Settles O46: NOP cannot fault, and clearing LAST_FAULT is the mask 0x7F. -/
theorem nopClearsLastFaultOnly : Obligations.NopClearsLastFaultOnly := by
  intro s
  show commandStep [nop] s = _
  rw [commandStep_ok (nop_ok s.ccb), Status.put_lastFault_false_eq_mask]

/-- Settles O47: CLR_STATUS cannot fault, and clearing LAST_FAULT is the mask 0x7F. -/
theorem clrStatusClearsTheErrorState : Obligations.ClrStatusClearsTheErrorState := by
  intro s
  show commandStep [clrStatus] s = _
  rw [commandStep_ok (clrStatus_ok s.ccb), Status.put_lastFault_false_eq_mask]

end Sys2Proof.Machine
end

section
/-! COMP_ALL (43 R72): its five commands as five steps, and all five outputs when none of them faults. -/

namespace Sys2Proof.Machine

theorem exec_compAll (s : State) : exec .compAll s = .next (nextOr s (commandStep readCycle s)) := rfl

/-- Each command of COMP_ALL clears LAST_FAULT when it completes (41 R57; 42 R60, R63, R65, R68). -/
theorem lastFault_of_readCycle_ok {f : Command} (hf : f ∈ readCycle) {c c' : Ccb} (h : f c = .ok c') :
    Ccb.flag c' .lastFault = false := by
  simp only [readCycle, List.mem_cons, List.not_mem_nil, or_false] at hf
  rcases hf with rfl | rfl | rfl | rfl | rfl
  · obtain ⟨_, rfl⟩ := unpackSample_ok_iff.1 h
    exact Status.get_afterUnpack ..
  · obtain ⟨_, _, rfl⟩ := compTemperature_ok_iff.1 h
    exact Status.get_afterCompT ..
  · obtain ⟨_, _, _, p, _, rfl⟩ := compPressure_ok_iff.1 h
    exact Status.get_afterComp ..
  · obtain ⟨_, _, _, rfl⟩ := compHumidity_ok_iff.1 h
    exact Status.get_afterComp ..
  · obtain ⟨_, _, g, _, rfl⟩ := compGas_ok_iff.1 h
    exact Status.get_afterComp ..

/-- A command of COMP_ALL with more after it is that command as a step, and then, unless LAST_FAULT says that it
faulted, the others as a step. -/
theorem nextOr_commandStep_cons_cons {f : Command} (hf : f ∈ readCycle) (g : Command) (rest : List Command)
    (s : State) :
    nextOr s (commandStep (f :: g :: rest) s) =
      if Ccb.flag (nextOr s (commandStep [f] s)).ccb .lastFault = true then nextOr s (commandStep [f] s)
      else nextOr (nextOr s (commandStep [f] s)) (commandStep (g :: rest) (nextOr s (commandStep [f] s))) := by
  simp only [nextOr, commandStep]
  cases h : f s.ccb with
  | ok c' => simp [runCommands_cons_ok h, lastFault_of_readCycle_ok hf h]
  | error e => simp [runCommands_cons_error h]

/-- Settles O48: the rule for a sequence, once for each command that has another after it. -/
theorem compAllIsTheFiveCommandsInOrder : Obligations.CompAllIsTheFiveCommandsInOrder := by
  intro s
  rw [exec_compAll, readCycle]
  iterate 4 rw [nextOr_commandStep_cons_cons (by simp [readCycle])]
  rfl

/-- STATUS after all five commands: every valid and FRESH bit set, LAST_FAULT clear (10 R24). -/
theorem status_after_readCycle {st : Status} (hcal : Status.get st .calValid = true) :
    Status.afterComp (Status.afterComp (Status.afterComp (Status.afterCompT (Status.afterUnpack st)) .pressFresh)
      .humFresh) .gasFresh = 0x7F := by
  simp only [Status.afterUnpack_eq_mask, Status.afterCompT_eq_mask, Status.afterComp_press_eq_mask,
    Status.afterComp_hum_eq_mask, Status.afterComp_gas_eq_mask]
  revert st
  decide

theorem Status.get_afterComp_of_get {st : Status} {b : StatusBit} (h : Status.get st b = true)
    (hb : b ≠ .lastFault) (fresh : StatusBit) : Status.get (Status.afterComp st fresh) b = true := by
  rw [Status.get_afterComp, if_neg hb, h, ite_self]

/-- The three commands after COMP_T, none of which faults: each leaves the flags and the registers that the next
reads (42 R63, R65, R68). -/
theorem runCommands_after_compT_complete {c : Ccb} (hcal : Ccb.flag c .calValid = true)
    (hraw : Ccb.flag c .rawValid = true) (hfine : Ccb.flag c .tfineValid = true) (hrse : c.rseW = true) {p : Int}
    (hp : pressureOf c = .ok p) {g : BitVec 64} (hg : gasOf c = .ok g) :
    runCommands [compPressure, compHumidity, compGas] c = { c with
      pressOut := BitVec.ofInt 32 p
      humOut := BitVec.ofInt 32 (humidityOf c)
      gasOut := g
      status := Status.afterComp (Status.afterComp (Status.afterComp c.status .pressFresh) .humFresh) .gasFresh } := by
  have hcal' := Status.get_afterComp_of_get hcal (by decide) .pressFresh
  have hraw' := Status.get_afterComp_of_get hraw (by decide) .pressFresh
  have hfine' := Status.get_afterComp_of_get hfine (by decide) .pressFresh
  have hraw'' := Status.get_afterComp_of_get hraw' (by decide) .humFresh
  refine Eq.trans (runCommands_cons_ok (compPressure_ok_iff.2 ⟨hcal, hraw, hfine, p, hp, rfl⟩)) ?_
  refine Eq.trans (runCommands_cons_ok (compHumidity_ok_iff.2 ⟨hcal', hraw', hfine', rfl⟩)) ?_
  exact runCommands_cons_ok (compGas_ok_iff.2 ⟨hraw'', hrse, g, hg, rfl⟩)

/-- Settles O49: UNPACK sets RAW_VALID, which COMP_T needs, and COMP_T sets TFINE_VALID, which COMP_P and COMP_H
need; compG answers a value for every input. -/
theorem compAllComputesEveryOutput : Obligations.CompAllComputesEveryOutput := by
  intro s p c u v hmask hcal hrse hp
  obtain ⟨g, hg⟩ : ∃ g, gasOf v = .ok g := ⟨_, compG_ok ..⟩
  have hunpack : unpackSample c = .ok { u with status := Status.afterUnpack c.status } :=
    unpackSample_ok_iff.2 ⟨hmask, rfl⟩
  have hcal₁ : Status.get (Status.afterUnpack c.status) .calValid = true := (Status.get_afterUnpack ..).trans hcal
  have hraw₁ : Status.get (Status.afterUnpack c.status) .rawValid = true := Status.get_afterUnpack ..
  have htemp : compTemperature { u with status := Status.afterUnpack c.status } =
      .ok { v with status := Status.afterCompT (Status.afterUnpack c.status) } :=
    compTemperature_ok_iff.2 ⟨hcal₁, hraw₁, rfl⟩
  have hrest := runCommands_after_compT_complete
    (c := { v with status := Status.afterCompT (Status.afterUnpack c.status) })
    ((Status.get_afterCompT ..).trans hcal₁) ((Status.get_afterCompT ..).trans hraw₁) (Status.get_afterCompT ..)
    hrse hp hg
  refine ⟨g, hg, ?_⟩
  show commandStep readCycle s = _
  rw [commandStep, readCycle, runCommands_cons_ok hunpack, runCommands_cons_ok htemp, hrest,
    status_after_readCycle hcal]
  rfl

end Sys2Proof.Machine
end

section
/-! The fault a run of commands ends with (60 R81), against LAST_FAULT and ERR after it. -/

namespace Sys2Proof.Machine

theorem faultOf_cons_ok {f : Command} {rest : List Command} {c c' : Ccb} (h : f c = .ok c') :
    faultOf (f :: rest) c = faultOf rest c' := by simp [faultOf, h]

theorem faultOf_cons_error {f : Command} {rest : List Command} {c : Ccb} {e : Err} (h : f c = .error e) :
    faultOf (f :: rest) c = some e := by simp [faultOf, h]

/-- A command that completes leaves no report of a fault: LAST_FAULT is clear, and no ERR bit is new. -/
def ReportsNoFault (f : Command) : Prop :=
  ∀ c c', f c = .ok c' →
    Ccb.flag c' .lastFault = false ∧ ∀ e, ErrReg.get c'.err e = true → ErrReg.get c.err e = true

theorem reportsNoFault_of_readCycle {f : Command} (hf : f ∈ readCycle) : ReportsNoFault f := by
  intro c c' h
  have herr : c'.err = c.err := by
    rcases List.mem_cons.1 hf with rfl | hcomp
    · exact (unpackSample_ok h).2.1
    · exact (compensation_ok hcomp h).2.1
  exact ⟨lastFault_of_readCycle_ok hf h, fun _ he => herr ▸ he⟩

theorem reportsNoFault_calLoad : ReportsNoFault calLoad := by
  intro c c' h
  obtain ⟨_, rfl⟩ := calLoad_ok_iff.1 h
  exact ⟨Status.get_afterCalLoad .., fun _ => id⟩

theorem reportsNoFault_nop : ReportsNoFault nop := by
  rintro c _ ⟨⟩
  exact ⟨Status.get_put .., fun _ => id⟩

theorem reportsNoFault_clrStatus : ReportsNoFault clrStatus := by
  rintro c _ ⟨⟩
  exact ⟨Status.get_put .., fun e he => absurd he (by rw [ErrReg.get_zero]; decide)⟩

theorem reportsNoFault_softReset : ReportsNoFault softReset := by
  rintro c _ ⟨⟩
  exact ⟨Ccb.reset_flag .lastFault, fun e he => absurd he (by rw [Ccb.reset_err, ErrReg.get_zero]; decide)⟩

theorem reportsNoFault_illegalCommand : ReportsNoFault illegalCommand := nofun

theorem reportsNoFault_commandsOf (d : Byte) : ∀ f ∈ commandsOf d, ReportsNoFault f := by
  intro f hf
  rcases commandsOf_mem d f hf with hm | rfl
  · simp only [List.cons_append, List.nil_append, List.mem_cons] at hm
    rcases hm with rfl | rfl | rfl | rfl | hm
    · exact reportsNoFault_nop
    · exact reportsNoFault_calLoad
    · exact reportsNoFault_clrStatus
    · exact reportsNoFault_softReset
    · exact reportsNoFault_of_readCycle hm
  · exact reportsNoFault_illegalCommand

/-- LAST_FAULT tells how the last command that ran ended, so the run must have a command. -/
theorem lastFault_runCommands {f : Command} {rest : List Command} (hfs : ∀ g ∈ f :: rest, ReportsNoFault g) (c : Ccb) :
    Ccb.flag (runCommands (f :: rest) c) .lastFault = (faultOf (f :: rest) c).isSome := by
  induction rest generalizing f c with
  | nil =>
    cases h : f c with
    | ok c' =>
      rw [runCommands_cons_ok h, faultOf_cons_ok h]
      exact (hfs f (List.mem_cons_self ..) c c' h).1
    | error e => simp [runCommands_cons_error h, faultOf_cons_error h]
  | cons g rest ih =>
    cases h : f c with
    | ok c' =>
      rw [runCommands_cons_ok h, faultOf_cons_ok h]
      exact ih (fun k hk => hfs k (List.mem_cons_of_mem _ hk)) c'
    | error e => simp [runCommands_cons_error h, faultOf_cons_error h]

/-- The ERR bit of the fault that a run ends with is set after it. -/
theorem get_err_of_faultOf {fs : List Command} {c : Ccb} {e : Err} (he : faultOf fs c = some e) :
    ErrReg.get (runCommands fs c).err e = true := by
  induction fs generalizing c with
  | nil => cases he
  | cons f rest ih =>
    cases h : f c with
    | ok c' =>
      rw [faultOf_cons_ok h] at he
      rw [runCommands_cons_ok h]
      exact ih he
    | error e' =>
      rw [faultOf_cons_error h] at he
      cases he
      simp [runCommands_cons_error h]

/-- No other ERR bit is new after a run. -/
theorem get_err_or_faultOf_of_get_err {fs : List Command} (hfs : ∀ f ∈ fs, ReportsNoFault f) {c : Ccb} {e : Err}
    (he : ErrReg.get (runCommands fs c).err e = true) : ErrReg.get c.err e = true ∨ faultOf fs c = some e := by
  induction fs generalizing c with
  | nil => exact .inl he
  | cons f rest ih =>
    cases h : f c with
    | ok c' =>
      rw [runCommands_cons_ok h] at he
      rw [faultOf_cons_ok h]
      exact (ih (fun g hg => hfs g (List.mem_cons_of_mem _ hg)) he).imp_left
        ((hfs f (List.mem_cons_self ..) c c' h).2 e)
    | error e' =>
      rw [runCommands_cons_error h, faultEntry_err, ErrReg.get_raise, Bool.or_eq_true, decide_eq_true_eq] at he
      rw [faultOf_cons_error h, Option.some.injEq]
      exact he.symm

/-- So a run has one cause that it can add to ERR: the fault it ends with. -/
theorem exists_cause_of_runCommands {fs : List Command} (hfs : ∀ f ∈ fs, ReportsNoFault f) (c : Ccb) :
    ∃ e : Err, ∀ e', e' ≠ e → ErrReg.get (runCommands fs c).err e' = true → ErrReg.get c.err e' = true := by
  refine ⟨(faultOf fs c).getD .bus, fun e' hne he' => ?_⟩
  refine (get_err_or_faultOf_of_get_err hfs he').resolve_right fun hfault => hne ?_
  rw [hfault, Option.getD_some]

theorem get_err_runCommands_iff {fs : List Command} (hfs : ∀ f ∈ fs, ReportsNoFault f) {c : Ccb} {e : Err}
    (hclear : ErrReg.get c.err e = false) :
    ErrReg.get (runCommands fs c).err e = true ↔ faultOf fs c = some e :=
  ⟨fun he => (get_err_or_faultOf_of_get_err hfs he).resolve_left (Bool.eq_false_iff.1 hclear), get_err_of_faultOf⟩

end Sys2Proof.Machine
end

section
/-! The exceptions (60 R79-R82): what a write to CMD, any other write, and a read do to LAST_FAULT and ERR. -/

namespace Sys2Proof.Machine

theorem exec_wr_cmd (d : Byte) (s : State) : exec (.wr cmdAddr d) s = commandStep (commandsOf d) s := rfl

/-- Only COMP_ALL runs more than one command (43 R72). -/
theorem commandsOf_length : ∀ d : Byte, d ≠ 0x07 → (commandsOf d).length = 1 := by decide

theorem commandsOf_ne_nil (d : Byte) : commandsOf d ≠ [] := by
  by_cases hd : d = 0x07
  · subst hd
    exact List.cons_ne_nil _ _
  · exact List.ne_nil_of_length_pos (commandsOf_length d hd ▸ Nat.one_pos)

/-- Nothing but E_BUS can have been reported between the two blocks (60 R82). -/
structure ReportsOnlyBus (c c' : Ccb) : Prop where
  lastFault : Ccb.flag c' .lastFault = Ccb.flag c .lastFault
  err : ∀ e, e ≠ .bus → ErrReg.get c'.err e = ErrReg.get c.err e

theorem reportsOnlyBus_busError (c : Ccb) : ReportsOnlyBus c (busError c) where
  lastFault := rfl
  err e he := by rw [busError_err, ErrReg.get_raise, decide_eq_false he.symm, Bool.false_or]

theorem reportsOnlyBus_memWrite {a : Addr} (ha : a ≠ cmdAddr) (d : Byte) (c : Ccb) :
    ReportsOnlyBus c (memWrite executeCommand a d c) := by
  rcases memWrite_cases executeCommand a d c with ⟨hc, _⟩ | ⟨i, _, h⟩ | ⟨i, _, h⟩ | ⟨_, h⟩ | ⟨_, h⟩ | ⟨_, h⟩ |
    ⟨_, h⟩ | ⟨_, h⟩ | ⟨_, h⟩
  · exact absurd hc ha
  iterate 4 exact h ▸ ⟨rfl, fun _ _ => rfl⟩
  iterate 3 exact h ▸ ⟨Status.get_put_of_ne _ _ (by decide), fun _ _ => rfl⟩
  · exact h ▸ reportsOnlyBus_busError c

theorem reportsOnlyBus_afterRead (a : Addr) (c : Ccb) : ReportsOnlyBus c (afterRead a c) := by
  rw [afterRead_eq]
  split
  · exact reportsOnlyBus_busError c
  · exact ⟨rfl, fun _ _ => rfl⟩

/-- Settles O50: each command of the byte clears LAST_FAULT when it completes, and a fault sets it. -/
theorem lastFaultReportsTheCommand : Obligations.LastFaultReportsTheCommand := by
  refine ⟨fun d s t h => ?_, fun a d s t ha h => ?_, fun a s t h => ?_⟩
  · cases h
    show Ccb.flag (runCommands (commandsOf d) s.ccb) .lastFault = _
    have hfs := reportsNoFault_commandsOf d
    obtain ⟨f, rest, hd⟩ := List.exists_cons_of_ne_nil (commandsOf_ne_nil d)
    rw [hd] at hfs ⊢
    exact lastFault_runCommands hfs s.ccb
  · cases h
    exact (reportsOnlyBus_memWrite ha d s.ccb).lastFault
  · cases h
    exact (reportsOnlyBus_afterRead a s.ccb).lastFault

/-- Settles O51: the byte runs one command, whose fault comes before any write. -/
theorem faultsArePrecise : Obligations.FaultsArePrecise := by
  intro d s t e hd h he
  obtain ⟨f, hf⟩ := List.length_eq_one_iff.1 (commandsOf_length d hd)
  have hstep : commandStep [f] s = .next t := by rw [← hf, ← exec_wr_cmd]; exact h
  rw [hf] at he
  cases hfc : f s.ccb with
  | ok c' => exact absurd (faultOf_cons_ok hfc ▸ he) nofun
  | error e' =>
    obtain rfl : e' = e := Option.some.inj ((faultOf_cons_error hfc).symm.trans he)
    rw [commandStep_error hfc] at hstep
    exact (Host.Outcome.next.inj hstep).symm

/-- Settles O52: a command, however it is run, is the run of its code's commands, which adds to ERR at most the
fault it ends with; every other transaction adds at most a bus error. -/
theorem oneCommandSetsAtMostOneErrBit : Obligations.OneCommandSetsAtMostOneErrBit := by
  refine ⟨fun i d s t hi h => ?_, fun a d s t ha h => ?_, fun a s t h => ?_⟩
  · have hstep : exec i s = commandStep (commandsOf d) s := by
      rcases hi with rfl | hd
      · exact exec_wr_cmd d s
      · exact exec_command hd s
    rw [hstep] at h
    cases h
    have hfs := reportsNoFault_commandsOf d
    exact ⟨exists_cause_of_runCommands hfs s.ccb, fun e => get_err_runCommands_iff hfs⟩
  · cases h
    exact (reportsOnlyBus_memWrite ha d s.ccb).err
  · cases h
    exact (reportsOnlyBus_afterRead a s.ccb).err

end Sys2Proof.Machine
end

section
/-! The reset state (70 R92), and what each command and transaction does from it (70 R93). -/

namespace Sys2Proof.Machine

theorem step_powerOn {s : State} {rest : List Input} (hp : s.pending = .powerOn :: rest) :
    step s = .next { s with ccb := Ccb.reset, pending := rest } := by
  simp [step, takeInput, hp, powerOnReset]

/-- SRST and a power-on reset leave the block that the machine has right after reset (70 R92). -/
theorem eq_reset_of_left_by_reset {c : Ccb}
    (h : c = State.reset.ccb ∨ (∃ s t, exec .srst s = .next t ∧ t.ccb = c) ∨
      (∃ s t rest, s.pending = .powerOn :: rest ∧ step s = .next t ∧ t.ccb = c)) :
    c = Ccb.reset := by
  rcases h with h | ⟨s, t, ht, rfl⟩ | ⟨s, t, rest, hp, ht, rfl⟩
  · exact h
  · rw [srstResetsTheBlock s] at ht
    cases ht
    rfl
  · rw [step_powerOn hp] at ht
    cases ht
    rfl

/-- RANGE_SW_ERR is 0 at reset for either reading of its sign (70 R92). -/
theorem rangeSwErr_zero (isSigned : Bool) : rangeSwErr isSigned 0x00 = 0 := by
  cases isSigned <;> decide

/-- Settles O10: the three ways to reset leave one block, whose elements are read off its definition. -/
theorem resetStateIsAllZero : Obligations.ResetStateIsAllZero := by
  refine ⟨fun s rest hp => step_powerOn hp, fun c hc => ?_⟩
  obtain rfl := eq_reset_of_left_by_reset hc
  refine ⟨fun i => Vector.getElem_replicate i.isLt, fun i => Vector.getElem_replicate i.isLt, ?registers⟩
  case registers =>
    iterate 20 refine ⟨rfl, ?_⟩
    exact ⟨by decide, by decide, rangeSwErr_zero _⟩

/-- A fault from the reset block leaves its own ERR bit and LAST_FAULT alone set (60 R79). -/
theorem faultEntry_reset {c : Ccb} (hc : c = Ccb.reset) (e : Err) :
    faultEntry e c = { c with err := BitVec.ofNat 16 (2 ^ e.code), status := 0x80 } := by
  subst hc
  cases e <;> rfl

/-- A command that faults, as a step from the reset block. -/
theorem commandStep_error_reset {s : State} (hs : s.ccb = State.reset.ccb) {f : Command} {rest : List Command}
    {e : Err} (h : f s.ccb = .error e) :
    commandStep (f :: rest) s =
      .next { s with ccb := { s.ccb with err := BitVec.ofNat 16 (2 ^ e.code), status := 0x80 } } := by
  rw [commandStep, runCommands_cons_error h, faultEntry_reset hs]

/-- Settles O11: at reset no valid flag is set and both masks are empty, so each command faults at its first check;
a read and a write answer a next state from every block. -/
theorem commandsFaultAfterReset : Obligations.CommandsFaultAfterReset := by
  intro s hs
  have hflag (b : StatusBit) : Ccb.flag s.ccb b = false := hs ▸ Ccb.reset_flag b
  have hcalMask : s.ccb.calWMask ≠ BitVec.allOnes 41 := by
    rw [hs]
    decide
  have hrawMask : s.ccb.rawWMask ≠ BitVec.allOnes 10 := by
    rw [hs]
    decide
  have hunpack : unpackSample s.ccb = .error .rawPartial := unpackSample_error_iff.2 ⟨hrawMask, rfl⟩
  refine ⟨fun i hi => ?compensation, ?compG, fun i hi => ?sample, ?calLoad, fun a => exec_completes _ s,
    fun a d => exec_completes _ s⟩
  case compensation =>
    simp only [List.mem_cons, List.not_mem_nil, or_false] at hi
    rcases hi with rfl | rfl | rfl
    · exact commandStep_error_reset hs (compTemperature_error_iff.2 (.inl ⟨hflag .calValid, rfl⟩))
    · exact commandStep_error_reset hs (compPressure_error_iff.2 (.inl ⟨hflag .calValid, rfl⟩))
    · exact commandStep_error_reset hs (compHumidity_error_iff.2 (.inl ⟨hflag .calValid, rfl⟩))
  case compG => exact commandStep_error_reset hs (compGas_error_iff.2 (.inl ⟨hflag .rawValid, rfl⟩))
  case sample =>
    simp only [List.mem_cons, List.not_mem_nil, or_false] at hi
    rcases hi with rfl | rfl
    · exact commandStep_error_reset hs hunpack
    · exact commandStep_error_reset hs hunpack
  case calLoad => exact commandStep_error_reset hs (calLoad_error_iff.2 ⟨hcalMask, rfl⟩)

end Sys2Proof.Machine
end

section
/-! Reads and writes in sequence (70 R96, R99): a read word as a step, and the live view of RSE_RAW after a write. -/

namespace Sys2Proof.Machine

/-- A step that takes the read word `0:A:0x00` of an address that is not reserved (20 R30, 30 R41). -/
theorem step_readWord {s : State} {rest : List Input} (a : Addr) (ha : isReserved a = false)
    (hp : s.pending = .word (0x100 * a.toNat) :: rest) :
    step s = .next { s with pending := rest, returned := s.returned ++ [readByte a s.ccb] } := by
  obtain ⟨-, hread, -⟩ := transactionWordFormat
  rw [step_word hp (hread a)]
  show execRd a { s with pending := rest } = _
  rw [execRd, afterRead_eq, ha, if_neg Bool.false_ne_true]

/-- Settles O23: none of the four addresses is reserved, so each read leaves the block as it was, and the bytes are
those of one T_FINE. -/
theorem fourReadsReturnOneFineTemperature : Obligations.FourReadsReturnOneFineTemperature := by
  intro s rest hp
  obtain ⟨-, -, -, htFine, -⟩ := multiByteRegistersAreLittleEndian s.ccb
  refine ⟨readByte 0x40 s.ccb, readByte 0x41 s.ccb, readByte 0x42 s.ccb, readByte 0x43 s.ccb, _, _, _,
    step_readWord 0x40 (by decide) hp, step_readWord 0x41 (by decide) rfl, step_readWord 0x42 (by decide) rfl, ?_,
    htFine⟩
  rw [step_readWord 0x43 (by decide) rfl]
  simp only [List.append_assoc, List.cons_append, List.nil_append]

theorem exec_wr_rseRaw (d : Byte) (s : State) :
    exec (.wr 0x2B d) s = .next { s with ccb := { s.ccb with
      rseRaw := d, rseW := true, status := Status.put s.ccb.status .gasFresh false } } := rfl

/-- Settles O45: the view is computed at the read, from the byte just written. -/
theorem rangeSwitchingErrorIsLive : Obligations.RangeSwitchingErrorIsLive := by
  intro d s
  refine ⟨_, exec_wr_rseRaw d s, Status.get_put .., rfl, ?view⟩
  case view =>
    refine (readByte_row_two 0xB2 .rangeSwErr _ (by decide)).trans ?_
    exact ofInt_rangeSwErr Config.rseSigned d

end Sys2Proof.Machine
end
